-- ==== Sys2Proof/Word.lean ====
section
/-! DEFINITION. The word and byte types of the block (00_scope.md R11, 20_memory.md R43). -/

namespace Sys2Proof

/-- Every command word, register, sample, phase, rate and parameter is held in 32 bits (00_scope.md R11). -/
abbrev Word := BitVec 32

/-- One byte lane of the host bus (20_memory.md R43). -/
abbrev Byte := BitVec 8

end Sys2Proof
end

