-- ==== Sys2Proof/Syntax.lean ====
section
/-! DEFINITION. The commands of the set CHR1: one constructor per row of spec/opcode_table.json
(30_encoding.md R59). The channel and unit fields of a row range over a type that holds exactly the
values the row allows, so that every term of `Instr` is a legal command. -/

namespace Sys2Proof

/-- A channel engine: left is channel 0, right is channel 1 (00_scope.md R3). -/
inductive Channel where
  | left
  | right
deriving DecidableEq, Repr

/-- The channels a command with CH set 01, 10, 11 addresses (30_encoding.md R56). -/
inductive ChSel where
  | one (c : Channel)
  | both
deriving DecidableEq, Repr

/-- A unit index 0, 1 or 2 of a delay line or an LFO (30_encoding.md R57). -/
inductive Tap where
  | tap0
  | tap1
  | tap2
deriving DecidableEq, Repr

/-- The buffer MEM_PEEK reads: a delay line, or the feedback buffer at U = 3 (30_encoding.md R57). -/
inductive PeekUnit where
  | dl (k : Tap)
  | fb
deriving DecidableEq, Repr

/-- A legal command with its channel and unit (30_encoding.md R59). Operands are not part of the word
(R58). -/
inductive Instr where
  | nop (sel : ChSel)
  | dlInit (c : Channel) (k : Tap)
  | dlResize (c : Channel) (k : Tap)
  | dlProcess (c : Channel) (k : Tap)
  | lfoInit (c : Channel) (k : Tap)
  | lfoValue (c : Channel) (k : Tap)
  | lfoAdvance (c : Channel) (k : Tap)
  | lfoSetRate (c : Channel) (k : Tap)
  | fbResize (c : Channel)
  | fbRead (c : Channel)
  | fbPush (c : Channel)
  | engSetSampleRate (sel : ChSel)
  | engProcess (c : Channel)
  | stProcess
  | csrRead (sel : ChSel)
  | csrWrite (sel : ChSel)
  | memPeek (c : Channel) (u : PeekUnit)
deriving DecidableEq, Repr

end Sys2Proof
end

