-- ==== Sys2Proof/WellFormed.lean ====
section
/-! DEFINITION. What makes a command word well formed: the opcode table of 30_encoding.md R59 as data,
and the four checks of R59 on the fields of a word. -/

namespace Sys2Proof

/-- The four fields of a command word (30_encoding.md R55). -/
structure Fields where
  op : BitVec 8
  u : BitVec 2
  ch : BitVec 2
  rsv : BitVec 20
deriving DecidableEq, Repr

/-- One row of the opcode map (30_encoding.md R59): the opcode and the sets its CH and U fields may
take. -/
structure Row where
  mnemonic : String
  op : BitVec 8
  chSet : List (BitVec 2)
  uSet : List (BitVec 2)
deriving DecidableEq, Repr

/-- The CH set 01, 10 of a row that addresses one channel (30_encoding.md R56). -/
def oneChannel : List (BitVec 2) := [1#2, 2#2]

/-- The CH set 01, 10, 11 (30_encoding.md R56). -/
def anyChannel : List (BitVec 2) := [1#2, 2#2, 3#2]

/-- The U set 0, 1, 2 (30_encoding.md R57). -/
def unitSet : List (BitVec 2) := [0#2, 1#2, 2#2]

/-- The complete opcode map (30_encoding.md R59), in the table's order. -/
def opcodeRows : List Row :=
  [ ⟨"NOP", 0x00#8, anyChannel, [0#2]⟩,
    ⟨"DL_INIT", 0x01#8, oneChannel, unitSet⟩,
    ⟨"DL_RESIZE", 0x02#8, oneChannel, unitSet⟩,
    ⟨"DL_PROCESS", 0x03#8, oneChannel, unitSet⟩,
    ⟨"LFO_INIT", 0x10#8, oneChannel, unitSet⟩,
    ⟨"LFO_VALUE", 0x11#8, oneChannel, unitSet⟩,
    ⟨"LFO_ADVANCE", 0x12#8, oneChannel, unitSet⟩,
    ⟨"LFO_SET_RATE", 0x13#8, oneChannel, unitSet⟩,
    ⟨"FB_RESIZE", 0x20#8, oneChannel, [0#2]⟩,
    ⟨"FB_READ", 0x21#8, oneChannel, [0#2]⟩,
    ⟨"FB_PUSH", 0x22#8, oneChannel, [0#2]⟩,
    ⟨"ENG_SET_SAMPLE_RATE", 0x30#8, anyChannel, [0#2]⟩,
    ⟨"ENG_PROCESS", 0x31#8, oneChannel, [0#2]⟩,
    ⟨"ST_PROCESS", 0x32#8, [3#2], [0#2]⟩,
    ⟨"CSR_READ", 0x40#8, anyChannel, [0#2]⟩,
    ⟨"CSR_WRITE", 0x41#8, anyChannel, [0#2]⟩,
    ⟨"MEM_PEEK", 0x42#8, oneChannel, [0#2, 1#2, 2#2, 3#2]⟩ ]

/-- The fields are a legal word: RSV is zero, OP is in the table, and CH and U are in the row's sets
(30_encoding.md R59). -/
def Fields.wellFormed (f : Fields) : Bool :=
  f.rsv == 0#20 && opcodeRows.any fun r => r.op == f.op && r.chSet.contains f.ch && r.uSet.contains f.u

end Sys2Proof
end

