-- ==== Sys2Proof/Decode.lean ====
section
/-! DEFINITION. Byte lanes, the decoder and the encoder of command words (20_memory.md R43,
30_encoding.md R55 to R61). -/

namespace Sys2Proof

/-- The byte lanes of a word: lane 0 carries bits 7:0, lane 3 bits 31:24 (20_memory.md R43). -/
def lanesOfWord (w : Word) : List Byte :=
  [w.extractLsb' 0 8, w.extractLsb' 8 8, w.extractLsb' 16 8, w.extractLsb' 24 8]

/-- The word that four byte lanes carry; no word for any other number of lanes (20_memory.md R43, R44). -/
def wordOfLanes : List Byte → Option Word
  | [b0, b1, b2, b3] =>
    some (BitVec.ofNat 32 (b0.toNat + 2 ^ 8 * b1.toNat + 2 ^ 16 * b2.toNat + 2 ^ 24 * b3.toNat))
  | _ => none

/-- Why bytes are no legal command (30_encoding.md R60, R61). Which of several reasons is named is the
model's choice; the outcome is ILLEGAL_COMMAND for each (log 15). -/
inductive DecodeError where
  /-- The bytes are not exactly one 32-bit word (30_encoding.md R55). -/
  | notOneWord
  /-- RSV is not zero. -/
  | reservedBits
  /-- OP is not in the table. -/
  | reservedOpcode
  /-- CH is 00 or outside the row's CH set. -/
  | channelNotInRow
  /-- U is outside the row's U set. -/
  | unitNotInRow
deriving DecidableEq, Repr

/-- The fields of a word: OP [7:0], U [9:8], CH [11:10], RSV [31:12] (30_encoding.md R55). -/
def fieldsOf (w : Word) : Fields :=
  ⟨w.extractLsb' 0 8, w.extractLsb' 8 2, w.extractLsb' 10 2, w.extractLsb' 12 20⟩

/-- The word with the given fields (30_encoding.md R55). -/
def wordOfFields (f : Fields) : Word :=
  BitVec.ofNat 32 (f.op.toNat + 2 ^ 8 * f.u.toNat + 2 ^ 10 * f.ch.toNat + 2 ^ 12 * f.rsv.toNat)

/-- CH as a single channel: 01 left, 10 right (30_encoding.md R56). -/
def channelOfCode (ch : BitVec 2) : Option Channel :=
  if ch = 1#2 then some .left else if ch = 2#2 then some .right else none

/-- CH as a channel selection: 01, 10, or 11 for both (30_encoding.md R56). -/
def chSelOfCode (ch : BitVec 2) : Option ChSel :=
  if ch = 1#2 then some (.one .left) else if ch = 2#2 then some (.one .right)
  else if ch = 3#2 then some .both else none

/-- U as the index of a delay line or an LFO; U = 3 is none (30_encoding.md R57). -/
def tapOfCode (u : BitVec 2) : Option Tap :=
  if u = 0#2 then some .tap0 else if u = 1#2 then some .tap1
  else if u = 2#2 then some .tap2 else none

/-- U as the buffer of MEM_PEEK (30_encoding.md R57). -/
def peekUnitOfCode (u : BitVec 2) : PeekUnit :=
  match tapOfCode u with
  | some k => .dl k
  | none => .fb

/-- Rows with CH set 01, 10 and U set 0, 1, 2 (30_encoding.md R59). -/
def decodeChannelTap (f : Fields) (mk : Channel → Tap → Instr) : Except DecodeError Instr :=
  match channelOfCode f.ch, tapOfCode f.u with
  | some c, some k => .ok (mk c k)
  | none, _ => .error .channelNotInRow
  | some _, none => .error .unitNotInRow

/-- Rows with CH set 01, 10 and U set 0 (30_encoding.md R59). -/
def decodeChannel (f : Fields) (mk : Channel → Instr) : Except DecodeError Instr :=
  match channelOfCode f.ch with
  | some c => if f.u = 0#2 then .ok (mk c) else .error .unitNotInRow
  | none => .error .channelNotInRow

/-- Rows with CH set 01, 10, 11 and U set 0 (30_encoding.md R59). -/
def decodeChSel (f : Fields) (mk : ChSel → Instr) : Except DecodeError Instr :=
  match chSelOfCode f.ch with
  | some sel => if f.u = 0#2 then .ok (mk sel) else .error .unitNotInRow
  | none => .error .channelNotInRow

/-- The command the fields stand for (30_encoding.md R59, R60). -/
def decodeFields (f : Fields) : Except DecodeError Instr :=
  if f.rsv ≠ 0#20 then .error .reservedBits
  else if f.op = 0x00#8 then decodeChSel f .nop
  else if f.op = 0x01#8 then decodeChannelTap f .dlInit
  else if f.op = 0x02#8 then decodeChannelTap f .dlResize
  else if f.op = 0x03#8 then decodeChannelTap f .dlProcess
  else if f.op = 0x10#8 then decodeChannelTap f .lfoInit
  else if f.op = 0x11#8 then decodeChannelTap f .lfoValue
  else if f.op = 0x12#8 then decodeChannelTap f .lfoAdvance
  else if f.op = 0x13#8 then decodeChannelTap f .lfoSetRate
  else if f.op = 0x20#8 then decodeChannel f .fbResize
  else if f.op = 0x21#8 then decodeChannel f .fbRead
  else if f.op = 0x22#8 then decodeChannel f .fbPush
  else if f.op = 0x30#8 then decodeChSel f .engSetSampleRate
  else if f.op = 0x31#8 then decodeChannel f .engProcess
  else if f.op = 0x32#8 then
    if f.ch ≠ 3#2 then .error .channelNotInRow
    else if f.u ≠ 0#2 then .error .unitNotInRow
    else .ok .stProcess
  else if f.op = 0x40#8 then decodeChSel f .csrRead
  else if f.op = 0x41#8 then decodeChSel f .csrWrite
  else if f.op = 0x42#8 then
    match channelOfCode f.ch with
    | some c => .ok (.memPeek c (peekUnitOfCode f.u))
    | none => .error .channelNotInRow
  else .error .reservedOpcode

/-- Decoding is total: every word is one command or illegal (30_encoding.md R60). -/
def decode (w : Word) : Except DecodeError Instr :=
  decodeFields (fieldsOf w)

/-- The command that bytes carry, in the byte lanes of 20_memory.md R43. -/
def decodeBytes (bytes : List Byte) : Except DecodeError Instr :=
  match wordOfLanes bytes with
  | some w => decode w
  | none => .error .notOneWord

/-- The instruction read from the `nbits` low bits of `w`, the bits above them zero: the word is laid
out in its byte lanes and given to the decoder. -/
def decodeTableWord (nbits w : Nat) : Option Instr :=
  (decodeBytes (lanesOfWord (BitVec.ofNat 32 (w % 2 ^ nbits)))).toOption

/-- The CH code of a channel (30_encoding.md R56). -/
def Channel.code : Channel → BitVec 2
  | .left => 1#2
  | .right => 2#2

/-- The CH code of a selection (30_encoding.md R56). -/
def ChSel.code : ChSel → BitVec 2
  | .one c => c.code
  | .both => 3#2

/-- The U code of a unit (30_encoding.md R57). -/
def Tap.code : Tap → BitVec 2
  | .tap0 => 0#2
  | .tap1 => 1#2
  | .tap2 => 2#2

/-- The U code of MEM_PEEK's buffer (30_encoding.md R57). -/
def PeekUnit.code : PeekUnit → BitVec 2
  | .dl k => k.code
  | .fb => 3#2

/-- The fields of a command's word (30_encoding.md R59). -/
def encodeFields : Instr → Fields
  | .nop sel => ⟨0x00#8, 0#2, sel.code, 0#20⟩
  | .dlInit c k => ⟨0x01#8, k.code, c.code, 0#20⟩
  | .dlResize c k => ⟨0x02#8, k.code, c.code, 0#20⟩
  | .dlProcess c k => ⟨0x03#8, k.code, c.code, 0#20⟩
  | .lfoInit c k => ⟨0x10#8, k.code, c.code, 0#20⟩
  | .lfoValue c k => ⟨0x11#8, k.code, c.code, 0#20⟩
  | .lfoAdvance c k => ⟨0x12#8, k.code, c.code, 0#20⟩
  | .lfoSetRate c k => ⟨0x13#8, k.code, c.code, 0#20⟩
  | .fbResize c => ⟨0x20#8, 0#2, c.code, 0#20⟩
  | .fbRead c => ⟨0x21#8, 0#2, c.code, 0#20⟩
  | .fbPush c => ⟨0x22#8, 0#2, c.code, 0#20⟩
  | .engSetSampleRate sel => ⟨0x30#8, 0#2, sel.code, 0#20⟩
  | .engProcess c => ⟨0x31#8, 0#2, c.code, 0#20⟩
  | .stProcess => ⟨0x32#8, 0#2, 3#2, 0#20⟩
  | .csrRead sel => ⟨0x40#8, 0#2, sel.code, 0#20⟩
  | .csrWrite sel => ⟨0x41#8, 0#2, sel.code, 0#20⟩
  | .memPeek c u => ⟨0x42#8, u.code, c.code, 0#20⟩

/-- The command word of a command (30_encoding.md R59). -/
def encode (i : Instr) : Word :=
  wordOfFields (encodeFields i)

end Sys2Proof
end

