-- ==== Sys2Proof/Machine/Float.lean ====
section
/-! DEFINITION. The binary32 primitives of 00_scope.md R12 to R18. A binary32 value is the word that
holds it (R12: `f32` and `bits` only change the reading). Every finite value is a whole number of
units of 2^-149; operations compute exactly in that unit and round once (R14). The IEEE 754 rules
that R14 points to are not in the spec: log 10. -/

namespace Sys2Proof.Machine

/-- A word read as a binary32 value (00_scope.md R12). -/
abbrev F32 := Word

/-- +0.0. -/
def f32Zero : F32 := 0x00000000#32

/-- -0.0. -/
def f32NegZero : F32 := 0x80000000#32

/-- 1.0. -/
def f32One : F32 := 0x3F800000#32

/-- The literal 2.0 of 44_engine.md R104, R105. -/
def f32Two : F32 := 0x40000000#32

/-- The literal 3.0 of 44_engine.md R108. -/
def f32Three : F32 := 0x40400000#32

/-- The literal 1000.0 of 44_engine.md R102, R104. -/
def f32Thousand : F32 := 0x447A0000#32

/-- `f32(0x3F7FBE77)`, the feedback bound of 10_state.md R29. -/
def f32FeedbackMax : F32 := 0x3F7FBE77#32

/-- The canonical NaN, the only NaN arithmetic gives (00_scope.md R14). -/
def canonicalNaN : F32 := 0x7FC00000#32

/-- The sign, bit 31 (00_scope.md R12). -/
def f32Neg (a : F32) : Bool := a.msb

/-- Bits 30:0: the exponent field above the fraction (00_scope.md R12). -/
def f32Mag (a : F32) : Nat := a.toNat % 2 ^ 31

/-- The magnitude bits of an infinity: exponent all ones, fraction zero. -/
def infMag : Nat := 0x7F800000

/-- The value is a NaN: exponent all ones, fraction not zero. -/
def isNaN (a : F32) : Bool := decide (infMag < f32Mag a)

/-- The value is an infinity. -/
def isInf (a : F32) : Bool := decide (f32Mag a = infMag)

/-- `isFinite` (00_scope.md R15): neither infinite nor NaN. -/
def isFinite (a : F32) : Bool := decide (f32Mag a < infMag)

/-- The value is +0.0 or -0.0. -/
def isZero (a : F32) : Bool := decide (f32Mag a = 0)

/-- The word with a sign and magnitude bits. -/
def ofSignMag (neg : Bool) (mag : Nat) : F32 :=
  BitVec.ofNat 32 (mag + if neg then 2 ^ 31 else 0)

/-- The magnitude of a finite value in units of 2^-149: the fraction alone for a subnormal, with the
implicit bit and scaled by the exponent otherwise (00_scope.md R12, R14). -/
def scaledMag (a : F32) : Nat :=
  let e := f32Mag a / 2 ^ 23
  let m := f32Mag a % 2 ^ 23
  if e = 0 then m else (2 ^ 23 + m) * 2 ^ (e - 1)

/-- A finite value in units of 2^-149, exactly. -/
def scaled (a : F32) : Int :=
  if f32Neg a then -(scaledMag a : Int) else scaledMag a

/-- The number of units of 2^-149 in 1. -/
def unitsPerOne : Nat := 2 ^ 149

/-- The magnitude bits of `num / den` units of 2^-149 rounded to nearest, ties to even; a magnitude
past the largest finite one gives an infinity's (00_scope.md R14). -/
def roundMag (num den : Nat) : Nat :=
  let shift := Nat.log2 (num / den) - 23
  let d := den * 2 ^ shift
  let m := num / d
  let r := num % d
  let m' := if d < 2 * r ∨ (2 * r = d ∧ m % 2 = 1) then m + 1 else m
  min (shift * 2 ^ 23 + m') infMag

/-- A whole number of units of 2^-149 rounded to binary32; `zeroNeg` is the sign of a zero. -/
def roundUnits (zeroNeg : Bool) (n : Int) : F32 :=
  if n = 0 then ofSignMag zeroNeg 0 else ofSignMag (decide (n < 0)) (roundMag n.natAbs 1)

/-- `fadd` (00_scope.md R14): an exact sum of zero is +0.0, except that -0.0 + -0.0 is -0.0. -/
def fadd (a b : F32) : F32 :=
  if isNaN a || isNaN b then canonicalNaN
  else if isInf a then
    if isInf b && (f32Neg a != f32Neg b) then canonicalNaN else a
  else if isInf b then b
  else roundUnits (f32Neg a && f32Neg b) (scaled a + scaled b)

/-- `fmul` (00_scope.md R14). -/
def fmul (a b : F32) : F32 :=
  let neg := f32Neg a != f32Neg b
  if isNaN a || isNaN b then canonicalNaN
  else if isInf a || isInf b then
    if isZero a || isZero b then canonicalNaN else ofSignMag neg infMag
  else ofSignMag neg (roundMag (scaledMag a * scaledMag b) unitsPerOne)

/-- `fdiv` (00_scope.md R14). -/
def fdiv (a b : F32) : F32 :=
  let neg := f32Neg a != f32Neg b
  if isNaN a || isNaN b then canonicalNaN
  else if isInf a then
    if isInf b then canonicalNaN else ofSignMag neg infMag
  else if isInf b then ofSignMag neg 0
  else if isZero b then
    if isZero a then canonicalNaN else ofSignMag neg infMag
  else ofSignMag neg (roundMag (scaledMag a * unitsPerOne) (scaledMag b))

/-- The order of the values that are not NaN, -0.0 beside +0.0, as an integer. -/
def orderKey (a : F32) : Int :=
  if f32Neg a then -(f32Mag a : Int) else f32Mag a

/-- `a < b`, false with a NaN operand (00_scope.md R15). -/
def flt (a b : F32) : Bool :=
  !isNaN a && !isNaN b && decide (orderKey a < orderKey b)

/-- `a <= b`, false with a NaN operand (00_scope.md R15). -/
def fle (a b : F32) : Bool :=
  !isNaN a && !isNaN b && decide (orderKey a ≤ orderKey b)

/-- `fmin(a, b)` is `a` if `a <= b`, otherwise `b` (00_scope.md R15). -/
def fmin (a b : F32) : F32 := if fle a b then a else b

/-- `roundHA` (00_scope.md R16): nearest integer of a finite value, ties away from zero,
`sign(v) * floor(|v| + 1/2)`. On a word that is not finite it means nothing (log 13). -/
def roundHA (a : F32) : Int :=
  let n : Int := ((2 * scaledMag a + unitsPerOne) / (2 * unitsPerOne) : Nat)
  if f32Neg a then -n else n

/-- `fmod1` (00_scope.md R17): `p - floor(p)` of a finite value `p >= 0`, which is exact. R17 leaves every other
word open: on a finite value below 0 this is the Euclidean remainder, rounded to binary32, a DESIGN CHOICE
that no run reaches, and on a word that is not finite it means nothing (log 13). -/
def fmod1 (p : F32) : F32 :=
  roundUnits false (scaled p % (unitsPerOne : Int))

/-- `i2f` (00_scope.md R18): an integer rounded to binary32. R18 leaves the sign of the zero for `n = 0` open:
+0.0, PRESUMED (log 10); no state depends on it. -/
def i2f (n : Int) : F32 :=
  roundUnits false (n * (unitsPerOne : Int))

/-- `ceilInt` (00_scope.md R18): the least integer not below a finite value. On a word that is not
finite it means nothing (log 13). -/
def ceilInt (a : F32) : Int :=
  -((-scaled a) / (unitsPerOne : Int))

/-- `sat32` (00_scope.md R12): `min(n, 2^32 - 1)` of an integer `n >= 0`, as a word. R12 leaves a negative
integer open: this gives 0, a DESIGN CHOICE that no run reaches (log 13). -/
def sat32 (n : Int) : Word :=
  BitVec.ofNat 32 (min n.toNat (2 ^ 32 - 1))

/-- The binary32 value nearest to `digits * 10^exp10`, ties to even, with a sign: the decimal literals
of 30_encoding.md R62. -/
def ofDecimal (neg : Bool) (digits : Nat) (exp10 : Int) : F32 :=
  if 0 ≤ exp10 then ofSignMag neg (roundMag (digits * 10 ^ exp10.toNat * unitsPerOne) 1)
  else ofSignMag neg (roundMag (digits * unitsPerOne) (10 ^ (-exp10).toNat))

end Sys2Proof.Machine
end

