-- ==== Sys2Proof/Config.lean ====
section
/-! DEFINITION. The implementation parameters of 00_scope.md R6 to R10 and 20_memory.md R45. Each rests on
an opaque constant without a body, so that nothing can be proved of its value but what the spec's
constraint gives; each is shaped so that it takes exactly the values the spec admits (logs 3, 7, 8, 9). -/

namespace Sys2Proof.Config

open Sys2Proof.Machine

/-- The free choice behind MAX_CAPACITY. -/
opaque maxCapacityDraw : Nat

/-- MAX_CAPACITY: any number from 1 to 2^32 - 1 (00_scope.md R6). -/
def maxCapacity : Nat := maxCapacityDraw % (2 ^ 32 - 1) + 1

/-- The free choice behind DEFAULT_CAPACITY. -/
opaque defaultCapacityDraw : Nat

/-- DEFAULT_CAPACITY: any number from 1 to MAX_CAPACITY (00_scope.md R7). -/
def defaultCapacity : Nat := defaultCapacityDraw % maxCapacity + 1

/-- The free choice behind PLACEHOLDER_SR. -/
opaque placeholderSrDraw : Word

/-- The values 00_scope.md R8 admits for PLACEHOLDER_SR. -/
def placeholderAdmissible (v : F32) : Bool :=
  isFinite v && flt f32Zero v && decide (ceilInt v ≤ (maxCapacity : Int))

/-- PLACEHOLDER_SR: any finite value above 0 whose ceiling is at most MAX_CAPACITY (00_scope.md R8). A draw
that is not admissible stands for 0.5, which always is. -/
def placeholderSr : F32 :=
  if placeholderAdmissible placeholderSrDraw then placeholderSrDraw else 0x3F000000#32

/-- The free choice behind PHASE_INIT: one draw for each reset, channel and tap. -/
opaque phaseInitDraw : Nat → Channel → Tap → Word

/-- The values 00_scope.md R9 admits for PHASE_INIT: from +0.0 up to but not including 1.0, never -0.0. -/
def phaseAdmissible (v : F32) : Bool :=
  fle f32Zero v && flt v f32One && !f32Neg v

/-- PHASE_INIT[c][k] as reset number `n` samples it (00_scope.md R9, 70_reset_and_hazards.md R151). A draw
that is not admissible stands for +0.0, which is. -/
def phaseInit (n : Nat) (c : Channel) (k : Tap) : F32 :=
  if phaseAdmissible (phaseInitDraw n c k) then phaseInitDraw n c k else f32Zero

/-- The free choice behind SIN2PI. -/
opaque sin2piDraw : Word → Word

/-- SIN2PI: any total function with the properties S1 to S5 (00_scope.md R10). S2 to S5 fix four values;
on the other phases of [0, 1) a draw outside [-1.0, 1.0] stands for +0.0, which is inside. -/
def sin2pi (p : F32) : F32 :=
  if p = f32Zero then f32Zero
  else if p = 0x3E800000#32 then f32One
  else if p = 0x3F000000#32 then f32Zero
  else if p = 0x3F400000#32 then 0xBF800000#32
  else if fle f32Zero p && flt p f32One then
    if fle 0xBF800000#32 (sin2piDraw p) && fle (sin2piDraw p) f32One then sin2piDraw p else f32Zero
  else sin2piDraw p

/-- HOST_BASE: where the platform puts the host window (20_memory.md R45). -/
opaque hostBase : Nat

end Sys2Proof.Config
end

