-- ==== Sys2Proof/Machine/State.lean ====
section
/-! DEFINITION. The state of the block (10_state.md), the host's side of its bus, the reasons a step can
stop, and the state after reset (10_state.md R33). -/

namespace Sys2Proof.Machine

/-- The words of one sample buffer (20_memory.md R40): (index, word) pairs, indices strictly rising, no
word 0x00000000. An index that is not listed reads 0x00000000, the reset contents (20_memory.md R42; log 11). -/
abbrev Memory := List (Nat × Word)

/-- The unit of a delay line or of the feedback buffer (10_state.md R25, R26): capacity, write cursor,
words. -/
structure Ring where
  cap : Nat
  wc : Nat
  buf : Memory
deriving DecidableEq, Repr

/-- An LFO unit (10_state.md R35). The rate is a value or unset (R30); `rate_valid` is read off it
(log 14). -/
structure Lfo where
  phase : F32
  rate : Option F32
  sr : F32
deriving DecidableEq, Repr

/-- Three like units, one for each tap (00_scope.md R3). -/
structure Taps (α : Type) where
  tap0 : α
  tap1 : α
  tap2 : α
deriving DecidableEq, Repr

/-- A parameter register of a channel (10_state.md R24, R28). -/
inductive Param where
  | delayMs
  | depthMs
  | rateHz
  | feedback
  | wet
  | dry
deriving DecidableEq, Repr

/-- The parameter snapshot of a channel (10_state.md R24): each a value or unset (R30). -/
structure Params where
  delayMs : Option F32
  depthMs : Option F32
  rateHz : Option F32
  feedback : Option F32
  wet : Option F32
  dry : Option F32
deriving DecidableEq, Repr

/-- The state of one channel engine (10_state.md R24). -/
structure ChannelState where
  sampleRate : F32
  sized : Bool
  params : Params
  dl : Taps Ring
  fb : Ring
  lfo : Taps Lfo
deriving DecidableEq, Repr

/-- What the outside does to the block, one at a time and between commands (20_memory.md R46, R48): a
write of byte lanes or a read of a number of bytes at an offset of the host window, or the reset input
(70_reset_and_hazards.md R150). Any offset and any width may be tried; R44 says which have a step. -/
inductive HostEvent where
  | write (offset : Nat) (lanes : List Byte)
  | read (offset : Nat) (bytes : Nat)
  | reset
deriving DecidableEq, Repr

/-- The host's side of the bus. These fields are the model's own: what the host will do next, in order
(10_state.md R21; log 1), the lanes its last read returned (log 5), and how many resets have been sampled
since power-on (70_reset_and_hazards.md R151; log 9). -/
structure HostPort where
  pending : List HostEvent
  readData : List Byte
  resets : Nat
deriving DecidableEq, Repr

/-- The state of the machine: the host registers (10_state.md R22), the fault registers (R27), the two
channels (R24), and the host's side of the bus. -/
structure State where
  cmd : Word
  opa : Word
  opb : Word
  opc : Word
  res0 : Word
  res1 : Word
  faultCause : Word
  faultInfo : Word
  faultCmd : Word
  faultCh : BitVec 2
  faultUnit : BitVec 2
  left : ChannelState
  right : ChannelState
  host : HostPort
deriving DecidableEq, Repr

/-- Why the model stops with a fault. The faults of the spec are not here: they are recorded in the
state and the machine goes on halted (60_exceptions.md R130, R132). -/
inductive Fault where
  /-- Raised by DL_PROCESS, FB_READ, FB_PUSH, ENG_PROCESS and ST_PROCESS when a buffer they access has a
  write cursor that is not below its capacity: the access would be at an index the spec says does not
  exist (20_memory.md R40, R44). No state that meets the invariants of 10_state.md R34 does so. Safe: the
  model stops where the spec gives no such state (log 12). -/
  | cursorOutsideBuffer
deriving DecidableEq, Repr

/-- Why the model has no step: the host accesses of 20_memory.md R44 and 93_implementation_defined.md I16.
Each is safe: a claim about a host that makes such an access cannot be proved (log 4). -/
inductive Refusal where
  /-- An instruction without a meaning, by its mnemonic. Raised by no arm of this model. Safe. -/
  | notModelled (mnemonic : String)
  /-- Raised by a host access that is narrower or wider than 32 bits. Safe. -/
  | accessWidth
  /-- Raised by a host access at an offset that is not a multiple of 4. Safe. -/
  | accessAlignment
  /-- Raised by a host access at an offset that 20_memory.md R45 does not list. Safe. -/
  | accessOffset
  /-- Raised by a host write to RES0, RES1 or HSTATUS. Safe. -/
  | writeReadOnly
deriving DecidableEq, Repr

/-- A buffer at reset: DEFAULT_CAPACITY words of +0.0, cursor 0 (10_state.md R33). -/
def Ring.reset : Ring := ⟨Config.defaultCapacity, 0, []⟩

/-- An LFO at reset (10_state.md R33): the sampled phase, the rate unset, the placeholder sample rate. -/
def Lfo.reset (phase : F32) : Lfo := ⟨phase, none, Config.placeholderSr⟩

/-- A channel at reset (10_state.md R33) with the sampled phases. -/
def ChannelState.reset (phases : Tap → F32) : ChannelState where
  sampleRate := Config.placeholderSr
  sized := false
  params := ⟨none, none, none, none, none, none⟩
  dl := ⟨Ring.reset, Ring.reset, Ring.reset⟩
  fb := Ring.reset
  lfo := ⟨Lfo.reset (phases .tap0), Lfo.reset (phases .tap1), Lfo.reset (phases .tap2)⟩

/-- The reset transition's result (10_state.md R33, 70_reset_and_hazards.md R150, R151): every piece of the
block's state, with the six sampled phases as its argument. -/
def State.resetWith (phases : Channel → Tap → F32) (host : HostPort) : State where
  cmd := 0#32
  opa := 0#32
  opb := 0#32
  opc := 0#32
  res0 := 0#32
  res1 := 0#32
  faultCause := 0#32
  faultInfo := 0#32
  faultCmd := 0#32
  faultCh := 0#2
  faultUnit := 0#2
  left := ChannelState.reset (phases .left)
  right := ChannelState.reset (phases .right)
  host := host

/-- The machine right after power-on (70_reset_and_hazards.md R150): reset number 0, and a host that has
not acted yet. -/
def State.reset : State := State.resetWith (Config.phaseInit 0) ⟨[], [], 0⟩

end Sys2Proof.Machine
end

