-- ==== Sys2Proof/Machine/Operands.lean ====
section
/-! DEFINITION. How a command reads its operand registers (30_encoding.md R58), and the numbers of the
control and status registers (10_state.md R27, R28). -/

namespace Sys2Proof.Machine

/-- A u32 operand: an unsigned integer from 0 to 2^32 - 1 (30_encoding.md R58). -/
def opU32 (w : Word) : Nat := w.toNat

/-- An f32 operand: the word read as a binary32 value (30_encoding.md R58, 00_scope.md R12). -/
def opF32 (w : Word) : F32 := w

/-- A word operand: the 32 bits unchanged (30_encoding.md R58). -/
def opWord (w : Word) : Word := w

/-- A csr operand: the register number in bits 11:0, none where bits 31:12 are not zero
(30_encoding.md R58). -/
def opCsr (w : Word) : Option Nat :=
  if w.extractLsb' 12 20 = 0#20 then some (w.extractLsb' 0 12).toNat else none

/-- A global register (10_state.md R27). -/
inductive GlobalCsr where
  | id
  | status
  | faultCause
  | faultInfo
  | faultCmd
  | faultCh
  | faultUnit
  | maxCap
deriving DecidableEq, Repr

/-- A per-channel register (10_state.md R28). -/
inductive ChannelCsr where
  | sampleRate
  | sized
  | paramValid
  | lfoRateValid
  | param (p : Param)
  | dlCap (k : Tap)
  | fbCap
  | dlWc (k : Tap)
  | fbWc
  | lfoPhase (k : Tap)
  | lfoRate (k : Tap)
  | lfoSr (k : Tap)
deriving DecidableEq, Repr

/-- The numbers of the global registers (10_state.md R27). -/
def globalCsrTable : List (Nat × GlobalCsr) :=
  [(0x000, .id), (0x001, .status), (0x002, .faultCause), (0x003, .faultInfo), (0x004, .faultCmd),
    (0x005, .faultCh), (0x006, .faultUnit), (0x007, .maxCap)]

/-- The numbers of the six read-write registers (10_state.md R28). -/
def paramCsrTable : List (Nat × Param) :=
  [(0x014, .delayMs), (0x015, .depthMs), (0x016, .rateHz), (0x017, .feedback), (0x018, .wet), (0x019, .dry)]

/-- The numbers of the per-channel registers that are read only (10_state.md R28). -/
def channelRoCsrTable : List (Nat × ChannelCsr) :=
  [(0x010, .sampleRate), (0x011, .sized), (0x012, .paramValid), (0x013, .lfoRateValid),
    (0x020, .dlCap .tap0), (0x021, .dlCap .tap1), (0x022, .dlCap .tap2), (0x023, .fbCap),
    (0x024, .dlWc .tap0), (0x025, .dlWc .tap1), (0x026, .dlWc .tap2), (0x027, .fbWc),
    (0x030, .lfoPhase .tap0), (0x031, .lfoPhase .tap1), (0x032, .lfoPhase .tap2),
    (0x034, .lfoRate .tap0), (0x035, .lfoRate .tap1), (0x036, .lfoRate .tap2),
    (0x038, .lfoSr .tap0), (0x039, .lfoSr .tap1), (0x03A, .lfoSr .tap2)]

/-- `isGlobal(n)` of 45_control.md, with the register. -/
def globalCsr (n : Nat) : Option GlobalCsr := globalCsrTable.lookup n

/-- `isRW(n)` of 45_control.md, with the parameter. -/
def paramCsr (n : Nat) : Option Param := paramCsrTable.lookup n

/-- `isChannel(n)` of 45_control.md, with the register. -/
def channelCsr (n : Nat) : Option ChannelCsr :=
  match paramCsr n with
  | some p => some (.param p)
  | none => channelRoCsrTable.lookup n

/-- `legal(n, v)` of 45_control.md: the values a parameter register may take (10_state.md R29). -/
def paramLegal (p : Param) (v : F32) : Bool :=
  match p with
  | .delayMs => isFinite v && flt f32Zero v
  | .depthMs => isFinite v && fle f32Zero v
  | .rateHz => isFinite v && flt f32Zero v
  | .feedback => fle f32Zero v && fle v f32FeedbackMax
  | .wet => fle f32Zero v && fle v f32One
  | .dry => fle f32Zero v && fle v f32One

/-- A sample rate or an LFO rate is legal when it is finite and above 0 (42_lfo.md R82, R85, 44_engine.md
R100). -/
def positiveFinite (v : F32) : Bool := isFinite v && flt f32Zero v

/-- An initial phase is legal when it is finite, at least 0 and below 1.0 (42_lfo.md R82). -/
def phaseLegal (v : F32) : Bool := isFinite v && fle f32Zero v && flt v f32One

end Sys2Proof.Machine
end

