-- ==== Sys2Proof/Machine/Flags.lean ====
section
/-! DEFINITION. The one flag HALTED and the words that pack single bits of the state (10_state.md R27, R28,
R32). The block has no condition codes (R32). -/

namespace Sys2Proof.Machine

/-- STATUS.HALTED: 1 exactly when FAULT_CAUSE is not 0 (10_state.md R32). -/
def halted (s : State) : Bool := s.faultCause != 0#32

/-- A bit as a word whose other bits read 0. -/
def bitWord (b : Bool) : Word := if b then 1#32 else 0#32

/-- STATUS, and HSTATUS, which always equals it (10_state.md R22, R27, R32). -/
def statusWord (s : State) : Word := bitWord (halted s)

/-- SIZED as a register (10_state.md R28). -/
def sizedWord (ch : ChannelState) : Word := bitWord ch.sized

/-- The sum of 2^i over the bits that are set, in list order (44_engine.md R101). -/
def maskOf : List Bool → Nat
  | [] => 0
  | b :: rest => (if b then 1 else 0) + 2 * maskOf rest

/-- The parameters in PARAM_VALID bit order (10_state.md R28). -/
def paramList (p : Params) : List (Option F32) :=
  [p.delayMs, p.depthMs, p.rateHz, p.feedback, p.wet, p.dry]

/-- PARAM_VALID: a bit is set when the parameter is (10_state.md R28). -/
def paramValidWord (p : Params) : Word :=
  BitVec.ofNat 32 (maskOf ((paramList p).map Option.isSome))

/-- The mask of unset parameters, in PARAM_VALID bit order (44_engine.md R101). -/
def paramUnsetWord (p : Params) : Word :=
  BitVec.ofNat 32 (maskOf ((paramList p).map Option.isNone))

/-- LFO_RATE_VALID: bit k is `LFO[k].rate_valid` (10_state.md R28, R35). -/
def lfoRateValidWord (l : Taps Lfo) : Word :=
  BitVec.ofNat 32 (maskOf [l.tap0.rate.isSome, l.tap1.rate.isSome, l.tap2.rate.isSome])

end Sys2Proof.Machine
end

