-- ==== Sys2Proof/Machine/Ops.lean ====
section
/-! DEFINITION. The named operations of the block: buffer words, units, channels, raising and recording a
fault, and how a command's result becomes a step. -/

namespace Sys2Proof.Machine

/-! Buffers -/

/-- `MemRead` (00_scope.md R19): the word at an index; an index that is not listed reads +0.0
(20_memory.md R42). -/
def Memory.read : Memory → Nat → Word
  | [], _ => 0#32
  | (a, v) :: rest, i => if a = i then v else Memory.read rest i

/-- `MemWrite` (00_scope.md R19): the word at an index, kept bit for bit. The list keeps its canonical
form. -/
def Memory.write : Memory → Nat → Word → Memory
  | [], i, v => if v = 0#32 then [] else [(i, v)]
  | (a, u) :: rest, i, v =>
    if a < i then (a, u) :: Memory.write rest i v
    else if a = i then (if v = 0#32 then rest else (i, v) :: rest)
    else if v = 0#32 then (a, u) :: rest
    else (i, v) :: (a, u) :: rest

/-- The words `fill` at the indices 0 .. cap-1 (41_delay_line.md R70). -/
def Memory.filled (cap : Nat) (fill : Word) : Memory :=
  if fill = 0#32 then [] else (List.range cap).map fun i => (i, fill)

/-- The canonical form: indices strictly rising, no word that an unlisted index reads as. -/
abbrev Memory.wf (m : Memory) : Prop :=
  m.Pairwise (fun a b => a.1 < b.1) ∧ ∀ cell ∈ m, cell.2 ≠ 0#32

/-- The write cursor of a unit is below its capacity (10_state.md R25). Where it is not, an access would
be outside the buffer (log 12). -/
def Ring.cursorOk (r : Ring) : Bool := !decide (r.cap ≤ r.wc)

/-- The word written at the cursor, and the cursor advanced circularly: steps 1 and 2 of
41_delay_line.md R73, and `fbPush` of 43_feedback_buffer.md R91. -/
def Ring.push (r : Ring) (x : Word) : Ring :=
  { r with buf := Memory.write r.buf r.wc x, wc := (r.wc + 1) % r.cap }

/-- The word `j` slots behind the cursor, with the Euclidean remainder of 00_scope.md R13: steps 3 and 4
of 41_delay_line.md R73, and `fbRead` of 43_feedback_buffer.md R90. -/
def Ring.lookback (r : Ring) (j : Int) : Word :=
  Memory.read r.buf (((r.wc : Int) - j) % (r.cap : Int)).toNat

/-- `dlStep` (41_delay_line.md R73): write, advance, then read behind the ADVANCED cursor
(90_conflicts.md C1). The caller has checked `0 <= d <= cap - 1`. -/
def dlStep (r : Ring) (x : Word) (d : Int) : Ring × Word :=
  (r.push x, (r.push x).lookback d)

/-- `fbRead` (43_feedback_buffer.md R90). The caller has checked `0 <= j <= cap - 1`. -/
def fbRead (f : Ring) (j : Int) : Word := f.lookback j

/-- `fbPush` (43_feedback_buffer.md R91). -/
def fbPush (f : Ring) (y : Word) : Ring := f.push y

/-! Units and channels -/

/-- The unit of a tap. -/
def Taps.get {α : Type} (t : Taps α) : Tap → α
  | .tap0 => t.tap0
  | .tap1 => t.tap1
  | .tap2 => t.tap2

/-- The units with one of them replaced. -/
def Taps.set {α : Type} (t : Taps α) (k : Tap) (a : α) : Taps α :=
  match k with
  | .tap0 => { t with tap0 := a }
  | .tap1 => { t with tap1 := a }
  | .tap2 => { t with tap2 := a }

/-- One operation on each unit, in the order 0, 1, 2 (30_encoding.md R64). -/
def Taps.map {α β : Type} (f : α → β) (t : Taps α) : Taps β :=
  ⟨f t.tap0, f t.tap1, f t.tap2⟩

/-- The parameter register of a name (10_state.md R28). -/
def Params.get (p : Params) : Param → Option F32
  | .delayMs => p.delayMs
  | .depthMs => p.depthMs
  | .rateHz => p.rateHz
  | .feedback => p.feedback
  | .wet => p.wet
  | .dry => p.dry

/-- The parameters with one of them set (45_control.md R122). -/
def Params.set (p : Params) (q : Param) (v : F32) : Params :=
  match q with
  | .delayMs => { p with delayMs := some v }
  | .depthMs => { p with depthMs := some v }
  | .rateHz => { p with rateHz := some v }
  | .feedback => { p with feedback := some v }
  | .wet => { p with wet := some v }
  | .dry => { p with dry := some v }

/-- The channel state a command addresses, `ch` of 00_scope.md R19. -/
def State.chan (s : State) : Channel → ChannelState
  | .left => s.left
  | .right => s.right

/-- The state with one channel replaced. -/
def State.setChan (s : State) (c : Channel) (ch : ChannelState) : State :=
  match c with
  | .left => { s with left := ch }
  | .right => { s with right := ch }

/-- One operation on each addressed channel (30_encoding.md R56; 44_engine.md R100, 45_control.md R122). -/
def State.onChannels (s : State) (sel : ChSel) (f : ChannelState → ChannelState) : State :=
  match sel with
  | .one c => s.setChan c (f (s.chan c))
  | .both => { s with left := f s.left, right := f s.right }

/-- A result written to RES0 (10_state.md R22, R23). -/
def State.setRes0 (s : State) (w : Word) : State := { s with res0 := w }

/-- A result written to RES1 (10_state.md R22, R23). -/
def State.setRes1 (s : State) (w : Word) : State := { s with res1 := w }

/-- A command word stored in CMD (10_state.md R22). -/
def State.setCmd (s : State) (w : Word) : State := { s with cmd := w }

/-- The host's accesses still to come replaced (log 1). -/
def State.setPending (s : State) (rest : List HostEvent) : State :=
  { s with host := { s.host with pending := rest } }

/-- A channel with one delay line replaced. -/
def ChannelState.setDl (ch : ChannelState) (k : Tap) (r : Ring) : ChannelState :=
  { ch with dl := ch.dl.set k r }

/-- A channel with its feedback buffer replaced. -/
def ChannelState.setFb (ch : ChannelState) (r : Ring) : ChannelState := { ch with fb := r }

/-- A channel with one LFO replaced. -/
def ChannelState.setLfo (ch : ChannelState) (k : Tap) (l : Lfo) : ChannelState :=
  { ch with lfo := ch.lfo.set k l }

/-- A channel with SIZED written (10_state.md R31). -/
def ChannelState.setSized (ch : ChannelState) (b : Bool) : ChannelState := { ch with sized := b }

/-- A channel with one parameter set (45_control.md R122). -/
def ChannelState.setParam (ch : ChannelState) (p : Param) (v : F32) : ChannelState :=
  { ch with params := ch.params.set p v }

/-! Raising, recording and dropping a fault -/

/-- The fault causes (60_exceptions.md R131). -/
inductive Cause where
  | illegalCommand
  | illegalCsr
  | capacity
  | sampleRate
  | paramRange
  | unset
  | unsized
  | delayRange
  | tapRange
  | fbRange
  | indexRange
deriving DecidableEq, Repr

/-- The code of a cause (60_exceptions.md R131). -/
def causeCode : Cause → Word
  | .illegalCommand => 1#32
  | .illegalCsr => 2#32
  | .capacity => 3#32
  | .sampleRate => 4#32
  | .paramRange => 5#32
  | .unset => 6#32
  | .unsized => 7#32
  | .delayRange => 8#32
  | .tapRange => 9#32
  | .fbRange => 10#32
  | .indexRange => 11#32

/-- `raise Fault(CAUSE, info)` (00_scope.md R19), with the channel and the unit that failed where they are
not the fields of the command word (60_exceptions.md R132). -/
structure Raise where
  cause : Cause
  info : Word
  channel : Option (BitVec 2) := none
  unit : Option (BitVec 2) := none
deriving DecidableEq, Repr

/-- Why a command commits nothing: a fault of the block, or a stop of the model (log 12). -/
inductive Abort where
  | raise (r : Raise)
  | stop (f : Fault)
deriving DecidableEq, Repr

/-- A command that ends in `raise`. -/
def raiseFault {α : Type} (cause : Cause) (info : Word) : Except Abort α :=
  .error (.raise { cause := cause, info := info })

/-- TAKING A FAULT (60_exceptions.md R132): the five fault registers are written and nothing else. The
channel code is CH of the command word and the unit code is U of it, unless the raise names another
(R132). HALTED then reads 1, since FAULT_CAUSE is not 0. There is no handler to go to (R130). -/
def takeFault (w : Word) (r : Raise) (s : State) : State :=
  { s with
    faultCause := causeCode r.cause
    faultInfo := r.info
    faultCmd := w
    faultCh := r.channel.getD (w.extractLsb' 10 2)
    faultUnit := r.unit.getD (w.extractLsb' 8 2) }

/-- THE ONLY WAY BACK FROM A FAULT: the reset transition (60_exceptions.md R130, R137; 70_reset_and_hazards.md
R150). The next draw of the six phases is sampled (R151); the host's remaining accesses stay. -/
def applyReset (s : State) : State :=
  State.resetWith (Config.phaseInit (s.host.resets + 1)) { s.host with resets := s.host.resets + 1 }

/-- How the result of a command becomes a step: a command that completes commits its state; a raise is
recorded (60_exceptions.md R132, R133), or dropped while the block is halted (R136). -/
def settle (w : Word) (s : State) : Except Abort State → Host.Outcome State Fault Refusal
  | .ok s' => .next s'
  | .error (.raise r) => if halted s then .next s else .next (takeFault w r s)
  | .error (.stop f) => .fault f

/-- A command that is dropped while the block is halted (60_exceptions.md R134, R135). The word recorded in
FAULT_CMD is the command's encoding (log 6). -/
def runCommand (i : Instr) (s : State) (body : Except Abort State) :
    Host.Outcome State Fault Refusal :=
  if halted s then .next s else settle (encode i) s body

/-- A command that also runs while the block is halted: NOP, CSR_READ, MEM_PEEK (60_exceptions.md R134,
R135; log 6). -/
def runInspection (i : Instr) (s : State) (body : Except Abort State) :
    Host.Outcome State Fault Refusal :=
  settle (encode i) s body

/-- An illegal word: ILLEGAL_COMMAND with the word as FAULT_INFO, dropped while halted (30_encoding.md R60,
60_exceptions.md R131, R134, R135). -/
def illegalCommand (w : Word) (s : State) : Host.Outcome State Fault Refusal :=
  if halted s then .next s else settle w s (raiseFault .illegalCommand w)

/-- `bufAlloc` (41_delay_line.md R70), with MAX_CAPACITY as its first argument: a fresh unit, or CAPACITY. -/
def bufAlloc (maxCap : Nat) (cap : Int) (fill : Word) : Except Abort Ring :=
  if cap < 1 ∨ (maxCap : Int) < cap then raiseFault .capacity (sat32 cap)
  else .ok ⟨cap.toNat, 0, Memory.filled cap.toNat fill⟩

/-- A unit whose cursor is inside its buffer, or the model's stop (log 12). -/
def checkCursor (r : Ring) : Except Abort Unit :=
  if r.cursorOk then .ok () else .error (.stop .cursorOutsideBuffer)

end Sys2Proof.Machine
end

