-- ==== Sys2Proof/Machine/Control.lean ====
section
/-! DEFINITION. The control and inspection family: NOP, CSR_READ, CSR_WRITE, MEM_PEEK (45_control.md). -/

namespace Sys2Proof.Machine

/-- NOP (45_control.md R120): nothing changes. -/
def execNop (sel : ChSel) (s : State) : Host.Outcome State Fault Refusal :=
  runInspection (.nop sel) s (.ok s)

/-- The value of a global register (10_state.md R27). -/
def globalValue (s : State) : GlobalCsr → Word
  | .id => 0x43485231#32
  | .status => statusWord s
  | .faultCause => s.faultCause
  | .faultInfo => s.faultInfo
  | .faultCmd => s.faultCmd
  | .faultCh => s.faultCh.setWidth 32
  | .faultUnit => s.faultUnit.setWidth 32
  | .maxCap => BitVec.ofNat 32 Config.maxCapacity

/-- The value of a per-channel register, none where it is unset (10_state.md R28, R30). -/
def channelValue (ch : ChannelState) : ChannelCsr → Option Word
  | .sampleRate => some ch.sampleRate
  | .sized => some (sizedWord ch)
  | .paramValid => some (paramValidWord ch.params)
  | .lfoRateValid => some (lfoRateValidWord ch.lfo)
  | .param p => ch.params.get p
  | .dlCap k => some (BitVec.ofNat 32 (ch.dl.get k).cap)
  | .fbCap => some (BitVec.ofNat 32 ch.fb.cap)
  | .dlWc k => some (BitVec.ofNat 32 (ch.dl.get k).wc)
  | .fbWc => some (BitVec.ofNat 32 ch.fb.wc)
  | .lfoPhase k => some (ch.lfo.get k).phase
  | .lfoRate k => (ch.lfo.get k).rate
  | .lfoSr k => some (ch.lfo.get k).sr

/-- A per-channel register read through a channel selection: CH = 11 is ILLEGAL_CSR, an unset register is
UNSET (45_control.md R121). -/
def readChannelCsr (sel : ChSel) (r : ChannelCsr) (s : State) : Except Abort State :=
  match sel with
  | .both => raiseFault .illegalCsr s.opa
  | .one c =>
    match channelValue (s.chan c) r with
    | some v => .ok (s.setRes0 v)
    | none => raiseFault .unset s.opa

/-- The checks and the effect of CSR_READ (45_control.md R121). -/
def readCsr (sel : ChSel) (s : State) : Except Abort State :=
  match opCsr s.opa with
  | none => raiseFault .illegalCsr s.opa
  | some n =>
    match globalCsr n with
    | some g => .ok (s.setRes0 (globalValue s g))
    | none =>
      match channelCsr n with
      | some r => readChannelCsr sel r s
      | none => raiseFault .illegalCsr s.opa

/-- CSR_READ (45_control.md R121). -/
def execCsrRead (sel : ChSel) (s : State) : Host.Outcome State Fault Refusal :=
  runInspection (.csrRead sel) s (readCsr sel s)

/-- The checks and the effect of CSR_WRITE (45_control.md R122). -/
def writeCsr (sel : ChSel) (s : State) : Except Abort State :=
  match opCsr s.opa with
  | none => raiseFault .illegalCsr s.opa
  | some n =>
    match paramCsr n with
    | none => raiseFault .illegalCsr s.opa
    | some p =>
      let v := opF32 s.opb
      if paramLegal p v then .ok (s.onChannels sel fun ch => ch.setParam p v)
      else raiseFault .paramRange s.opb

/-- CSR_WRITE (45_control.md R122). -/
def execCsrWrite (sel : ChSel) (s : State) : Host.Outcome State Fault Refusal :=
  runCommand (.csrWrite sel) s (writeCsr sel s)

/-- The buffer MEM_PEEK selects (45_control.md R123). -/
def peekRing (ch : ChannelState) : PeekUnit → Ring
  | .dl k => ch.dl.get k
  | .fb => ch.fb

/-- The check and the effect of MEM_PEEK (45_control.md R123): `i > cap - 1` raises INDEX_RANGE. -/
def peekMem (c : Channel) (u : PeekUnit) (s : State) : Except Abort State :=
  let r := peekRing (s.chan c) u
  let i := opU32 s.opa
  if r.cap ≤ i then raiseFault .indexRange s.opa
  else .ok (s.setRes0 (Memory.read r.buf i))

/-- MEM_PEEK (45_control.md R123). -/
def execMemPeek (c : Channel) (u : PeekUnit) (s : State) : Host.Outcome State Fault Refusal :=
  runInspection (.memPeek c u) s (peekMem c u s)

end Sys2Proof.Machine
end

