-- ==== Sys2Proof/Machine/DelayLine.lean ====
section
/-! DEFINITION. The delay line family: DL_INIT, DL_RESIZE, DL_PROCESS (41_delay_line.md). -/

namespace Sys2Proof.Machine

/-- A delay line replaced by a fresh buffer of `u32(OPA)` words, and SIZED cleared (41_delay_line.md R71,
R72; 10_state.md R31). -/
def reallocDl (c : Channel) (k : Tap) (fill : Word) (s : State) : Except Abort State :=
  match bufAlloc Config.maxCapacity (opU32 s.opa) fill with
  | .error e => .error e
  | .ok r => .ok (s.setChan c (((s.chan c).setDl k r).setSized false))

/-- DL_INIT (41_delay_line.md R71): the fill word is OPB; OPC is not read. -/
def execDlInit (c : Channel) (k : Tap) (s : State) : Host.Outcome State Fault Refusal :=
  runCommand (.dlInit c k) s (reallocDl c k (opWord s.opb) s)

/-- DL_RESIZE (41_delay_line.md R72): the fill word is +0.0. -/
def execDlResize (c : Channel) (k : Tap) (s : State) : Host.Outcome State Fault Refusal :=
  runCommand (.dlResize c k) s (reallocDl c k 0#32 s)

/-- The check and the effect of DL_PROCESS (41_delay_line.md R74): `d > cap - 1` raises DELAY_RANGE. -/
def processDl (c : Channel) (k : Tap) (s : State) : Except Abort State :=
  let r := (s.chan c).dl.get k
  let d := opU32 s.opb
  if r.cap ≤ d then raiseFault .delayRange s.opb
  else
    match checkCursor r with
    | .error e => .error e
    | .ok _ =>
      let (r', out) := dlStep r (opWord s.opa) d
      .ok ((s.setChan c ((s.chan c).setDl k r')).setRes0 out)

/-- DL_PROCESS (41_delay_line.md R74). -/
def execDlProcess (c : Channel) (k : Tap) (s : State) : Host.Outcome State Fault Refusal :=
  runCommand (.dlProcess c k) s (processDl c k s)

end Sys2Proof.Machine
end

