-- ==== Sys2Proof/Machine/Oscillator.lean ====
section
/-! DEFINITION. The LFO family: LFO_INIT, LFO_VALUE, LFO_ADVANCE, LFO_SET_RATE (42_lfo.md). -/

namespace Sys2Proof.Machine

/-- `lfoValue` (42_lfo.md R80): SIN2PI of the phase. -/
def lfoValue (l : Lfo) : F32 := Config.sin2pi l.phase

/-- The sum `p` of 42_lfo.md R81, before the wrap: divide first, then add. -/
def advancedPhase (l : Lfo) (rate : F32) : F32 := fadd l.phase (fdiv rate l.sr)

/-- An LFO whose phase is the wrapped sum (42_lfo.md R81). The caller has checked that the sum is finite. -/
def lfoStep (l : Lfo) (rate : F32) : Lfo := { l with phase := fmod1 (advancedPhase l rate) }

/-- `lfoAdvance` (42_lfo.md R81) behind the check of R84: UNSET without a rate, PARAM_RANGE where the sum is
not finite. -/
def lfoAdvance (l : Lfo) : Except Abort Lfo :=
  match l.rate with
  | none => raiseFault .unset 0#32
  | some rate =>
    if isFinite (advancedPhase l rate) then .ok (lfoStep l rate) else raiseFault .paramRange rate

/-- The checks and the effect of LFO_INIT (42_lfo.md R82), in the order written; -0.0 is stored as +0.0. -/
def initLfo (c : Channel) (k : Tap) (s : State) : Except Abort State :=
  let sr := opF32 s.opa
  let rate := opF32 s.opb
  let phase := opF32 s.opc
  if !positiveFinite sr then raiseFault .sampleRate s.opa
  else if !positiveFinite rate then raiseFault .paramRange s.opb
  else if !phaseLegal phase then raiseFault .paramRange s.opc
  else
    let p := if phase = f32NegZero then f32Zero else phase
    .ok (s.setChan c ((s.chan c).setLfo k ⟨p, some rate, sr⟩))

/-- LFO_INIT (42_lfo.md R82). -/
def execLfoInit (c : Channel) (k : Tap) (s : State) : Host.Outcome State Fault Refusal :=
  runCommand (.lfoInit c k) s (initLfo c k s)

/-- LFO_VALUE (42_lfo.md R83). -/
def execLfoValue (c : Channel) (k : Tap) (s : State) : Host.Outcome State Fault Refusal :=
  runCommand (.lfoValue c k) s (.ok (s.setRes0 (lfoValue ((s.chan c).lfo.get k))))

/-- The check and the effect of LFO_ADVANCE (42_lfo.md R84). -/
def advanceLfo (c : Channel) (k : Tap) (s : State) : Except Abort State :=
  match lfoAdvance ((s.chan c).lfo.get k) with
  | .error e => .error e
  | .ok l => .ok (s.setChan c ((s.chan c).setLfo k l))

/-- LFO_ADVANCE (42_lfo.md R84). -/
def execLfoAdvance (c : Channel) (k : Tap) (s : State) : Host.Outcome State Fault Refusal :=
  runCommand (.lfoAdvance c k) s (advanceLfo c k s)

/-- The check and the effect of LFO_SET_RATE (42_lfo.md R85): the phase is kept. -/
def setLfoRate (c : Channel) (k : Tap) (s : State) : Except Abort State :=
  let rate := opF32 s.opa
  if !positiveFinite rate then raiseFault .paramRange s.opa
  else .ok (s.setChan c ((s.chan c).setLfo k { (s.chan c).lfo.get k with rate := some rate }))

/-- LFO_SET_RATE (42_lfo.md R85). -/
def execLfoSetRate (c : Channel) (k : Tap) (s : State) : Host.Outcome State Fault Refusal :=
  runCommand (.lfoSetRate c k) s (setLfoRate c k s)

end Sys2Proof.Machine
end

