-- ==== Sys2Proof/Machine/Engine.lean ====
section
/-! DEFINITION. The channel engine and stereo family: ENG_SET_SAMPLE_RATE, ENG_PROCESS, ST_PROCESS
(44_engine.md). The plan makes every check and writes nothing; the commit writes and cannot fault. -/

namespace Sys2Proof.Machine

/-- A channel sized for a sample rate: the four buffers fresh, the LFOs' sample rates set, their phases and
rates kept, SIZED set (44_engine.md R100). -/
def ChannelState.resize (sr : F32) (r : Ring) (ch : ChannelState) : ChannelState :=
  { ch with
    sampleRate := sr
    sized := true
    dl := ⟨r, r, r⟩
    fb := r
    lfo := ch.lfo.map fun l => { l with sr := sr } }

/-- The checks and the effect of ENG_SET_SAMPLE_RATE (44_engine.md R100). -/
def setSampleRate (sel : ChSel) (s : State) : Except Abort State :=
  let sr := opF32 s.opa
  if !positiveFinite sr then raiseFault .sampleRate s.opa
  else
    match bufAlloc Config.maxCapacity (ceilInt sr) 0#32 with
    | .error e => .error e
    | .ok r => .ok (s.onChannels sel (ChannelState.resize sr r))

/-- ENG_SET_SAMPLE_RATE (44_engine.md R100). -/
def execEngSetSampleRate (sel : ChSel) (s : State) : Host.Outcome State Fault Refusal :=
  runCommand (.engSetSampleRate sel) s (setSampleRate sel s)

/-- The six parameters of a channel once all are set (44_engine.md R101). -/
structure Snapshot where
  delayMs : F32
  depthMs : F32
  rate : F32
  feedback : F32
  wet : F32
  dry : F32
deriving DecidableEq, Repr

/-- The parameter snapshot, none while a parameter is unset (44_engine.md R101). -/
def snapshotOf (p : Params) : Option Snapshot :=
  match p.delayMs, p.depthMs, p.rateHz, p.feedback, p.wet, p.dry with
  | some delayMs, some depthMs, some rate, some feedback, some wet, some dry =>
    some ⟨delayMs, depthMs, rate, feedback, wet, dry⟩
  | _, _, _, _, _, _ => none

/-- A raise of ENG_PROCESS or ST_PROCESS: the channel code is that of the channel whose check failed
(60_exceptions.md R132). -/
def raiseOn {α : Type} (c : Channel) (cause : Cause) (info : Word) : Except Abort α :=
  .error (.raise { cause := cause, info := info, channel := some c.code })

/-- A raise that also names the tap that failed (60_exceptions.md R132). -/
def raiseOnTap {α : Type} (c : Channel) (k : Tap) (cause : Cause) (info : Word) : Except Abort α :=
  .error (.raise { cause := cause, info := info, channel := some c.code, unit := some k.code })

/-- The product of 44_engine.md R102: `(delay_ms / 1000) * SR`. -/
def baseProduct (p : Snapshot) (sr : F32) : F32 := fmul (fdiv p.delayMs f32Thousand) sr

/-- `baseDelay` (44_engine.md R102). -/
def baseDelay (c : Channel) (p : Snapshot) (sr : F32) : Except Abort Int :=
  if isFinite (baseProduct p sr) then .ok (roundHA (baseProduct p sr))
  else raiseOn c .delayRange 0xFFFFFFFF#32

/-- `checkBase` (44_engine.md R103): `D > FB.cap - 1` raises DELAY_RANGE. -/
def checkBase (c : Channel) (fb : Ring) (d : Int) : Except Abort Unit :=
  if (fb.cap : Int) ≤ d then raiseOn c .delayRange (sat32 d) else .ok ()

/-- `delay_samples / 2` in binary32 (44_engine.md R104). -/
def halfDelay (d : Int) : F32 := fdiv (i2f d) f32Two

/-- `depthClamp` (44_engine.md R104). -/
def depthClamp (p : Snapshot) (sr : F32) (d : Int) : F32 :=
  fmin (fmul (fdiv p.depthMs f32Thousand) sr) (halfDelay d)

/-- `off_k` (44_engine.md R105), from the phase before the advance. -/
def tapOffset (l : Lfo) (cd : F32) : Int := roundHA (fdiv (fmul (lfoValue l) cd) f32Two)

/-- `d_k` of one tap, with its range check (44_engine.md R105). -/
def tapDelay (c : Channel) (ch : ChannelState) (d : Int) (cd : F32) (k : Tap) : Except Abort Int :=
  let dk := d + tapOffset (ch.lfo.get k) cd
  if dk < 0 ∨ ((ch.dl.get k).cap : Int) ≤ dk then raiseOnTap c k .tapRange (BitVec.ofInt 32 dk)
  else .ok dk

/-- `tapDelays` (44_engine.md R105): taps 0, 1, 2 in that order. -/
def tapDelays (c : Channel) (ch : ChannelState) (d : Int) (cd : F32) : Except Abort (Taps Int) := do
  let d0 ← tapDelay c ch d cd .tap0
  let d1 ← tapDelay c ch d cd .tap1
  let d2 ← tapDelay c ch d cd .tap2
  return ⟨d0, d1, d2⟩

/-- The check of one tap's advance (44_engine.md R109). -/
def checkAdvanceTap (c : Channel) (ch : ChannelState) (rate : F32) (k : Tap) : Except Abort Unit :=
  if isFinite (advancedPhase (ch.lfo.get k) rate) then .ok () else raiseOnTap c k .paramRange rate

/-- `checkAdvance` (44_engine.md R109): taps 0, 1, 2 in that order. -/
def checkAdvance (c : Channel) (ch : ChannelState) (rate : F32) : Except Abort Unit := do
  checkAdvanceTap c ch rate .tap0
  checkAdvanceTap c ch rate .tap1
  checkAdvanceTap c ch rate .tap2

/-- What the plan hands to the commit: the snapshot, `D`, and the three `d_k` (44_engine.md R101). -/
structure Plan where
  snap : Snapshot
  base : Int
  taps : Taps Int
deriving DecidableEq, Repr

/-- The checks of `engPlan` after the snapshot is known (44_engine.md R101 to R105, R109). -/
def engChecks (c : Channel) (ch : ChannelState) (p : Snapshot) : Except Abort Plan := do
  let d ← baseDelay c p ch.sampleRate
  checkBase c ch.fb d
  let taps ← tapDelays c ch d (depthClamp p ch.sampleRate d)
  checkAdvance c ch p.rate
  return ⟨p, d, taps⟩

/-- `engPlan` (44_engine.md R101): UNSET, then UNSIZED, then the range checks. -/
def engPlan (c : Channel) (ch : ChannelState) : Except Abort Plan :=
  match snapshotOf ch.params with
  | none => raiseOn c .unset (paramUnsetWord ch.params)
  | some p => if ch.sized then engChecks c ch p else raiseOn c .unsized 0#32

/-- The cursors of the four buffers the commit accesses are inside them (log 12). -/
def checkCursors (ch : ChannelState) : Except Abort Unit := do
  checkCursor ch.dl.tap0
  checkCursor ch.dl.tap1
  checkCursor ch.dl.tap2
  checkCursor ch.fb

/-- The feedback-augmented input `x` (44_engine.md R106), with the word read at lookback `D`. -/
def feedbackInput (p : Snapshot) (xin fbv : F32) : F32 :=
  fadd xin (fmul (fmul p.wet p.feedback) fbv)

/-- The tap sum `(t_0 + t_1) + t_2` (44_engine.md R107). -/
def tapSum (t0 t1 t2 : F32) : F32 := fadd (fadd t0 t1) t2

/-- The mix and the headroom guard (44_engine.md R108). -/
def mix (p : Snapshot) (x ts : F32) : F32 :=
  let y := fadd (fmul p.wet (fdiv ts f32Three)) (fmul x p.dry)
  let sum := fadd p.wet p.dry
  if flt f32One sum then fdiv y sum else y

/-- `engCommit` (44_engine.md R105 to R109): the rates refreshed, the feedback read before the push, the
same `x` into the three delay lines, the LFOs advanced, `y` after the guard pushed. -/
def engCommit (ch : ChannelState) (xin : Word) (plan : Plan) : ChannelState × Word :=
  let p := plan.snap
  let x := feedbackInput p xin (fbRead ch.fb plan.base)
  let (r0, t0) := dlStep ch.dl.tap0 x plan.taps.tap0
  let (r1, t1) := dlStep ch.dl.tap1 x plan.taps.tap1
  let (r2, t2) := dlStep ch.dl.tap2 x plan.taps.tap2
  let y := mix p x (tapSum t0 t1 t2)
  ({ ch with
      dl := ⟨r0, r1, r2⟩
      lfo := ch.lfo.map fun l => lfoStep { l with rate := some p.rate } p.rate
      fb := fbPush ch.fb y },
    y)

/-- The checks and the effect of ENG_PROCESS (44_engine.md R101). -/
def processEng (c : Channel) (s : State) : Except Abort State := do
  let plan ← engPlan c (s.chan c)
  checkCursors (s.chan c)
  let (ch, y) := engCommit (s.chan c) (opWord s.opa) plan
  return (s.setChan c ch).setRes0 y

/-- ENG_PROCESS (44_engine.md R101). -/
def execEngProcess (c : Channel) (s : State) : Host.Outcome State Fault Refusal :=
  runCommand (.engProcess c) s (processEng c s)

/-- The checks and the effect of ST_PROCESS (44_engine.md R110): both plans, left first, then both
commits. -/
def processStereo (s : State) : Except Abort State := do
  let planL ← engPlan .left s.left
  let planR ← engPlan .right s.right
  checkCursors s.left
  checkCursors s.right
  let (chL, yL) := engCommit s.left (opWord s.opa) planL
  let (chR, yR) := engCommit s.right (opWord s.opb) planR
  return (({ s with left := chL, right := chR } : State).setRes0 yL).setRes1 yR

/-- ST_PROCESS (44_engine.md R110). -/
def execStProcess (s : State) : Host.Outcome State Fault Refusal :=
  runCommand .stProcess s (processStereo s)

end Sys2Proof.Machine
end

