-- ==== Sys2Proof/Machine/Feedback.lean ====
section
/-! DEFINITION. The feedback buffer family: FB_RESIZE, FB_READ, FB_PUSH (43_feedback_buffer.md). -/

namespace Sys2Proof.Machine

/-- The check and the effect of FB_RESIZE (43_feedback_buffer.md R92; 10_state.md R31). -/
def reallocFb (c : Channel) (s : State) : Except Abort State :=
  match bufAlloc Config.maxCapacity (opU32 s.opa) 0#32 with
  | .error e => .error e
  | .ok r => .ok (s.setChan c (((s.chan c).setFb r).setSized false))

/-- FB_RESIZE (43_feedback_buffer.md R92). -/
def execFbResize (c : Channel) (s : State) : Host.Outcome State Fault Refusal :=
  runCommand (.fbResize c) s (reallocFb c s)

/-- The check and the effect of FB_READ (43_feedback_buffer.md R93): `j > cap - 1` raises FB_RANGE. -/
def readFb (c : Channel) (s : State) : Except Abort State :=
  let f := (s.chan c).fb
  let j := opU32 s.opa
  if f.cap ≤ j then raiseFault .fbRange s.opa
  else
    match checkCursor f with
    | .error e => .error e
    | .ok _ => .ok (s.setRes0 (fbRead f j))

/-- FB_READ (43_feedback_buffer.md R93). -/
def execFbRead (c : Channel) (s : State) : Host.Outcome State Fault Refusal :=
  runCommand (.fbRead c) s (readFb c s)

/-- The effect of FB_PUSH (43_feedback_buffer.md R94). -/
def pushFb (c : Channel) (s : State) : Except Abort State :=
  let f := (s.chan c).fb
  match checkCursor f with
  | .error e => .error e
  | .ok _ => .ok (s.setChan c ((s.chan c).setFb (fbPush f (opWord s.opa))))

/-- FB_PUSH (43_feedback_buffer.md R94). -/
def execFbPush (c : Channel) (s : State) : Host.Outcome State Fault Refusal :=
  runCommand (.fbPush c) s (pushFb c s)

end Sys2Proof.Machine
end

