-- ==== Sys2Proof/Machine/Dispatch.lean ====
section
/-! DEFINITION. What each command does: one arm for each constructor of `Instr` (30_encoding.md R59). -/

namespace Sys2Proof.Machine

/-- The command `i` executed on a state (60_exceptions.md R134), each by the rule of its row. -/
def exec (i : Instr) (s : State) : Host.Outcome State Fault Refusal :=
  match i with
  | .nop sel => Sys2Proof.Machine.execNop sel s
  | .dlInit c k => Sys2Proof.Machine.execDlInit c k s
  | .dlResize c k => Sys2Proof.Machine.execDlResize c k s
  | .dlProcess c k => Sys2Proof.Machine.execDlProcess c k s
  | .lfoInit c k => Sys2Proof.Machine.execLfoInit c k s
  | .lfoValue c k => Sys2Proof.Machine.execLfoValue c k s
  | .lfoAdvance c k => Sys2Proof.Machine.execLfoAdvance c k s
  | .lfoSetRate c k => Sys2Proof.Machine.execLfoSetRate c k s
  | .fbResize c => Sys2Proof.Machine.execFbResize c s
  | .fbRead c => Sys2Proof.Machine.execFbRead c s
  | .fbPush c => Sys2Proof.Machine.execFbPush c s
  | .engSetSampleRate sel => Sys2Proof.Machine.execEngSetSampleRate sel s
  | .engProcess c => Sys2Proof.Machine.execEngProcess c s
  | .stProcess => Sys2Proof.Machine.execStProcess s
  | .csrRead sel => Sys2Proof.Machine.execCsrRead sel s
  | .csrWrite sel => Sys2Proof.Machine.execCsrWrite sel s
  | .memPeek c u => Sys2Proof.Machine.execMemPeek c u s

end Sys2Proof.Machine
end

