-- ==== Sys2Proof/Machine/HostBus.lean ====
section
/-! DEFINITION. The host window (10_state.md R22, 20_memory.md R43 to R46) and the command cycle
(60_exceptions.md R134). -/

namespace Sys2Proof.Machine

/-- A register of the host window (10_state.md R22). -/
inductive HostReg where
  | cmd
  | opa
  | opb
  | opc
  | res0
  | res1
  | hstatus
deriving DecidableEq, Repr

/-- The offsets of the window (10_state.md R22, 20_memory.md R45). -/
def hostRegTable : List (Nat × HostReg) :=
  [(0x00, .cmd), (0x04, .opa), (0x08, .opb), (0x0C, .opc), (0x10, .res0), (0x14, .res1), (0x18, .hstatus)]

/-- The register at an offset; no register at any other offset (20_memory.md R44, R45). -/
def hostRegAt (offset : Nat) : Option HostReg := hostRegTable.lookup offset

/-- The offset of a register (10_state.md R22). -/
def hostRegOffset : HostReg → Nat
  | .cmd => 0x00
  | .opa => 0x04
  | .opb => 0x08
  | .opc => 0x0C
  | .res0 => 0x10
  | .res1 => 0x14
  | .hstatus => 0x18

/-- The platform's address of a register: HOST_BASE plus its offset (20_memory.md R45; log 3). -/
def hostRegAddress (r : HostReg) : Nat := Config.hostBase + hostRegOffset r

/-- The word a host read of a register returns (10_state.md R22). -/
def hostRegValue (s : State) : HostReg → Word
  | .cmd => s.cmd
  | .opa => s.opa
  | .opb => s.opb
  | .opc => s.opc
  | .res0 => s.res0
  | .res1 => s.res1
  | .hstatus => statusWord s

/-- THE COMMAND CYCLE (60_exceptions.md R134): CMD takes the word, then the word runs, is dropped, or raises
ILLEGAL_COMMAND. What HALTED changes stands in each command's meaning and in `illegalCommand`. -/
def writeCmd (w : Word) (s : State) : Host.Outcome State Fault Refusal :=
  match decode w with
  | .ok i => exec i (s.setCmd w)
  | .error _ => illegalCommand w (s.setCmd w)

/-- A host write of a 32-bit word to a register (10_state.md R22, 20_memory.md R44, R46). -/
def hostWriteReg (r : HostReg) (w : Word) (s : State) : Host.Outcome State Fault Refusal :=
  match r with
  | .cmd => writeCmd w s
  | .opa => .next { s with opa := w }
  | .opb => .next { s with opb := w }
  | .opc => .next { s with opc := w }
  | .res0 => .refused .writeReadOnly
  | .res1 => .refused .writeReadOnly
  | .hstatus => .refused .writeReadOnly

/-- A host write of byte lanes at an offset (20_memory.md R43, R44). -/
def hostWrite (offset : Nat) (lanes : List Byte) (s : State) : Host.Outcome State Fault Refusal :=
  match wordOfLanes lanes with
  | none => .refused .accessWidth
  | some w =>
    if offset % 4 ≠ 0 then .refused .accessAlignment
    else
      match hostRegAt offset with
      | none => .refused .accessOffset
      | some r => hostWriteReg r w s

/-- A host read of a number of bytes at an offset: the lanes of the register, and no side effect
(20_memory.md R43, R44, R46). -/
def hostRead (offset bytes : Nat) (s : State) : Host.Outcome State Fault Refusal :=
  if bytes ≠ 4 then .refused .accessWidth
  else if offset % 4 ≠ 0 then .refused .accessAlignment
  else
    match hostRegAt offset with
    | none => .refused .accessOffset
    | some r => .next { s with host := { s.host with readData := lanesOfWord (hostRegValue s r) } }

/-- One thing the outside does to the block (20_memory.md R48, 70_reset_and_hazards.md R150). -/
def performEvent (e : HostEvent) (s : State) : Host.Outcome State Fault Refusal :=
  match e with
  | .write offset lanes => hostWrite offset lanes s
  | .read offset bytes => hostRead offset bytes s
  | .reset => .next (applyReset s)

/-- The next thing the outside does, taken off the front of its list. With none left the block does nothing
and its state persists (60_exceptions.md R145; log 2). -/
def hostStep (s : State) : Host.Outcome State Fault Refusal :=
  match s.host.pending with
  | [] => .next s
  | e :: rest => performEvent e (s.setPending rest)

/-- The host's write of a word to CMD (10_state.md R22). -/
def cmdWriteEvent (w : Word) : HostEvent := .write 0x00 (lanesOfWord w)

/-- The word whose `nbits` low bits are those of `w` and whose other bits are zero. -/
def fetchWord (nbits w : Nat) : Word := BitVec.ofNat 32 (w % 2 ^ nbits)

end Sys2Proof.Machine
end

