-- ==== Sys2Proof/Machine/Step.lean ====
section
/-! DEFINITION. One step of the machine: one host access or one reset, atomically (20_memory.md R46,
70_reset_and_hazards.md R157; log 17). -/

namespace Sys2Proof.Machine

/-- One step (10_state.md R20, R21): the model's next instruction is the host's next bus access. -/
def step (s : State) : Host.Outcome State Fault Refusal := hostStep s

/-- The state whose next host access writes the command word to CMD: the block fetches nothing (10_state.md
R21), so this stands where a program counter would fetch (log 1). -/
def State.withFetchWord (s : State) (nbits w : Nat) : State :=
  s.setPending (cmdWriteEvent (fetchWord nbits w) :: s.host.pending)

end Sys2Proof.Machine
end

