-- ==== Sys2Proof/Machine/Assembler.lean ====
section
/-! DEFINITION. Host programs: the assembler lines of 30_encoding.md R62, the pseudo-instructions of R63,
the host accesses each expands to, and the reading of a line's text. The block runs no stored program
(10_state.md R21); a program is the list of accesses the host makes. -/

namespace Sys2Proof.Machine

/-- A value of a line (30_encoding.md R62): a decimal integer, a decimal number `digits * 10^exp10` with a
sign, or a raw word. -/
inductive AsmValue where
  | int (n : Nat)
  | decimal (neg : Bool) (digits : Nat) (exp10 : Int)
  | raw (w : Word)
deriving DecidableEq, Repr

/-- The word a value stands for (30_encoding.md R62): a decimal number is the nearest binary32 value. -/
def AsmValue.word : AsmValue → Word
  | .int n => BitVec.ofNat 32 n
  | .decimal neg digits exp10 => ofDecimal neg digits exp10
  | .raw w => w

/-- A register that `wr` may name (30_encoding.md R62). -/
inductive WriteReg where
  | opa
  | opb
  | opc
  | cmd
deriving DecidableEq, Repr

/-- The host register of a `wr` line. -/
def WriteReg.hostReg : WriteReg → HostReg
  | .opa => .opa
  | .opb => .opb
  | .opc => .opc
  | .cmd => .cmd

/-- A line of a host program (30_encoding.md R62). A command line names a legal command; only `wr cmd` can
write an illegal word. -/
inductive AsmLine where
  | wr (r : WriteReg) (v : AsmValue)
  | rd (r : HostReg)
  | command (i : Instr) (opa opb opc : Option AsmValue)
deriving DecidableEq, Repr

/-- A pseudo-instruction (30_encoding.md R63). -/
inductive AsmPseudo where
  | lfoConstruct (c : Channel) (k : Tap) (sr rate : AsmValue)
  | lfoConstructRandom (c : Channel) (k : Tap) (sr rate phase : AsmValue)
  | setp (sel : ChSel) (p : Param) (v : AsmValue)
  | frame (xl xr : AsmValue)
  | rdfault
deriving DecidableEq, Repr

/-- The number of a parameter register (10_state.md R28, 30_encoding.md R63). -/
def paramNumber : Param → Nat
  | .delayMs => 0x014
  | .depthMs => 0x015
  | .rateHz => 0x016
  | .feedback => 0x017
  | .wet => 0x018
  | .dry => 0x019

/-- The lines a pseudo-instruction expands to (30_encoding.md R63). -/
def AsmPseudo.expand : AsmPseudo → List AsmLine
  | .lfoConstruct c k sr rate => [.command (.lfoInit c k) (some sr) (some rate) (some (.raw 0#32))]
  | .lfoConstructRandom c k sr rate phase =>
    [.command (.lfoInit c k) (some sr) (some rate) (some phase)]
  | .setp sel p v => [.command (.csrWrite sel) (some (.int (paramNumber p))) (some v) none]
  | .frame xl xr => [.command .stProcess (some xl) (some xr) none]
  | .rdfault => [.command (.csrRead .both) (some (.int 2)) none none, .rd .res0]

/-- A host write of a word to a register (20_memory.md R43, R45). -/
def regWriteEvent (r : HostReg) (w : Word) : HostEvent := .write (hostRegOffset r) (lanesOfWord w)

/-- A host read of a register. -/
def regReadEvent (r : HostReg) : HostEvent := .read (hostRegOffset r) 4

/-- The write of a named operand, nothing where it is not named (30_encoding.md R62). -/
def operandEvents (r : HostReg) : Option AsmValue → List HostEvent
  | some v => [regWriteEvent r v.word]
  | none => []

/-- The host accesses of a line: the named operands in the order opa, opb, opc, then the command word
(30_encoding.md R62). -/
def AsmLine.events : AsmLine → List HostEvent
  | .wr r v => [regWriteEvent r.hostReg v.word]
  | .rd r => [regReadEvent r]
  | .command i a b c =>
    operandEvents .opa a ++ operandEvents .opb b ++ operandEvents .opc c ++ [regWriteEvent .cmd (encode i)]

/-- The host accesses of a program. -/
def programEvents (lines : List AsmLine) : List HostEvent := lines.flatMap AsmLine.events

/-! The text of a line -/

/-- The mnemonic of a command, as 30_encoding.md R59 writes it. -/
def mnemonicOf : Instr → List Char
  | .nop _ => ['N', 'O', 'P']
  | .dlInit _ _ => ['D', 'L', '_', 'I', 'N', 'I', 'T']
  | .dlResize _ _ => ['D', 'L', '_', 'R', 'E', 'S', 'I', 'Z', 'E']
  | .dlProcess _ _ => ['D', 'L', '_', 'P', 'R', 'O', 'C', 'E', 'S', 'S']
  | .lfoInit _ _ => ['L', 'F', 'O', '_', 'I', 'N', 'I', 'T']
  | .lfoValue _ _ => ['L', 'F', 'O', '_', 'V', 'A', 'L', 'U', 'E']
  | .lfoAdvance _ _ => ['L', 'F', 'O', '_', 'A', 'D', 'V', 'A', 'N', 'C', 'E']
  | .lfoSetRate _ _ => ['L', 'F', 'O', '_', 'S', 'E', 'T', '_', 'R', 'A', 'T', 'E']
  | .fbResize _ => ['F', 'B', '_', 'R', 'E', 'S', 'I', 'Z', 'E']
  | .fbRead _ => ['F', 'B', '_', 'R', 'E', 'A', 'D']
  | .fbPush _ => ['F', 'B', '_', 'P', 'U', 'S', 'H']
  | .engSetSampleRate _ =>
    ['E', 'N', 'G', '_', 'S', 'E', 'T', '_', 'S', 'A', 'M', 'P', 'L', 'E', '_', 'R', 'A', 'T', 'E']
  | .engProcess _ => ['E', 'N', 'G', '_', 'P', 'R', 'O', 'C', 'E', 'S', 'S']
  | .stProcess => ['S', 'T', '_', 'P', 'R', 'O', 'C', 'E', 'S', 'S']
  | .csrRead _ => ['C', 'S', 'R', '_', 'R', 'E', 'A', 'D']
  | .csrWrite _ => ['C', 'S', 'R', '_', 'W', 'R', 'I', 'T', 'E']
  | .memPeek _ _ => ['M', 'E', 'M', '_', 'P', 'E', 'E', 'K']

/-- A mnemonic in a line: lower case, `_` replaced by `.` (30_encoding.md R62). -/
def asmName (m : List Char) : List Char := m.map fun ch => if ch = '_' then '.' else ch.toLower

/-- The channel suffix of a CH code: l, r or lr (30_encoding.md R62). -/
def chText (ch : BitVec 2) : List Char :=
  if ch = 1#2 then ['l'] else if ch = 2#2 then ['r'] else ['l', 'r']

/-- Every selection of channels. -/
def allChSels : List ChSel := [.one .left, .one .right, .both]

/-- Every legal command, family by family. -/
def allInstrs : List Instr :=
  let chans : List Channel := [.left, .right]
  let taps : List Tap := [.tap0, .tap1, .tap2]
  let perTap : List (Channel → Tap → Instr) :=
    [.dlInit, .dlResize, .dlProcess, .lfoInit, .lfoValue, .lfoAdvance, .lfoSetRate]
  let perChannel : List (Channel → Instr) := [.fbResize, .fbRead, .fbPush, .engProcess]
  let perSel : List (ChSel → Instr) := [.nop, .engSetSampleRate, .csrRead, .csrWrite]
  let peeks : List PeekUnit := [.dl .tap0, .dl .tap1, .dl .tap2, .fb]
  (perTap.flatMap fun mk => chans.flatMap fun c => taps.map (mk c))
    ++ (perChannel.flatMap fun mk => chans.map mk)
    ++ (perSel.flatMap fun mk => allChSels.map mk)
    ++ (chans.flatMap fun c => peeks.map (Instr.memPeek c))
    ++ [.stProcess]

/-- The command with a name, a channel suffix and a unit (30_encoding.md R62). -/
def commandNamed (name : List Char) (u : BitVec 2) : Option Instr :=
  allInstrs.find? fun i =>
    asmName (mnemonicOf i) ++ '.' :: chText (encodeFields i).ch == name && (encodeFields i).u == u

/-- Text cut at each separator. -/
def splitAtChar (sep : Char) : List Char → List (List Char)
  | [] => [[]]
  | ch :: rest =>
    match splitAtChar sep rest with
    | [] => [[ch]]
    | seg :: more => if ch = sep then [] :: seg :: more else (ch :: seg) :: more

/-- The words of a text: the parts between spaces. -/
def wordsOf (text : List Char) : List (List Char) :=
  (splitAtChar ' ' text).filter fun w => !w.isEmpty

/-- The value of a digit below a base. -/
def digitValue (base : Nat) (ch : Char) : Option Nat :=
  let n := ch.toNat
  let v :=
    if 48 ≤ n ∧ n ≤ 57 then n - 48
    else if 65 ≤ n ∧ n ≤ 70 then n - 55
    else if 97 ≤ n ∧ n ≤ 102 then n - 87
    else base
  if v < base then some v else none

/-- Digits read onto an accumulator. -/
def digitsFrom (base : Nat) : List Char → Nat → Option Nat
  | [], acc => some acc
  | ch :: rest, acc =>
    match digitValue base ch with
    | some d => digitsFrom base rest (acc * base + d)
    | none => none

/-- A nonempty string of digits. -/
def numberOf (base : Nat) (text : List Char) : Option Nat :=
  if text.isEmpty then none else digitsFrom base text 0

/-- The exponent part of a decimal number: nothing, or digits with an optional minus sign. 30_encoding.md R62
leaves its written form open: DESIGN CHOICE (log 16). -/
def exponentOf : List (List Char) → Option Int
  | [] => some 0
  | [('-' :: ds)] => (numberOf 10 ds).map fun n => -(n : Int)
  | [ds] => (numberOf 10 ds).map fun n => (n : Int)
  | _ => none

/-- A decimal number with a point or an exponent (30_encoding.md R62). That only a lower case `e` begins an
exponent, and that digits may be missing on one side of the point, is a DESIGN CHOICE (log 16). -/
def decimalOf (neg : Bool) (text : List Char) : Option AsmValue :=
  match splitAtChar 'e' text with
  | [] => none
  | mant :: exps =>
    match splitAtChar '.' mant, exponentOf exps with
    | [whole], some e => (numberOf 10 whole).map fun d => .decimal neg d e
    | [whole, frac], some e =>
      (numberOf 10 (whole ++ frac)).map fun d => .decimal neg d (e - (frac.length : Int))
    | _, _ => none

/-- The text of a value (30_encoding.md R62). -/
def valueOf (text : List Char) : Option AsmValue :=
  match text with
  | '0' :: 'x' :: hex =>
    if hex.length = 8 then (numberOf 16 hex).map fun n => .raw (BitVec.ofNat 32 n) else none
  | '-' :: rest => if rest.contains '.' || rest.contains 'e' then decimalOf true rest else none
  | _ =>
    if text.contains '.' || text.contains 'e' then decimalOf false text
    else (numberOf 10 text).bind fun n => if n < 2 ^ 32 then some (.int n) else none

/-- A value alone in its part of a line. -/
def valuePart (part : List Char) : Option AsmValue :=
  match wordsOf part with
  | [w] => valueOf w
  | _ => none

/-- A named operand `opx=<value>` of a command line. -/
def operandPart (part : List Char) : Option (HostReg × AsmValue) :=
  match wordsOf part with
  | [('o' :: 'p' :: 'a' :: '=' :: v)] => (valueOf v).map fun x => (.opa, x)
  | [('o' :: 'p' :: 'b' :: '=' :: v)] => (valueOf v).map fun x => (.opb, x)
  | [('o' :: 'p' :: 'c' :: '=' :: v)] => (valueOf v).map fun x => (.opc, x)
  | _ => none

/-- The named operands of a command line, each at most once and in the order opa, opb, opc. -/
def operandsOf (i : Instr) (parts : List (List Char)) : Option AsmLine :=
  match parts.map operandPart with
  | [] => some (.command i none none none)
  | [some (.opa, a)] => some (.command i (some a) none none)
  | [some (.opb, b)] => some (.command i none (some b) none)
  | [some (.opc, c)] => some (.command i none none (some c))
  | [some (.opa, a), some (.opb, b)] => some (.command i (some a) (some b) none)
  | [some (.opa, a), some (.opc, c)] => some (.command i (some a) none (some c))
  | [some (.opb, b), some (.opc, c)] => some (.command i none (some b) (some c))
  | [some (.opa, a), some (.opb, b), some (.opc, c)] => some (.command i (some a) (some b) (some c))
  | _ => none

/-- The unit word `u<k>` of a command line. -/
def unitWord (text : List Char) : Option (BitVec 2) :=
  match text with
  | ['u', ch] =>
    match digitValue 10 ch with
    | some n => if n < 4 then some (BitVec.ofNat 2 n) else none
    | none => none
  | _ => none

/-- The register a `wr` line names. -/
def writeRegNamed (text : List Char) : Option WriteReg :=
  if text = ['o', 'p', 'a'] then some .opa
  else if text = ['o', 'p', 'b'] then some .opb
  else if text = ['o', 'p', 'c'] then some .opc
  else if text = ['c', 'm', 'd'] then some .cmd
  else none

/-- The register an `rd` line names. -/
def readRegNamed (text : List Char) : Option HostReg :=
  if text = ['r', 'e', 's', '0'] then some .res0
  else if text = ['r', 'e', 's', '1'] then some .res1
  else if text = ['h', 's', 't', 'a', 't', 'u', 's'] then some .hstatus
  else (writeRegNamed text).map WriteReg.hostReg

/-- The parameter a `setp` line names (30_encoding.md R63). -/
def paramNamed (text : List Char) : Option Param :=
  if text = ['d', 'e', 'l', 'a', 'y', '_', 'm', 's'] then some .delayMs
  else if text = ['d', 'e', 'p', 't', 'h', '_', 'm', 's'] then some .depthMs
  else if text = ['r', 'a', 't', 'e', '_', 'h', 'z'] then some .rateHz
  else if text = ['f', 'e', 'e', 'd', 'b', 'a', 'c', 'k'] then some .feedback
  else if text = ['w', 'e', 't'] then some .wet
  else if text = ['d', 'r', 'y'] then some .dry
  else none

/-- The text of a line of one of the three forms of 30_encoding.md R62. -/
def lineOf (text : List Char) : Option AsmLine :=
  match splitAtChar ',' text with
  | [] => none
  | head :: parts =>
    match wordsOf head, parts with
    | [['w', 'r'], r], [v] =>
      match writeRegNamed r, valuePart v with
      | some r, some v => some (.wr r v)
      | _, _ => none
    | [['r', 'd'], r], [] => (readRegNamed r).map .rd
    | [name], _ => (commandNamed name 0#2).bind fun i => operandsOf i parts
    | [name, u], _ =>
      (unitWord u).bind fun u => (commandNamed name u).bind fun i => operandsOf i parts
    | _, _ => none

/-- The channels a `setp` head names. -/
def setpSel (name : List Char) : Option ChSel :=
  allChSels.find? fun sel => ['s', 'e', 't', 'p', '.'] ++ chText sel.code == name

/-- The channel and unit of an `lfo.construct` or `lfo.construct.random` head. -/
def lfoHead (stem name u : List Char) : Option (Channel × Tap) :=
  let named : List (Channel × Tap) :=
    [(.left, .tap0), (.left, .tap1), (.left, .tap2), (.right, .tap0), (.right, .tap1), (.right, .tap2)]
  named.find? fun ck => stem ++ chText ck.1.code == name && some ck.2.code == unitWord u

/-- `lfo.construct.` -/
def lfoConstructStem : List Char :=
  ['l', 'f', 'o', '.', 'c', 'o', 'n', 's', 't', 'r', 'u', 'c', 't', '.']

/-- `lfo.construct.random.` -/
def lfoConstructRandomStem : List Char :=
  lfoConstructStem ++ ['r', 'a', 'n', 'd', 'o', 'm', '.']

/-- The text of a pseudo-instruction (30_encoding.md R63). -/
def pseudoOf (text : List Char) : Option AsmPseudo :=
  match splitAtChar ',' text with
  | [] => none
  | head :: parts =>
    match wordsOf head, parts.map valuePart with
    | [['r', 'd', 'f', 'a', 'u', 'l', 't']], [] => some .rdfault
    | [['f', 'r', 'a', 'm', 'e'], xl], [some xr] => (valueOf xl).map fun xl => .frame xl xr
    | [name, p], [some v] =>
      match setpSel name, paramNamed p with
      | some sel, some p => some (.setp sel p v)
      | _, _ => none
    | [name, u], [some sr, some rate] =>
      (lfoHead lfoConstructStem name u).map fun ck => .lfoConstruct ck.1 ck.2 sr rate
    | [name, u], [some sr, some rate, some phase] =>
      (lfoHead lfoConstructRandomStem name u).map fun ck => .lfoConstructRandom ck.1 ck.2 sr rate phase
    | _, _ => none

/-- The lines that a text stands for: its expansion where it is a pseudo-instruction (30_encoding.md R62,
R63; log 16). -/
def assembleLine (text : List Char) : Option (List AsmLine) :=
  match pseudoOf text with
  | some p => some p.expand
  | none => (lineOf text).map fun l => [l]

end Sys2Proof.Machine
end

