-- ==== Sys2Proof/Safety.lean ====
section
/-! DEFINITION. What the statements call a good state and a safe step: the invariants of 10_state.md R34
(with R25, R26, R35), and the step that does not stop the machine. -/

namespace Sys2Proof.Machine

/-- A unit as 10_state.md R25, R26 and R34 have it: `1 <= cap <= MAX_CAPACITY`, `wc < cap`, and words only at
the indices `0 .. cap-1`, in the canonical form. -/
structure Ring.Wf (r : Ring) : Prop where
  capPos : 1 ≤ r.cap
  capMax : r.cap ≤ Config.maxCapacity
  cursor : r.wc < r.cap
  canonical : Memory.wf r.buf
  inside : ∀ cell ∈ r.buf, cell.1 < r.cap

/-- An LFO as 10_state.md R34 and R35 have it: the phase in [+0.0, 1.0) and not -0.0, the sample rate and a
rate that is set finite and above 0. -/
structure Lfo.Wf (l : Lfo) : Prop where
  phase : Config.phaseAdmissible l.phase = true
  sr : positiveFinite l.sr = true
  rate : ∀ v, l.rate = some v → positiveFinite v = true

/-- A channel as 10_state.md R34 has it: its units, its sample rate, and its set parameters legal by R29. -/
structure ChannelState.Wf (ch : ChannelState) : Prop where
  dl : ∀ k, (ch.dl.get k).Wf
  fb : ch.fb.Wf
  lfo : ∀ k, (ch.lfo.get k).Wf
  sampleRate : positiveFinite ch.sampleRate = true
  params : ∀ p v, ch.params.get p = some v → paramLegal p v = true

/-- The invariants of 10_state.md R34 on both channels. -/
structure State.Inv (s : State) : Prop where
  left : s.left.Wf
  right : s.right.Wf

/-- A channel whose SIZED bit is 1 has four buffers of exactly one second, `ceilInt(SR)` words (10_state.md
R31, 44_engine.md R100). -/
def ChannelState.SizedOk (ch : ChannelState) : Prop :=
  ch.sized = true →
    (∀ k, ((ch.dl.get k).cap : Int) = ceilInt ch.sampleRate) ∧ (ch.fb.cap : Int) = ceilInt ch.sampleRate

/-- Both channels keep the meaning of their SIZED bit. -/
def State.SizedInv (s : State) : Prop := s.left.SizedOk ∧ s.right.SizedOk

/-- The fault registers as 60_exceptions.md R131, R132 and R137 leave them: the cause is 0 or one of the codes
1 to 11, and with cause 0 the other four are 0. -/
def State.FaultRegsOk (s : State) : Prop :=
  s.faultCause.toNat ≤ 11 ∧
    (s.faultCause = 0#32 →
      s.faultInfo = 0#32 ∧ s.faultCmd = 0#32 ∧ s.faultCh = 0#2 ∧ s.faultUnit = 0#2)

/-- A step that does not stop the machine with a fault of the model (log 12). -/
def SafeStep (s : State) : Prop := ∀ f : Fault, step s ≠ .fault f

/-- The eight buffers of the machine (20_memory.md R40), as the channel and the unit that MEM_PEEK selects. -/
def State.ring (s : State) (c : Channel) (u : PeekUnit) : Ring := peekRing (s.chan c) u

/-- The word at an index of a buffer: the model's read of one cell of memory (00_scope.md R19). -/
def State.word (s : State) (c : Channel) (u : PeekUnit) (i : Nat) : Word :=
  Memory.read (s.ring c u).buf i

/-- The state with the five fault registers written and nothing else (60_exceptions.md R132). -/
def State.withFault (s : State) (cause info cmd : Word) (ch unit : BitVec 2) : State :=
  { s with faultCause := cause, faultInfo := info, faultCmd := cmd, faultCh := ch, faultUnit := unit }

/-- The channels a command addresses (30_encoding.md R56, R59). -/
def channelsOf : Instr → ChSel
  | .nop sel => sel
  | .dlInit c _ => .one c
  | .dlResize c _ => .one c
  | .dlProcess c _ => .one c
  | .lfoInit c _ => .one c
  | .lfoValue c _ => .one c
  | .lfoAdvance c _ => .one c
  | .lfoSetRate c _ => .one c
  | .fbResize c => .one c
  | .fbRead c => .one c
  | .fbPush c => .one c
  | .engSetSampleRate sel => sel
  | .engProcess c => .one c
  | .stProcess => .both
  | .csrRead sel => sel
  | .csrWrite sel => sel
  | .memPeek c _ => .one c

/-- The commands that run while the block is halted (60_exceptions.md R135). -/
def runsHalted : Instr → Bool
  | .nop _ => true
  | .csrRead _ => true
  | .memPeek _ _ => true
  | _ => false

/-- The commands that may change a capacity (20_memory.md R52). -/
def reallocates : Instr → Bool
  | .dlInit _ _ => true
  | .dlResize _ _ => true
  | .fbResize _ => true
  | .engSetSampleRate _ => true
  | _ => false

/-- The commands that write RES0 (30_encoding.md R59). -/
def writesRes0 : Instr → Bool
  | .dlProcess _ _ => true
  | .lfoValue _ _ => true
  | .fbRead _ => true
  | .engProcess _ => true
  | .stProcess => true
  | .csrRead _ => true
  | .memPeek _ _ => true
  | _ => false

/-- The commands that change no state except RES0 (20_memory.md R46). -/
def changesOnlyRes0 : Instr → Bool
  | .nop _ => true
  | .csrRead _ => true
  | .memPeek _ _ => true
  | .lfoValue _ _ => true
  | .fbRead _ => true
  | _ => false

/-- The channel is among those selected. -/
def selects : ChSel → Channel → Bool
  | .one d, c => decide (d = c)
  | .both, _ => true

/-- The buffers a command may write or reallocate (20_memory.md R41). -/
def mayWriteBuffer : Instr → Channel → PeekUnit → Bool
  | .dlInit d k, c, u => decide (d = c) && decide (u = .dl k)
  | .dlResize d k, c, u => decide (d = c) && decide (u = .dl k)
  | .dlProcess d k, c, u => decide (d = c) && decide (u = .dl k)
  | .fbResize d, c, u => decide (d = c) && decide (u = .fb)
  | .fbPush d, c, u => decide (d = c) && decide (u = .fb)
  | .engSetSampleRate sel, c, _ => selects sel c
  | .engProcess d, c, _ => decide (d = c)
  | .stProcess, _, _ => true
  | _, _, _ => false

/-- Every check of ENG_PROCESS passes on a channel, with the parameters `p`, the base delay `d` and the tap
delays `dk` (44_engine.md R101 to R105, R109), and the cursors are inside their buffers (10_state.md R25). -/
structure EngRuns (ch : ChannelState) (p : Snapshot) (d : Int) (dk : Tap → Int) : Prop where
  params : ch.params = ⟨some p.delayMs, some p.depthMs, some p.rate, some p.feedback, some p.wet, some p.dry⟩
  sized : ch.sized = true
  finite : isFinite (fmul (fdiv p.delayMs f32Thousand) ch.sampleRate) = true
  base : d = roundHA (fmul (fdiv p.delayMs f32Thousand) ch.sampleRate)
  baseInside : d ≤ (ch.fb.cap : Int) - 1
  taps : ∀ k, dk k = d + roundHA (fdiv (fmul (Config.sin2pi (ch.lfo.get k).phase)
    (fmin (fmul (fdiv p.depthMs f32Thousand) ch.sampleRate) (fdiv (i2f d) f32Two))) f32Two)
  tapsInside : ∀ k, 0 ≤ dk k ∧ dk k ≤ ((ch.dl.get k).cap : Int) - 1
  advance : ∀ k, isFinite (fadd (ch.lfo.get k).phase (fdiv p.rate (ch.lfo.get k).sr)) = true
  dlCursor : ∀ k, (ch.dl.get k).wc < (ch.dl.get k).cap
  fbCursor : ch.fb.wc < ch.fb.cap
  dlCanonical : ∀ k, Memory.wf (ch.dl.get k).buf
  fbCanonical : Memory.wf ch.fb.buf

/-- What one ENG_PROCESS makes of a channel (44_engine.md R105 to R109): `x` from the word read `d` slots
behind the feedback cursor, `x` written into each delay line and the tap word read `dk` slots behind the
advanced cursor, the mix and the guard, the rates refreshed, the phases advanced, `y` pushed. -/
structure EngCommits (ch : ChannelState) (xin : Word) (p : Snapshot) (d : Int) (dk : Tap → Int)
    (ch' : ChannelState) (y : Word) : Prop where
  out : ∃ (x : F32) (t : Tap → F32) (ts m sum : F32),
    x = fadd xin (fmul (fmul p.wet p.feedback)
      (Memory.read ch.fb.buf (((ch.fb.wc : Int) - d) % (ch.fb.cap : Int)).toNat)) ∧
    (∀ k, (ch'.dl.get k).cap = (ch.dl.get k).cap ∧
      (ch'.dl.get k).wc = ((ch.dl.get k).wc + 1) % (ch.dl.get k).cap ∧
      (∀ i, Memory.read (ch'.dl.get k).buf i =
        if i = (ch.dl.get k).wc then x else Memory.read (ch.dl.get k).buf i) ∧
      t k = Memory.read (ch'.dl.get k).buf
        ((((ch'.dl.get k).wc : Int) - dk k) % ((ch.dl.get k).cap : Int)).toNat) ∧
    ts = fadd (fadd (t .tap0) (t .tap1)) (t .tap2) ∧
    m = fadd (fmul p.wet (fdiv ts f32Three)) (fmul x p.dry) ∧
    sum = fadd p.wet p.dry ∧
    y = if flt f32One sum then fdiv m sum else m
  fb : ch'.fb.cap = ch.fb.cap ∧ ch'.fb.wc = (ch.fb.wc + 1) % ch.fb.cap ∧
    ∀ i, Memory.read ch'.fb.buf i = if i = ch.fb.wc then y else Memory.read ch.fb.buf i
  lfo : ∀ k, (ch'.lfo.get k).rate = some p.rate ∧ (ch'.lfo.get k).sr = (ch.lfo.get k).sr ∧
    (ch'.lfo.get k).phase = fmod1 (fadd (ch.lfo.get k).phase (fdiv p.rate (ch.lfo.get k).sr))
  rest : ch'.sampleRate = ch.sampleRate ∧ ch'.sized = ch.sized ∧ ch'.params = ch.params

/-- `r` is `num / den` units of 2^-149 rounded to nearest, ties to even (00_scope.md R14), for `den` above 0. From
half a unit in the last place above the largest finite value on, it is the infinity of that sign. Below, it is
a finite value: none is nearer, and where another one is as near, the last bit of `r` is 0. -/
def RoundsTo (num den : Int) (r : F32) : Prop :=
  (33554431 * 2 ^ 252 * den ≤ |num| → r = if num < 0 then 0xFF800000#32 else 0x7F800000#32) ∧
  (|num| < 33554431 * 2 ^ 252 * den → isFinite r = true ∧ ∀ z, isFinite z = true →
    |num - scaled r * den| ≤ |num - scaled z * den| ∧
    (|num - scaled r * den| = |num - scaled z * den| → scaled z ≠ scaled r → r.toNat % 2 = 0))

end Sys2Proof.Machine
end

