-- ==== Sys2Proof/Certificates/Slice0/Obligations.lean ====
section
/-! DEFINITION. The statements for the provers, in the order of spec/: encoding and host window,
whole-machine rules, the five families, the arithmetic. A statement is about every state unless it names
the states it is about. -/

open Sys2Proof Sys2Proof.Machine Host

/-! Encoding and the host window -/

/-- 30_encoding.md R59: words written out from the bit patterns of the table, one of each family and one
of each shape of row, decode to the commands they stand for. -/
def Obligations.WrittenWordsDecode : Prop :=
  decode 0b00000000000000000000_01_00_00000000#32 = .ok (.nop (.one .left)) ∧
  decode 0b00000000000000000000_10_01_00000001#32 = .ok (.dlInit .right .tap1) ∧
  decode 0b00000000000000000000_01_10_00010010#32 = .ok (.lfoAdvance .left .tap2) ∧
  decode 0b00000000000000000000_10_00_00100001#32 = .ok (.fbRead .right) ∧
  decode 0b00000000000000000000_11_00_00110010#32 = .ok .stProcess ∧
  decode 0b00000000000000000000_11_00_01000001#32 = .ok (.csrWrite .both) ∧
  decode 0b00000000000000000000_01_11_01000010#32 = .ok (.memPeek .left .fb)

/-- 30_encoding.md R59, R60: the decoder reads the command `i` from a word exactly when the word is `i`'s
encoding. So every command decodes from its encoding, with every channel and unit its row admits, and no
bit of a word is dropped. -/
def Obligations.DecodeEncodeAgree : Prop :=
  ∀ (w : Word) (i : Instr), decode w = .ok i ↔ w = encode i

/-- 30_encoding.md R59, R60: a word is legal exactly when RSV is zero, OP is in the table, and CH and U are
in the sets of its row. -/
def Obligations.DecodeAcceptsExactlyTheTable : Prop :=
  ∀ w : Word, (∃ i, decode w = .ok i) ↔
    w.extractLsb' 12 20 = 0#20 ∧
    ∃ r ∈ opcodeRows, r.op = w.extractLsb' 0 8 ∧ w.extractLsb' 10 2 ∈ r.chSet ∧
      w.extractLsb' 8 2 ∈ r.uSet

/-- 60_exceptions.md R134: where the host's next access writes to CMD the byte lanes of a word that decodes
to `i`, the step takes the access off the host's list, stores the word in CMD, and is `exec i` on the state
so left. -/
def Obligations.StepRunsDecodedCommand : Prop :=
  ∀ (s : State) (w : Word) (i : Instr) (rest : List HostEvent),
    s.host.pending = .write 0x00 (lanesOfWord w) :: rest → decode w = .ok i →
    step s = exec i { s with cmd := w, host := { s.host with pending := rest } }

/-- 30_encoding.md R60 with 60_exceptions.md R132, R134 and R135: an illegal word written to CMD raises
ILLEGAL_COMMAND with the word as FAULT_INFO and FAULT_CMD and its own CH and U fields; on a halted block
only CMD changes. -/
def Obligations.IllegalWordRaisesIllegalCommand : Prop :=
  ∀ (s : State) (w : Word) (e : DecodeError) (rest : List HostEvent),
    s.host.pending = .write 0x00 (lanesOfWord w) :: rest → decode w = .error e →
    (s.faultCause = 0#32 →
      step s = .next (({ s with cmd := w, host := { s.host with pending := rest } } : State).withFault
        1#32 w w (w.extractLsb' 10 2) (w.extractLsb' 8 2))) ∧
    (s.faultCause ≠ 0#32 →
      step s = .next { s with cmd := w, host := { s.host with pending := rest } })

/-- 20_memory.md R46 ("Writing OPA, OPB or OPC has no side effect beyond storing the word"), with the
offsets of 10_state.md R22 and the byte lanes of 20_memory.md R43. -/
def Obligations.OperandWritesStoreTheWord : Prop :=
  ∀ (s : State) (w : Word) (rest : List HostEvent),
    (s.host.pending = .write 0x04 (lanesOfWord w) :: rest →
      step s = .next { s with opa := w, host := { s.host with pending := rest } }) ∧
    (s.host.pending = .write 0x08 (lanesOfWord w) :: rest →
      step s = .next { s with opb := w, host := { s.host with pending := rest } }) ∧
    (s.host.pending = .write 0x0C (lanesOfWord w) :: rest →
      step s = .next { s with opc := w, host := { s.host with pending := rest } })

/-- 10_state.md R22 and 20_memory.md R43, R46: a 32-bit read of each of the seven offsets returns that
register on the byte lanes, lane 0 carrying bits 7:0 and lane 3 bits 31:24, and changes nothing else.
HSTATUS reads 1 exactly when FAULT_CAUSE is not 0. -/
def Obligations.HostReadsReturnRegisters : Prop :=
  ∀ (s : State) (offset : Nat) (w : Word) (rest : List HostEvent),
    s.host.pending = .read offset 4 :: rest →
    (offset, w) ∈ [(0x00, s.cmd), (0x04, s.opa), (0x08, s.opb), (0x0C, s.opc), (0x10, s.res0),
      (0x14, s.res1), (0x18, if s.faultCause = 0#32 then 0#32 else 1#32)] →
    step s = .next { s with host := { s.host with pending := rest, readData := (
      [w.extractLsb' 0 8, w.extractLsb' 8 8, w.extractLsb' 16 8, w.extractLsb' 24 8] : List Byte) } }

/-- 20_memory.md R44: a host access that is not of 32 bits, not aligned to 4, not at a listed offset, or a
write to RES0, RES1 or HSTATUS has no step: it is refused. -/
def Obligations.OtherHostAccessesHaveNoStep : Prop :=
  ∀ (s : State) (offset : Nat) (rest : List HostEvent),
    (∀ lanes : List Byte, s.host.pending = .write offset lanes :: rest →
      (lanes.length ≠ 4 ∨ offset % 4 ≠ 0 ∨ offset ∉ [0x00, 0x04, 0x08, 0x0C]) →
      ∃ r, step s = .refused r) ∧
    (∀ bytes : Nat, s.host.pending = .read offset bytes :: rest →
      (bytes ≠ 4 ∨ offset % 4 ≠ 0 ∨ offset ∉ [0x00, 0x04, 0x08, 0x0C, 0x10, 0x14, 0x18]) →
      ∃ r, step s = .refused r)

/-- 70_reset_and_hazards.md R150, R151: asserting reset, whatever the state (halted or not), puts every piece
of the block's state into its reset value, with the next sampled phases; the host's later accesses stay.
That the samples are numbered is the model's choice (log 9). -/
def Obligations.ResetInputRestoresResetState : Prop :=
  ∀ (s : State) (rest : List HostEvent), s.host.pending = .reset :: rest →
    step s = .next (State.resetWith (Config.phaseInit (s.host.resets + 1))
      { s.host with pending := rest, resets := s.host.resets + 1 })

/-- 10_state.md R33 with the reset columns of R22 and R27: the reset value of every piece of state, for every
draw of the six phases. The registers that are computed (HSTATUS, ID, STATUS, MAX_CAP, PARAM_VALID and the
`rate_valid` bits) read their reset values too. -/
def Obligations.ResetValues : Prop :=
  ∀ (phases : Channel → Tap → F32) (h : HostPort) (c : Channel) (k : Tap),
    let s := State.resetWith phases h
    (s.cmd = 0#32 ∧ s.opa = 0#32 ∧ s.opb = 0#32 ∧ s.opc = 0#32 ∧ s.res0 = 0#32 ∧ s.res1 = 0#32 ∧
      hostRegValue s .hstatus = 0#32) ∧
    (s.faultCause = 0#32 ∧ s.faultInfo = 0#32 ∧ s.faultCmd = 0#32 ∧ s.faultCh = 0#2 ∧ s.faultUnit = 0#2 ∧
      globalValue s .id = 0x43485231#32 ∧ globalValue s .status = 0#32 ∧
      globalValue s .maxCap = BitVec.ofNat 32 Config.maxCapacity) ∧
    ((s.chan c).sampleRate = Config.placeholderSr ∧ (s.chan c).sized = false ∧
      (∀ p, (s.chan c).params.get p = none) ∧ paramValidWord (s.chan c).params = 0#32) ∧
    (((s.chan c).dl.get k).cap = Config.defaultCapacity ∧ ((s.chan c).dl.get k).wc = 0 ∧
      ∀ i, s.word c (.dl k) i = 0#32) ∧
    ((s.chan c).fb.cap = Config.defaultCapacity ∧ (s.chan c).fb.wc = 0 ∧ ∀ i, s.word c .fb i = 0#32) ∧
    (((s.chan c).lfo.get k).phase = phases c k ∧ ((s.chan c).lfo.get k).rate = none ∧
      lfoRateValidWord (s.chan c).lfo = 0#32 ∧ ((s.chan c).lfo.get k).sr = Config.placeholderSr)

/-- 00_scope.md R6, R7, R8, R9: the parameters are among the values the spec admits. -/
def Obligations.ParametersAreAdmissible : Prop :=
  (1 ≤ Config.maxCapacity ∧ Config.maxCapacity ≤ 2 ^ 32 - 1) ∧
  (1 ≤ Config.defaultCapacity ∧ Config.defaultCapacity ≤ Config.maxCapacity) ∧
  (isFinite Config.placeholderSr = true ∧ flt f32Zero Config.placeholderSr = true ∧
    ceilInt Config.placeholderSr ≤ (Config.maxCapacity : Int)) ∧
  ∀ n c k, fle f32Zero (Config.phaseInit n c k) = true ∧ flt (Config.phaseInit n c k) f32One = true ∧
    Config.phaseInit n c k ≠ f32NegZero

/-- 00_scope.md R10: the properties S1 to S5 of SIN2PI. -/
def Obligations.SinusoidProperties : Prop :=
  (∀ p : F32, isFinite p = true → fle f32Zero p = true → flt p f32One = true →
    fle 0xBF800000#32 (Config.sin2pi p) = true ∧ fle (Config.sin2pi p) f32One = true) ∧
  Config.sin2pi 0x00000000#32 = 0x00000000#32 ∧
  Config.sin2pi 0x3E800000#32 = 0x3F800000#32 ∧
  Config.sin2pi 0x3F000000#32 = 0x00000000#32 ∧
  Config.sin2pi 0x3F400000#32 = 0xBF800000#32

/-- 30_encoding.md R62: a command line that names three operands writes them to OPA, OPB and OPC, in that order,
and then its command word to CMD: three steps store the operands, and the fourth runs the command. -/
def Obligations.CommandLineRunsItsCommand : Prop :=
  ∀ (s : State) (i : Instr) (a b c : AsmValue) (rest : List HostEvent),
    s.host.pending = (AsmLine.command i (some a) (some b) (some c)).events ++ rest →
    ∃ t : State, Host.Core.run core 3 s = .next t ∧
      t = { s with opa := a.word, opb := b.word, opc := c.word, host := t.host } ∧
      step t = exec i { t with cmd := encode i, host := { s.host with pending := rest } }

/-! Rules of the whole machine -/

/-- 10_state.md R34: the reset state meets the invariants, with the meaning of SIZED (R31) and of the fault
registers (60_exceptions.md R137). The canonical form of a buffer is the model's choice (log 11). -/
def Obligations.ResetMeetsTheInvariants : Prop :=
  State.reset.Inv ∧ State.reset.SizedInv ∧ State.reset.FaultRegsOk

/-- 10_state.md R34: from every state that meets the invariants (capacities, cursors, phases, sample rates,
legal parameters, and the canonical form of the eight buffers, which is the model's choice, log 11), whatever
the host does next, a step that answers a next state answers one that meets them. -/
def Obligations.StepKeepsTheInvariants : Prop :=
  ∀ s t : State, s.Inv → step s = .next t → t.Inv

/-- 20_memory.md R44 ("An index outside 0 .. cap-1 is never accessed"): from a state that meets the
invariants no step stops for an access outside a buffer. That such an access would stop the model is the
model's choice (log 12). -/
def Obligations.StepNeverLeavesABuffer : Prop :=
  ∀ s : State, s.Inv → SafeStep s

/-- 10_state.md R31 with 44_engine.md R100 and 20_memory.md R52: while SIZED is 1 each of the channel's four
buffers has exactly `ceilInt(SR)` words; every step keeps this. -/
def Obligations.StepKeepsSizedBuffers : Prop :=
  ∀ s t : State, s.SizedInv → step s = .next t → t.SizedInv

/-- 60_exceptions.md R131, R132, R137: every step keeps FAULT_CAUSE at 0 or a code from 1 to 11, and the other
four fault registers at 0 while it is 0. -/
def Obligations.StepKeepsFaultRegisters : Prop :=
  ∀ s t : State, s.FaultRegsOk → step s = .next t → t.FaultRegsOk

/-- 60_exceptions.md R132, R133: a command that records a fault changes only the five fault registers, and
FAULT_CMD is its own word. -/
def Obligations.FaultsArePrecise : Prop :=
  ∀ (i : Instr) (s t : State), exec i s = .next t → s.faultCause = 0#32 → t.faultCause ≠ 0#32 →
    t = s.withFault t.faultCause t.faultInfo (encode i) t.faultCh t.faultUnit

/-- 60_exceptions.md R135: while the block is halted every command but NOP, CSR_READ and MEM_PEEK is dropped
with no effect. -/
def Obligations.HaltedBlockDropsCommands : Prop :=
  ∀ (i : Instr) (s : State), s.faultCause ≠ 0#32 → runsHalted i = false → exec i s = .next s

/-- 60_exceptions.md R135, R136: while the block is halted NOP, CSR_READ and MEM_PEEK change at most RES0. Where
they would raise on the same block not halted, they change nothing; where they would complete there, RES0 takes
the same value (but for STATUS and FAULT_CAUSE, whose values differ between the two blocks). -/
def Obligations.HaltedInspectionNeverRecords : Prop :=
  ∀ (i : Instr) (s : State), s.faultCause ≠ 0#32 → runsHalted i = true →
    ∃ v : Word, exec i s = .next { s with res0 := v } ∧
      ∀ u : State, exec i { s with faultCause := 0#32 } = .next u →
        (u.faultCause ≠ 0#32 → v = s.res0) ∧
        (u.faultCause = 0#32 → (∀ sel, i = .csrRead sel → s.opa ≠ 0x001#32 ∧ s.opa ≠ 0x002#32) → v = u.res0)

/-- 60_exceptions.md R137: only reset clears a fault. A reset puts 0 in all five fault registers and resets both
channels. Any other step leaves the five as they are, or records the first fault of a block that is not
halted, with the word in CMD as FAULT_CMD, and changes no channel and no result; and on a halted block no
channel changes. -/
def Obligations.OnlyResetClearsAFault : Prop :=
  ∀ s t : State, step s = .next t →
    (s.host.pending.head? = some .reset →
      (t.faultCause = 0#32 ∧ t.faultInfo = 0#32 ∧ t.faultCmd = 0#32 ∧ t.faultCh = 0#2 ∧ t.faultUnit = 0#2 ∧
        statusWord t = 0#32) ∧
      ∀ c, ∃ phases : Tap → F32, (∀ k, Config.phaseAdmissible (phases k) = true) ∧
        t.chan c = ChannelState.reset phases) ∧
    (s.host.pending.head? ≠ some .reset →
      ((t.faultCause = s.faultCause ∧ t.faultInfo = s.faultInfo ∧ t.faultCmd = s.faultCmd ∧
          t.faultCh = s.faultCh ∧ t.faultUnit = s.faultUnit) ∨
        (s.faultCause = 0#32 ∧ t.faultCause ≠ 0#32 ∧ t.faultCmd = t.cmd ∧ t.left = s.left ∧
          t.right = s.right ∧ t.res0 = s.res0 ∧ t.res1 = s.res1)) ∧
      (s.faultCause ≠ 0#32 → t.left = s.left ∧ t.right = s.right))

/-- 10_state.md R23: a command never changes OPA, OPB or OPC, and only the commands listed as writing RES0 or
RES1 change them, and only when they complete without a fault. (Nor does it change CMD or the host's side.)
After a reset both results hold 0. -/
def Obligations.OperandAndResultRegistersPersist : Prop :=
  (∀ (i : Instr) (s t : State), exec i s = .next t →
    t.opa = s.opa ∧ t.opb = s.opb ∧ t.opc = s.opc ∧ t.cmd = s.cmd ∧ t.host = s.host ∧
    (writesRes0 i = false → t.res0 = s.res0) ∧ (i ≠ .stProcess → t.res1 = s.res1) ∧
    (s.faultCause = 0#32 → t.faultCause ≠ 0#32 → t.res0 = s.res0 ∧ t.res1 = s.res1)) ∧
  ∀ s : State, (applyReset s).res0 = 0#32 ∧ (applyReset s).res1 = 0#32

/-- 10_state.md R36: a command executed on one channel neither changes nor reads the other channel: whatever
stands there (`o`), it stays, and everything else the command does is the same. -/
def Obligations.ChannelsAreIndependent : Prop :=
  ∀ (i : Instr) (c d : Channel) (s t : State) (o : ChannelState),
    channelsOf i = .one c → d ≠ c → exec i s = .next t →
    t.chan d = s.chan d ∧ exec i (s.setChan d o) = .next (t.setChan d o)

/-- 20_memory.md R52: only DL_INIT, DL_RESIZE, FB_RESIZE, ENG_SET_SAMPLE_RATE and reset change a capacity. A
step that is neither a reset nor a write to CMD of one of those four commands keeps all eight. -/
def Obligations.OnlyReallocationChangesACapacity : Prop :=
  ∀ s t : State, step s = .next t → s.host.pending.head? ≠ some .reset →
    (∀ w i, s.host.pending.head? = some (.write 0x00 (lanesOfWord w)) → decode w = .ok i →
      reallocates i = false) →
    ∀ c u, (t.ring c u).cap = (s.ring c u).cap

/-- 20_memory.md R41: a command leaves every buffer (capacity, cursor and every word) as it was but those the
table lists for it. -/
def Obligations.BuffersChangeOnlyByTheirCommands : Prop :=
  ∀ (i : Instr) (s t : State), exec i s = .next t →
    ∀ c u, mayWriteBuffer i c u = false → t.ring c u = s.ring c u

/-- 20_memory.md R46: NOP, CSR_READ, MEM_PEEK, LFO_VALUE and FB_READ change no state except RES0, and
repeating one gives the same result. -/
def Obligations.InspectionIsRepeatable : Prop :=
  ∀ (i : Instr) (s t : State), changesOnlyRes0 i = true → exec i s = .next t →
    t.faultCause = s.faultCause →
    t = { s with res0 := t.res0 } ∧ exec i t = .next t

/-! Delay lines -/

/-- 41_delay_line.md R70, R71: DL_INIT on a block that is not halted. A capacity from 1 to MAX_CAPACITY gives
the selected delay line that capacity, cursor 0, and OPB in every word, and clears SIZED; 0 or a larger one
raises CAPACITY. Nothing else changes; OPC is not read. -/
def Obligations.DlInitAllocates : Prop :=
  ∀ (c : Channel) (k : Tap) (s : State), s.faultCause = 0#32 →
    encodeFields (.dlInit c k) = ⟨0x01#8, k.code, c.code, 0#20⟩ ∧
    (1 ≤ s.opa.toNat → s.opa.toNat ≤ Config.maxCapacity →
      ∃ r : Ring, exec (.dlInit c k) s = .next (s.setChan c
          { s.chan c with dl := (s.chan c).dl.set k r, sized := false }) ∧
        (∀ v : Word, exec (.dlInit c k) { s with opc := v } = .next { (s.setChan c
          { s.chan c with dl := (s.chan c).dl.set k r, sized := false }) with opc := v }) ∧
        r.cap = s.opa.toNat ∧ r.wc = 0 ∧ ∀ i < r.cap, Memory.read r.buf i = s.opb) ∧
    (s.opa.toNat = 0 ∨ Config.maxCapacity < s.opa.toNat →
      exec (.dlInit c k) s = .next (s.withFault 3#32 s.opa (encode (.dlInit c k)) c.code k.code))

/-- 41_delay_line.md R72: DL_RESIZE on a block that is not halted. A capacity from 1 to MAX_CAPACITY gives the
selected delay line that capacity, cursor 0, and +0.0 in every word, and clears SIZED; 0 or a larger one
raises CAPACITY. Nothing else changes. -/
def Obligations.DlResizeClears : Prop :=
  ∀ (c : Channel) (k : Tap) (s : State), s.faultCause = 0#32 →
    encodeFields (.dlResize c k) = ⟨0x02#8, k.code, c.code, 0#20⟩ ∧
    (1 ≤ s.opa.toNat → s.opa.toNat ≤ Config.maxCapacity →
      ∃ r : Ring, exec (.dlResize c k) s = .next (s.setChan c
          { s.chan c with dl := (s.chan c).dl.set k r, sized := false }) ∧
        r.cap = s.opa.toNat ∧ r.wc = 0 ∧ ∀ i < r.cap, Memory.read r.buf i = 0x00000000#32) ∧
    (s.opa.toNat = 0 ∨ Config.maxCapacity < s.opa.toNat →
      exec (.dlResize c k) s = .next (s.withFault 3#32 s.opa (encode (.dlResize c k)) c.code k.code))

/-- 41_delay_line.md R73, R74: DL_PROCESS on a block that is not halted. With `d <= cap - 1` the input word is
written at the cursor, the cursor advances circularly, and RES0 takes the word `d` slots behind the advanced
cursor, read after the write; every other word of every buffer stays. A larger `d` raises DELAY_RANGE. -/
def Obligations.DlProcessWritesAndReads : Prop :=
  ∀ (c : Channel) (k : Tap) (s : State) (r : Ring), s.faultCause = 0#32 → r = (s.chan c).dl.get k →
    encodeFields (.dlProcess c k) = ⟨0x03#8, k.code, c.code, 0#20⟩ ∧
    (s.opb.toNat < r.cap → r.wc < r.cap → Memory.wf r.buf →
      ∃ (r' : Ring) (out : Word), exec (.dlProcess c k) s = .next { (s.setChan c
          { s.chan c with dl := (s.chan c).dl.set k r' }) with res0 := out } ∧
        r'.cap = r.cap ∧ r'.wc = (r.wc + 1) % r.cap ∧
        out = Memory.read r'.buf (((r'.wc : Int) - s.opb.toNat) % (r.cap : Int)).toNat ∧
        ∀ i, Memory.read r'.buf i = if i = r.wc then s.opa else Memory.read r.buf i) ∧
    (r.cap ≤ s.opb.toNat →
      exec (.dlProcess c k) s = .next (s.withFault 8#32 s.opb (encode (.dlProcess c k)) c.code k.code))

/-- 41_delay_line.md R75: the lag of a delay-line read. After any `n` calls on a freshly allocated unit, a call
with `1 <= d <= cap - 1` returns the input of `d - 1` calls earlier, and a call with `d = 0` that of
`cap - 1` calls earlier; before that input exists, the fill word. For every bound on capacities. -/
def Obligations.DelayLineLag : Prop :=
  ∀ (maxCap cap : Nat) (fill : Word) (r0 r : Ring) (calls : List (Word × Int)) (x : Word) (d lag : Nat),
    bufAlloc maxCap cap fill = .ok r0 →
    r = calls.foldl (fun l call => (dlStep l call.1 call.2).1) r0 →
    d ≤ cap - 1 → lag = (if d = 0 then cap - 1 else d - 1) →
    (dlStep r x d).2 =
      if lag ≤ calls.length then (calls.map Prod.fst ++ [x]).getD (calls.length - lag) fill else fill

/-! Oscillators -/

/-- 42_lfo.md R82: LFO_INIT on a block that is not halted. The checks run in the order sample rate, rate,
phase, and the first that fails is recorded; otherwise the LFO takes the phase (-0.0 stored as +0.0), the
rate, now set, and the sample rate. Nothing else changes. -/
def Obligations.LfoInitSetsTheUnit : Prop :=
  ∀ (c : Channel) (k : Tap) (s : State) (sr rate phase : F32), s.faultCause = 0#32 →
    sr = s.opa → rate = s.opb → phase = s.opc →
    encodeFields (.lfoInit c k) = ⟨0x10#8, k.code, c.code, 0#20⟩ ∧
    exec (.lfoInit c k) s =
      if ¬ (isFinite sr = true ∧ flt f32Zero sr = true) then
        .next (s.withFault 4#32 s.opa (encode (.lfoInit c k)) c.code k.code)
      else if ¬ (isFinite rate = true ∧ flt f32Zero rate = true) then
        .next (s.withFault 5#32 s.opb (encode (.lfoInit c k)) c.code k.code)
      else if ¬ (isFinite phase = true ∧ fle f32Zero phase = true ∧ flt phase f32One = true) then
        .next (s.withFault 5#32 s.opc (encode (.lfoInit c k)) c.code k.code)
      else
        .next (s.setChan c { s.chan c with lfo := ((s.chan c).lfo.set k
          ⟨if phase = 0x80000000#32 then 0x00000000#32 else phase, some rate, sr⟩) })

/-- 42_lfo.md R80, R83: LFO_VALUE on a block that is not halted writes SIN2PI of the phase to RES0 and changes
nothing else. -/
def Obligations.LfoValueReadsTheSinusoid : Prop :=
  ∀ (c : Channel) (k : Tap) (s : State), s.faultCause = 0#32 →
    encodeFields (.lfoValue c k) = ⟨0x11#8, k.code, c.code, 0#20⟩ ∧
    exec (.lfoValue c k) s = .next { s with res0 := Config.sin2pi ((s.chan c).lfo.get k).phase }

/-- 42_lfo.md R81, R84: LFO_ADVANCE on a block that is not halted. Without a rate it raises UNSET; where
`phase + rate/sr` is not finite it raises PARAM_RANGE with the rate; otherwise the phase becomes that sum
wrapped into [0, 1), and nothing else changes. -/
def Obligations.LfoAdvanceMovesThePhase : Prop :=
  ∀ (c : Channel) (k : Tap) (s : State) (l : Lfo), s.faultCause = 0#32 → l = (s.chan c).lfo.get k →
    encodeFields (.lfoAdvance c k) = ⟨0x12#8, k.code, c.code, 0#20⟩ ∧
    (l.rate = none →
      exec (.lfoAdvance c k) s = .next (s.withFault 6#32 0#32 (encode (.lfoAdvance c k)) c.code k.code)) ∧
    (∀ rate, l.rate = some rate → isFinite (fadd l.phase (fdiv rate l.sr)) = false →
      exec (.lfoAdvance c k) s = .next (s.withFault 5#32 rate (encode (.lfoAdvance c k)) c.code k.code)) ∧
    (∀ rate, l.rate = some rate → isFinite (fadd l.phase (fdiv rate l.sr)) = true →
      exec (.lfoAdvance c k) s = .next (s.setChan c { s.chan c with lfo := ((s.chan c).lfo.set k
        { l with phase := fmod1 (fadd l.phase (fdiv rate l.sr)) }) }))

/-- 42_lfo.md R85: LFO_SET_RATE on a block that is not halted. A finite rate above 0 is set and the phase and
the sample rate are kept; any other raises PARAM_RANGE. -/
def Obligations.LfoSetRateKeepsThePhase : Prop :=
  ∀ (c : Channel) (k : Tap) (s : State) (l : Lfo), s.faultCause = 0#32 → l = (s.chan c).lfo.get k →
    encodeFields (.lfoSetRate c k) = ⟨0x13#8, k.code, c.code, 0#20⟩ ∧
    (isFinite s.opa = true ∧ flt f32Zero s.opa = true →
      exec (.lfoSetRate c k) s = .next (s.setChan c { s.chan c with lfo := ((s.chan c).lfo.set k
        ⟨l.phase, some s.opa, l.sr⟩) })) ∧
    (¬ (isFinite s.opa = true ∧ flt f32Zero s.opa = true) →
      exec (.lfoSetRate c k) s = .next (s.withFault 5#32 s.opa (encode (.lfoSetRate c k)) c.code k.code))

/-- 42_lfo.md R86, first sentences: with an increment of exactly 2^-n, 0 <= n <= 24, and a start phase in
[+0.0, 1.0) that is a multiple of it, the phase returns to its start value after exactly 2^n advances, and
at no earlier number of them but 0. -/
def Obligations.PowerOfTwoIncrementIsPeriodic : Prop :=
  ∀ (l : Lfo) (rate : F32) (n : Nat), n ≤ 24 → l.rate = some rate →
    isFinite (fdiv rate l.sr) = true → scaled (fdiv rate l.sr) = 2 ^ (149 - n) →
    Config.phaseAdmissible l.phase = true → scaled l.phase % 2 ^ (149 - n) = 0 →
    (fun m => lfoStep m rate)^[2 ^ n] l = l ∧
      ∀ j, 0 < j → j < 2 ^ n → (fun m => lfoStep m rate)^[j] l ≠ l

/-! Feedback buffers -/

/-- 43_feedback_buffer.md R92: FB_RESIZE on a block that is not halted. A capacity from 1 to MAX_CAPACITY gives
the feedback buffer that capacity, cursor 0, and +0.0 in every word, and clears SIZED; 0 or a larger one
raises CAPACITY. Nothing else changes. -/
def Obligations.FbResizeClears : Prop :=
  ∀ (c : Channel) (s : State), s.faultCause = 0#32 →
    encodeFields (.fbResize c) = ⟨0x20#8, 0#2, c.code, 0#20⟩ ∧
    (1 ≤ s.opa.toNat → s.opa.toNat ≤ Config.maxCapacity →
      ∃ r : Ring, exec (.fbResize c) s = .next (s.setChan c { s.chan c with fb := r, sized := false }) ∧
        r.cap = s.opa.toNat ∧ r.wc = 0 ∧ ∀ i < r.cap, Memory.read r.buf i = 0x00000000#32) ∧
    (s.opa.toNat = 0 ∨ Config.maxCapacity < s.opa.toNat →
      exec (.fbResize c) s = .next (s.withFault 3#32 s.opa (encode (.fbResize c)) c.code 0#2))

/-- 43_feedback_buffer.md R90, R93: FB_READ on a block that is not halted. With `j <= cap - 1` RES0 takes the
word at `(wc - j) mod cap` and nothing else changes; a larger `j` raises FB_RANGE. -/
def Obligations.FbReadLooksBack : Prop :=
  ∀ (c : Channel) (s : State) (f : Ring), s.faultCause = 0#32 → f = (s.chan c).fb →
    encodeFields (.fbRead c) = ⟨0x21#8, 0#2, c.code, 0#20⟩ ∧
    (s.opa.toNat < f.cap → f.wc < f.cap →
      exec (.fbRead c) s = .next { s with
        res0 := Memory.read f.buf (((f.wc : Int) - s.opa.toNat) % (f.cap : Int)).toNat }) ∧
    (f.cap ≤ s.opa.toNat →
      exec (.fbRead c) s = .next (s.withFault 10#32 s.opa (encode (.fbRead c)) c.code 0#2))

/-- 43_feedback_buffer.md R91, R94: FB_PUSH on a block that is not halted stores OPA at the cursor and advances
it circularly; every other word stays, and nothing else changes. -/
def Obligations.FbPushStoresAtTheCursor : Prop :=
  ∀ (c : Channel) (s : State) (f : Ring), s.faultCause = 0#32 → f = (s.chan c).fb →
    encodeFields (.fbPush c) = ⟨0x22#8, 0#2, c.code, 0#20⟩ ∧
    (f.wc < f.cap → Memory.wf f.buf →
      ∃ f' : Ring, exec (.fbPush c) s = .next (s.setChan c { s.chan c with fb := f' }) ∧
        f'.cap = f.cap ∧ f'.wc = (f.wc + 1) % f.cap ∧
        ∀ i, Memory.read f'.buf i = if i = f.wc then s.opa else Memory.read f.buf i)

/-- 43_feedback_buffer.md R95: the lag of a feedback read. After `n` pushes on a freshly allocated buffer, a
lookback `j` with `1 <= j <= cap - 1` returns the word pushed `j` pushes earlier, and `j = 0` that of `cap`
pushes earlier; before that push exists, +0.0. For every bound on capacities. -/
def Obligations.FeedbackLag : Prop :=
  ∀ (maxCap cap : Nat) (f0 f : Ring) (ys : List Word) (j back : Nat),
    bufAlloc maxCap cap 0x00000000#32 = .ok f0 → f = ys.foldl fbPush f0 →
    j ≤ cap - 1 → back = (if j = 0 then cap else j) →
    fbRead f j = if back ≤ ys.length then ys.getD (ys.length - back) 0#32 else 0x00000000#32

/-! The engine -/

/-- 44_engine.md R100: ENG_SET_SAMPLE_RATE on a block that is not halted. An illegal rate raises SAMPLE_RATE, a
second of samples above MAX_CAPACITY raises CAPACITY; otherwise every addressed channel takes the rate, four
buffers of `ceilInt(sr)` words of +0.0 with cursor 0, the rate in each LFO, and SIZED = 1. The parameters,
the phases and the LFO rates are kept; nothing else changes. -/
def Obligations.SetSampleRateSizesTheBuffers : Prop :=
  ∀ (sel : ChSel) (s : State) (sr : F32), s.faultCause = 0#32 → sr = s.opa →
    encodeFields (.engSetSampleRate sel) = ⟨0x30#8, 0#2, sel.code, 0#20⟩ ∧
    (¬ (isFinite sr = true ∧ flt f32Zero sr = true) →
      exec (.engSetSampleRate sel) s =
        .next (s.withFault 4#32 s.opa (encode (.engSetSampleRate sel)) sel.code 0#2)) ∧
    (isFinite sr = true → flt f32Zero sr = true → (Config.maxCapacity : Int) < ceilInt sr →
      exec (.engSetSampleRate sel) s =
        .next (s.withFault 3#32 (sat32 (ceilInt sr)) (encode (.engSetSampleRate sel)) sel.code 0#2)) ∧
    (isFinite sr = true → flt f32Zero sr = true → ceilInt sr ≤ (Config.maxCapacity : Int) →
      ∃ t : State, exec (.engSetSampleRate sel) s = .next t ∧
        t = { s with left := t.left, right := t.right } ∧
        (∀ c, selects sel c = false → t.chan c = s.chan c) ∧
        ∀ c, selects sel c = true →
          (t.chan c).sampleRate = sr ∧ (t.chan c).sized = true ∧ (t.chan c).params = (s.chan c).params ∧
          (∀ u, ((t.ring c u).cap : Int) = ceilInt sr ∧ (t.ring c u).wc = 0 ∧
            ∀ i < (t.ring c u).cap, t.word c u i = 0x00000000#32) ∧
          ∀ k, (t.chan c).lfo.get k = { (s.chan c).lfo.get k with sr := sr })

/-- 44_engine.md R105 (rates), R106, R107, R108, R109 (commit): ENG_PROCESS on a block that is not halted and a
channel on which every check passes. The next state is the channel committed and `y` in RES0; the other
channel, the operands, RES1 and the fault registers stay. -/
def Obligations.EngProcessCommits : Prop :=
  ∀ (c : Channel) (s : State) (p : Snapshot) (d : Int) (dk : Tap → Int), s.faultCause = 0#32 →
    EngRuns (s.chan c) p d dk →
    encodeFields (.engProcess c) = ⟨0x31#8, 0#2, c.code, 0#20⟩ ∧
    ∃ (ch : ChannelState) (y : Word), EngCommits (s.chan c) s.opa p d dk ch y ∧
      exec (.engProcess c) s = .next { (s.setChan c ch) with res0 := y }

/-- 44_engine.md R101 to R105, R109 and 60_exceptions.md R131, R132: the faults of ENG_PROCESS in their order, on
a block that is not halted, each with its FAULT_INFO, the channel, and the tap that failed. -/
def Obligations.EngProcessFaultsInOrder : Prop :=
  ∀ (c : Channel) (s : State) (ch : ChannelState) (w : Word), s.faultCause = 0#32 → ch = s.chan c →
    w = encode (.engProcess c) →
    ((∃ q, ch.params.get q = none) →
      exec (.engProcess c) s = .next (s.withFault 6#32 (BitVec.ofNat 32
        ((if ch.params.delayMs = none then 1 else 0) + (if ch.params.depthMs = none then 2 else 0) +
          (if ch.params.rateHz = none then 4 else 0) + (if ch.params.feedback = none then 8 else 0) +
          (if ch.params.wet = none then 16 else 0) + (if ch.params.dry = none then 32 else 0)))
        w c.code 0#2)) ∧
    ∀ p : Snapshot,
      ch.params = ⟨some p.delayMs, some p.depthMs, some p.rate, some p.feedback, some p.wet, some p.dry⟩ →
      (ch.sized = false → exec (.engProcess c) s = .next (s.withFault 7#32 0#32 w c.code 0#2)) ∧
      (ch.sized = true → ∀ prod, prod = fmul (fdiv p.delayMs f32Thousand) ch.sampleRate →
        (isFinite prod = false →
          exec (.engProcess c) s = .next (s.withFault 8#32 0xFFFFFFFF#32 w c.code 0#2)) ∧
        (isFinite prod = true → ∀ d : Int, d = roundHA prod →
          ((ch.fb.cap : Int) - 1 < d →
            exec (.engProcess c) s = .next (s.withFault 8#32 (sat32 d) w c.code 0#2)) ∧
          (d ≤ (ch.fb.cap : Int) - 1 → ∀ dk : Tap → Int,
            (∀ k, dk k = d + roundHA (fdiv (fmul (Config.sin2pi (ch.lfo.get k).phase)
              (fmin (fmul (fdiv p.depthMs f32Thousand) ch.sampleRate) (fdiv (i2f d) f32Two))) f32Two)) →
            (∀ k, (dk k < 0 ∨ ((ch.dl.get k).cap : Int) - 1 < dk k) →
              (∀ j, j.code < k.code → 0 ≤ dk j ∧ dk j ≤ ((ch.dl.get j).cap : Int) - 1) →
              exec (.engProcess c) s =
                .next (s.withFault 9#32 (BitVec.ofInt 32 (dk k)) w c.code k.code)) ∧
            ((∀ k, 0 ≤ dk k ∧ dk k ≤ ((ch.dl.get k).cap : Int) - 1) →
              ∀ k, isFinite (fadd (ch.lfo.get k).phase (fdiv p.rate (ch.lfo.get k).sr)) = false →
                (∀ j, j.code < k.code →
                  isFinite (fadd (ch.lfo.get j).phase (fdiv p.rate (ch.lfo.get j).sr)) = true) →
                exec (.engProcess c) s = .next (s.withFault 5#32 p.rate w c.code k.code)))))

/-- 44_engine.md R110: ST_PROCESS on a block that is not halted and whose two channels pass every check. Both
channels are committed, the left from OPA and the right from OPB; RES0 takes the left result and RES1 the
right one; nothing else changes. -/
def Obligations.StProcessCommitsBoth : Prop :=
  ∀ (s : State) (pl pr : Snapshot) (dl dr : Int) (kl kr : Tap → Int), s.faultCause = 0#32 →
    EngRuns s.left pl dl kl → EngRuns s.right pr dr kr →
    encode .stProcess = 0x00000C32#32 ∧
    ∃ (chl chr : ChannelState) (yl yr : Word),
      EngCommits s.left s.opa pl dl kl chl yl ∧ EngCommits s.right s.opb pr dr kr chr yr ∧
      exec .stProcess s = .next { s with left := chl, right := chr, res0 := yl, res1 := yr }

/-- 44_engine.md R110 (corner cases, exceptions) with 60_exceptions.md R134: ST_PROCESS against ENG_PROCESS, on
a block that is not halted. (1) If ENG_PROCESS on the left and then on the right complete, ST_PROCESS gives
the same channels, with the results in RES0 and RES1. (2) If the left one faults, ST_PROCESS records the same
fault under its own word. (3) If the left one completes and the right one faults, it records the right one's
fault under its own word, and neither channel changes. -/
def Obligations.StereoFrameIsLeftThenRight : Prop :=
  ∀ (s a b : State), s.faultCause = 0#32 → exec (.engProcess .left) s = .next a →
    exec (.engProcess .right) { a with opa := s.opb } = .next b →
    (a.faultCause = 0#32 → b.faultCause = 0#32 →
      exec .stProcess s = .next { b with opa := s.opa, res0 := a.res0, res1 := b.res0 }) ∧
    (a.faultCause ≠ 0#32 →
      exec .stProcess s = .next (s.withFault a.faultCause a.faultInfo 0x00000C32#32 1#2 a.faultUnit)) ∧
    (a.faultCause = 0#32 → b.faultCause ≠ 0#32 →
      exec .stProcess s = .next (s.withFault b.faultCause b.faultInfo 0x00000C32#32 2#2 b.faultUnit))

/-- 44_engine.md R114, first sentence: two channels that are equal (parameters, sample rates, buffers, cursors,
phases) and take equal inputs give equal outputs and stay equal, frame after frame. -/
def Obligations.EqualChannelsStayEqual : Prop :=
  ∀ s t : State, s.faultCause = 0#32 → s.left = s.right → s.opa = s.opb → exec .stProcess s = .next t →
    t.left = t.right ∧ (t.faultCause = 0#32 → t.res0 = t.res1)

/-- 44_engine.md R104: the clamped depth is `(depth_ms / 1000) * SR` where that is at most half the base delay
in binary32, otherwise that half; so it is at most that half, for every depth and sample rate, an overflow
to infinity included. -/
def Obligations.DepthClampHolds : Prop :=
  ∀ (p : Snapshot) (sr : F32) (d : Int),
    (depthClamp p sr d = if fle (fmul (fdiv p.depthMs f32Thousand) sr) (fdiv (i2f d) f32Two) = true then
      fmul (fdiv p.depthMs f32Thousand) sr else fdiv (i2f d) f32Two) ∧
    fle (depthClamp p sr d) (fdiv (i2f d) f32Two) = true

/-- 44_engine.md R111: with `0 <= D <= 2^24` and a phase in [0, 1), an offset is at most `roundHA(D/4)`, which is
at most `D`, in magnitude, so that no tap delay is negative. -/
def Obligations.TapOffsetsAreBounded : Prop :=
  ∀ (p : Snapshot) (sr : F32) (l : Lfo) (d : Int), paramLegal .depthMs p.depthMs = true →
    positiveFinite sr = true → Config.phaseAdmissible l.phase = true → 0 ≤ d → d ≤ 2 ^ 24 →
    |tapOffset l (depthClamp p sr d)| ≤ roundHA (fdiv (i2f d) 0x40800000#32) ∧
      roundHA (fdiv (i2f d) 0x40800000#32) ≤ d ∧ 0 ≤ d + tapOffset l (depthClamp p sr d)

/-- 44_engine.md R112, first sentence: with `P.depth_ms = 0` (either zero) every offset is 0 and every tap delay is `D`,
whatever the phases in [0, 1) and SIN2PI. -/
def Obligations.ZeroDepthGivesEqualTaps : Prop :=
  ∀ (p : Snapshot) (sr : F32) (l : Lfo) (d : Int), p.depthMs = 0x00000000#32 ∨ p.depthMs = 0x80000000#32 →
    positiveFinite sr = true → Config.phaseAdmissible l.phase = true → 0 ≤ d →
    tapOffset l (depthClamp p sr d) = 0 ∧ d + tapOffset l (depthClamp p sr d) = d

/-- 70_reset_and_hazards.md R154: on a channel that ENG_SET_SAMPLE_RATE has sized at a rate of at least 1.0,
with legal parameters and a base delay up to 2^24, ENG_PROCESS completes without a fault exactly when the base
delay and every tap delay are below the capacity; `D + roundHA(D/4) <= cap - 1` is enough for every phase,
and with depth 0 `D <= cap - 1` is. -/
def Obligations.LegalParametersCompleteInRange : Prop :=
  ∀ (c : Channel) (s : State) (ch : ChannelState) (p : Snapshot) (prod : F32) (d : Int),
    s.faultCause = 0#32 → ch = s.chan c → ch.Wf → ch.SizedOk → ch.sized = true →
    (∀ k, (ch.lfo.get k).sr = ch.sampleRate) → fle f32One ch.sampleRate = true →
    ch.params = ⟨some p.delayMs, some p.depthMs, some p.rate, some p.feedback, some p.wet, some p.dry⟩ →
    prod = fmul (fdiv p.delayMs f32Thousand) ch.sampleRate → isFinite prod = true →
    d = roundHA prod → d ≤ 2 ^ 24 →
    ((∃ t : State, exec (.engProcess c) s = .next t ∧ t.faultCause = 0#32) ↔
      d ≤ ceilInt ch.sampleRate - 1 ∧
      ∀ k, d + tapOffset (ch.lfo.get k) (depthClamp p ch.sampleRate d) ≤ ceilInt ch.sampleRate - 1) ∧
    (d + roundHA (fdiv (i2f d) 0x40800000#32) ≤ ceilInt ch.sampleRate - 1 ∨
      (p.depthMs = 0x00000000#32 ∨ p.depthMs = 0x80000000#32) ∧ d ≤ ceilInt ch.sampleRate - 1 →
      ∃ t : State, exec (.engProcess c) s = .next t ∧ t.faultCause = 0#32)

/-! Control -/

/-- 45_control.md R120: NOP changes nothing, halted or not. -/
def Obligations.NopChangesNothing : Prop :=
  ∀ (sel : ChSel) (s : State),
    encodeFields (.nop sel) = ⟨0x00#8, 0#2, sel.code, 0#20⟩ ∧ exec (.nop sel) s = .next s

/-- 10_state.md R27 through 45_control.md R121: CSR_READ of each global register, with any CH, halted or not,
writes its value to RES0 and changes nothing else. -/
def Obligations.CsrReadGivesGlobalRegisters : Prop :=
  ∀ (sel : ChSel) (s : State) (v : Word),
    (s.opa, v) ∈ [(0x000#32, 0x43485231#32), (0x001#32, if s.faultCause = 0#32 then 0#32 else 1#32),
      (0x002#32, s.faultCause), (0x003#32, s.faultInfo), (0x004#32, s.faultCmd),
      (0x005#32, s.faultCh.setWidth 32), (0x006#32, s.faultUnit.setWidth 32),
      (0x007#32, BitVec.ofNat 32 Config.maxCapacity)] →
    encodeFields (.csrRead sel) = ⟨0x40#8, 0#2, sel.code, 0#20⟩ ∧
    exec (.csrRead sel) s = .next { s with res0 := v }

/-- 10_state.md R28 through 45_control.md R121: CSR_READ of each per-channel register that holds a value, with
one channel, halted or not, writes its value to RES0 and changes nothing else. -/
def Obligations.CsrReadGivesChannelRegisters : Prop :=
  ∀ (c : Channel) (s : State) (ch : ChannelState) (v : Word), ch = s.chan c →
    (s.opa, some v) ∈ [
      (0x010#32, some ch.sampleRate), (0x011#32, some (if ch.sized = true then 1#32 else 0#32)),
      (0x012#32, some (BitVec.ofNat 32
        ((if ch.params.delayMs = none then 0 else 1) + (if ch.params.depthMs = none then 0 else 2) +
          (if ch.params.rateHz = none then 0 else 4) + (if ch.params.feedback = none then 0 else 8) +
          (if ch.params.wet = none then 0 else 16) + (if ch.params.dry = none then 0 else 32)))),
      (0x013#32, some (BitVec.ofNat 32
        ((if ch.lfo.tap0.rate = none then 0 else 1) + (if ch.lfo.tap1.rate = none then 0 else 2) +
          (if ch.lfo.tap2.rate = none then 0 else 4)))),
      (0x014#32, ch.params.delayMs), (0x015#32, ch.params.depthMs), (0x016#32, ch.params.rateHz),
      (0x017#32, ch.params.feedback), (0x018#32, ch.params.wet), (0x019#32, ch.params.dry),
      (0x020#32, some (BitVec.ofNat 32 ch.dl.tap0.cap)), (0x021#32, some (BitVec.ofNat 32 ch.dl.tap1.cap)),
      (0x022#32, some (BitVec.ofNat 32 ch.dl.tap2.cap)), (0x023#32, some (BitVec.ofNat 32 ch.fb.cap)),
      (0x024#32, some (BitVec.ofNat 32 ch.dl.tap0.wc)), (0x025#32, some (BitVec.ofNat 32 ch.dl.tap1.wc)),
      (0x026#32, some (BitVec.ofNat 32 ch.dl.tap2.wc)), (0x027#32, some (BitVec.ofNat 32 ch.fb.wc)),
      (0x030#32, some ch.lfo.tap0.phase), (0x031#32, some ch.lfo.tap1.phase),
      (0x032#32, some ch.lfo.tap2.phase), (0x034#32, ch.lfo.tap0.rate), (0x035#32, ch.lfo.tap1.rate),
      (0x036#32, ch.lfo.tap2.rate), (0x038#32, some ch.lfo.tap0.sr), (0x039#32, some ch.lfo.tap1.sr),
      (0x03A#32, some ch.lfo.tap2.sr)] →
    exec (.csrRead (.one c)) s = .next { s with res0 := v }

/-- 45_control.md R121: the faults of CSR_READ on a block that is not halted. A number that 10_state.md R27 and
R28 do not list (so one with a bit of OPA[31:12] set, too) and a per-channel number with CH = 11 raise
ILLEGAL_CSR; a parameter or an LFO rate that is unset raises UNSET. FAULT_INFO is OPA. -/
def Obligations.CsrReadFaults : Prop :=
  ∀ (sel : ChSel) (s : State), s.faultCause = 0#32 →
    (s.opa.toNat ∉ List.range' 0x000 8 ++ List.range' 0x010 10 ++ List.range' 0x020 8 ++
        List.range' 0x030 3 ++ List.range' 0x034 3 ++ List.range' 0x038 3 →
      exec (.csrRead sel) s = .next (s.withFault 2#32 s.opa (encode (.csrRead sel)) sel.code 0#2)) ∧
    (s.opa.toNat ∈ List.range' 0x010 10 ++ List.range' 0x020 8 ++ List.range' 0x030 3 ++
        List.range' 0x034 3 ++ List.range' 0x038 3 →
      exec (.csrRead .both) s = .next (s.withFault 2#32 s.opa (encode (.csrRead .both)) 3#2 0#2)) ∧
    ∀ c ch, ch = s.chan c → (s.opa, none) ∈ [
        (0x014#32, ch.params.delayMs), (0x015#32, ch.params.depthMs), (0x016#32, ch.params.rateHz),
        (0x017#32, ch.params.feedback), (0x018#32, ch.params.wet), (0x019#32, ch.params.dry),
        (0x034#32, ch.lfo.tap0.rate), (0x035#32, ch.lfo.tap1.rate), (0x036#32, ch.lfo.tap2.rate)] →
      exec (.csrRead (.one c)) s =
        .next (s.withFault 6#32 s.opa (encode (.csrRead (.one c))) c.code 0#2)

/-- 45_control.md R122 with 10_state.md R29: CSR_WRITE on a block that is not halted. Each of the six numbers
takes a legal value as written in every addressed channel, and nothing else changes; an illegal value raises
PARAM_RANGE with OPB; any other OPA raises ILLEGAL_CSR. -/
def Obligations.CsrWriteSetsParameters : Prop :=
  ∀ (sel : ChSel) (s : State), s.faultCause = 0#32 →
    encodeFields (.csrWrite sel) = ⟨0x41#8, 0#2, sel.code, 0#20⟩ ∧
    (∀ (p : Param) (legal : Prop),
      (s.opa, p, legal) ∈ [
        (0x014#32, Param.delayMs, isFinite s.opb = true ∧ flt f32Zero s.opb = true),
        (0x015#32, Param.depthMs, isFinite s.opb = true ∧ fle f32Zero s.opb = true),
        (0x016#32, Param.rateHz, isFinite s.opb = true ∧ flt f32Zero s.opb = true),
        (0x017#32, Param.feedback, fle f32Zero s.opb = true ∧ fle s.opb 0x3F7FBE77#32 = true),
        (0x018#32, Param.wet, fle f32Zero s.opb = true ∧ fle s.opb 0x3F800000#32 = true),
        (0x019#32, Param.dry, fle f32Zero s.opb = true ∧ fle s.opb 0x3F800000#32 = true)] →
      (legal → ∃ t : State, exec (.csrWrite sel) s = .next t ∧
        t = { s with left := t.left, right := t.right } ∧
        ∀ c, t.chan c = { s.chan c with params := (t.chan c).params } ∧
          ∀ q, (t.chan c).params.get q =
            if selects sel c = true ∧ q = p then some s.opb else (s.chan c).params.get q) ∧
      (¬ legal → exec (.csrWrite sel) s =
        .next (s.withFault 5#32 s.opb (encode (.csrWrite sel)) sel.code 0#2))) ∧
    (s.opa.toNat ∉ List.range' 0x014 6 →
      exec (.csrWrite sel) s = .next (s.withFault 2#32 s.opa (encode (.csrWrite sel)) sel.code 0#2))

/-- 45_control.md R123: MEM_PEEK. With `i <= cap - 1` RES0 takes the word at index `i` of the selected buffer and
nothing else changes, halted or not; on a block that is not halted a larger index raises INDEX_RANGE. -/
def Obligations.MemPeekReadsAWord : Prop :=
  ∀ (c : Channel) (u : PeekUnit) (s : State),
    encodeFields (.memPeek c u) = ⟨0x42#8, u.code, c.code, 0#20⟩ ∧
    (s.opa.toNat < (s.ring c u).cap →
      exec (.memPeek c u) s = .next { s with res0 := s.word c u s.opa.toNat }) ∧
    ((s.ring c u).cap ≤ s.opa.toNat → s.faultCause = 0#32 →
      exec (.memPeek c u) s = .next (s.withFault 11#32 s.opa (encode (.memPeek c u)) c.code u.code))

/-! Arithmetic -/

/-- 00_scope.md R14, with the signed zeros of 44_engine.md R106: the sum, product and quotient of finite values are
the exact results rounded to nearest, ties to even, overflow to an infinity included; subnormal operands and
results are kept. A NaN operand gives a NaN, and a NaN result is always the canonical one. An exact sum of zero is
+0.0, or -0.0 where both operands have the sign; a product and a quotient that are not NaN have the exclusive or
of the signs, so a zero too. An infinity plus a finite value or an infinity of its sign is that infinity; infinity
minus infinity, zero times infinity, zero over zero and infinity over infinity are NaN; an infinity times any other
value, an infinity over a finite value, and a finite value that is not zero over a zero are infinities; a finite
value over an infinity is a zero. The IEEE 754 definitions are the model's presumption, from outside the spec
(log 10). -/
def Obligations.ArithmeticRoundsToNearestEven : Prop :=
  (∀ a b : F32, isFinite a = true → isFinite b = true →
    RoundsTo (scaled a + scaled b) 1 (fadd a b) ∧
    RoundsTo (scaled a * scaled b) (2 ^ 149) (fmul a b) ∧
    (scaled b ≠ 0 → RoundsTo (scaled a * 2 ^ 149 * (scaled b).sign) |scaled b| (fdiv a b))) ∧
  (∀ a b r : F32, r ∈ [fadd a b, fmul a b, fdiv a b] →
    (isNaN a = true ∨ isNaN b = true → isNaN r = true) ∧ (isNaN r = true → r = 0x7FC00000#32)) ∧
  (∀ a b : F32,
    (isFinite a = true → isFinite b = true → scaled a + scaled b = 0 →
      fadd a b = if f32Neg a = true ∧ f32Neg b = true then 0x80000000#32 else 0x00000000#32) ∧
    (isNaN (fmul a b) = false → f32Neg (fmul a b) = (f32Neg a != f32Neg b)) ∧
    (isNaN (fdiv a b) = false → f32Neg (fdiv a b) = (f32Neg a != f32Neg b))) ∧
  ∀ a b : F32,
    (isInf a = true →
      (isFinite b = true → fadd a b = a ∧ fadd b a = a ∧ isInf (fdiv a b) = true ∧ isZero (fdiv b a) = true) ∧
      (isInf b = true → (fadd a b = if f32Neg a = f32Neg b then a else 0x7FC00000#32) ∧
        fdiv a b = 0x7FC00000#32) ∧
      (isZero b = true → fmul a b = 0x7FC00000#32 ∧ fmul b a = 0x7FC00000#32) ∧
      (isNaN b = false → isZero b = false → isInf (fmul a b) = true ∧ isInf (fmul b a) = true)) ∧
    (isZero b = true →
      (isZero a = true → fdiv a b = 0x7FC00000#32) ∧
      (isFinite a = true → isZero a = false → isInf (fdiv a b) = true))

/-- 00_scope.md R15: the comparisons of finite values follow their values, -0.0 equal to +0.0; -infinity is below
and +infinity above every finite value, and an infinity equals itself alone; every comparison with a NaN is
false; `fmin(a, b)` is `a` if `a <= b`, otherwise `b`. The place of the infinities is that of IEEE 754, which R15
names and does not define (log 10). -/
def Obligations.ComparisonsFollowValues : Prop :=
  ∀ a b : F32,
    (isFinite a = true → isFinite b = true →
      (flt a b = true ↔ scaled a < scaled b) ∧ (fle a b = true ↔ scaled a ≤ scaled b)) ∧
    (isInf a = true → isFinite b = true →
      (flt a b = true ↔ f32Neg a = true) ∧ (fle a b = true ↔ f32Neg a = true) ∧
      (flt b a = true ↔ f32Neg a = false) ∧ (fle b a = true ↔ f32Neg a = false)) ∧
    (isInf a = true → isInf b = true →
      (flt a b = true ↔ f32Neg a = true ∧ f32Neg b = false) ∧
      (fle a b = true ↔ f32Neg a = true ∨ f32Neg b = false)) ∧
    (isNaN a = true ∨ isNaN b = true → flt a b = false ∧ fle a b = false) ∧
    fmin a b = (if fle a b = true then a else b)

/-- 00_scope.md R16, R18: `roundHA` of a finite value is the nearest integer, a tie going away from zero;
`ceilInt` is the least integer not below it; `i2f` is exact up to 2^24. -/
def Obligations.IntegerConversionsAreExact : Prop :=
  (∀ a : F32, isFinite a = true →
    2 * |scaled a - roundHA a * 2 ^ 149| ≤ 2 ^ 149 ∧
    (2 * |scaled a - roundHA a * 2 ^ 149| = 2 ^ 149 → |scaled a| < |roundHA a * 2 ^ 149|)) ∧
  (∀ a : F32, isFinite a = true →
    scaled a ≤ ceilInt a * 2 ^ 149 ∧ ∀ n : Int, scaled a ≤ n * 2 ^ 149 → ceilInt a ≤ n) ∧
  ∀ n : Int, |n| ≤ 2 ^ 24 → isFinite (i2f n) = true ∧ scaled (i2f n) = n * 2 ^ 149

/-- 00_scope.md R17: `fmod1` of a finite value that is not negative is exact, lies in [0, 1), and is never -0.0. -/
def Obligations.PhaseWrapIsExact : Prop :=
  ∀ p : F32, isFinite p = true → 0 ≤ scaled p →
    scaled (fmod1 p) = scaled p % 2 ^ 149 ∧ Config.phaseAdmissible (fmod1 p) = true
end

