-- ==== Sys2Proof/Laws/Decode.lean ====
section
/-! SUPPORT. The byte lanes and the fields of a word lose nothing, and each code names one channel, unit or
selection (20_memory.md R43, 30_encoding.md R55 to R57). -/

namespace Sys2Proof

/-- The lanes of a word carry that word (20_memory.md R43). -/
@[simp] theorem wordOfLanes_lanesOfWord (w : Word) : wordOfLanes (lanesOfWord w) = some w := by
  have h := w.isLt
  simp only [lanesOfWord, wordOfLanes, Option.some.injEq]
  apply BitVec.eq_of_toNat_eq
  simp only [BitVec.toNat_ofNat, BitVec.extractLsb'_toNat, Nat.shiftRight_eq_div_pow]
  omega

/-- Lanes that carry a word are its lanes (20_memory.md R43). -/
theorem wordOfLanes_some {lanes : List Byte} {w : Word} (h : wordOfLanes lanes = some w) :
    lanes = lanesOfWord w := by
  unfold wordOfLanes at h
  split at h
  · next b0 b1 b2 b3 =>
    obtain rfl := Option.some.inj h
    have h0 := b0.isLt
    have h1 := b1.isLt
    have h2 := b2.isLt
    have h3 := b3.isLt
    simp only [lanesOfWord, List.cons.injEq, and_true]
    refine ⟨?_, ?_, ?_, ?_⟩ <;> apply BitVec.eq_of_toNat_eq <;>
      simp only [BitVec.toNat_ofNat, BitVec.extractLsb'_toNat, Nat.shiftRight_eq_div_pow] <;> omega
  · cases h

/-- A word's fields make that word (30_encoding.md R55). -/
@[simp] theorem wordOfFields_fieldsOf (w : Word) : wordOfFields (fieldsOf w) = w := by
  have h := w.isLt
  apply BitVec.eq_of_toNat_eq
  simp only [wordOfFields, fieldsOf, BitVec.toNat_ofNat, BitVec.extractLsb'_toNat,
    Nat.shiftRight_eq_div_pow]
  omega

/-- The word made of fields has those fields (30_encoding.md R55). -/
@[simp] theorem fieldsOf_wordOfFields (f : Fields) : fieldsOf (wordOfFields f) = f := by
  obtain ⟨op, u, ch, rsv⟩ := f
  have h0 := op.isLt
  have h1 := u.isLt
  have h2 := ch.isLt
  have h3 := rsv.isLt
  simp only [wordOfFields, fieldsOf, Fields.mk.injEq]
  refine ⟨?_, ?_, ?_, ?_⟩ <;> apply BitVec.eq_of_toNat_eq <;>
    simp only [BitVec.toNat_ofNat, BitVec.extractLsb'_toNat, Nat.shiftRight_eq_div_pow] <;> omega

/-- The fields of a command's word (30_encoding.md R59). -/
@[simp] theorem fieldsOf_encode (i : Instr) : fieldsOf (encode i) = encodeFields i :=
  fieldsOf_wordOfFields _

@[simp] theorem channelOfCode_code (c : Channel) : channelOfCode c.code = some c := by cases c <;> rfl

@[simp] theorem chSelOfCode_code (sel : ChSel) : chSelOfCode sel.code = some sel := by
  rcases sel with (_ | _) | _ <;> rfl

@[simp] theorem tapOfCode_code (k : Tap) : tapOfCode k.code = some k := by cases k <;> rfl

@[simp] theorem peekUnitOfCode_code (u : PeekUnit) : peekUnitOfCode u.code = u := by
  rcases u with (_ | _ | _) | _ <;> rfl

/-- A code read as a channel is that channel's code (30_encoding.md R56). -/
theorem channelOfCode_some {ch : BitVec 2} {c : Channel} (h : channelOfCode ch = some c) : ch = c.code := by
  unfold channelOfCode at h
  split at h
  · next h1 => cases h; exact h1
  · split at h
    · next h2 => cases h; exact h2
    · cases h

/-- A code read as a selection is that selection's code (30_encoding.md R56). -/
theorem chSelOfCode_some {ch : BitVec 2} {sel : ChSel} (h : chSelOfCode ch = some sel) :
    ch = sel.code := by
  unfold chSelOfCode at h
  split at h
  · next h1 => cases h; exact h1
  · split at h
    · next h2 => cases h; exact h2
    · split at h
      · next h3 => cases h; exact h3
      · cases h

/-- A code read as a unit is that unit's code (30_encoding.md R57). -/
theorem tapOfCode_some {u : BitVec 2} {k : Tap} (h : tapOfCode u = some k) : u = k.code := by
  unfold tapOfCode at h
  split at h
  · next h1 => cases h; exact h1
  · split at h
    · next h2 => cases h; exact h2
    · split at h
      · next h3 => cases h; exact h3
      · cases h

/-- Every code of U names one buffer of MEM_PEEK (30_encoding.md R57). -/
theorem peekUnitOfCode_eq (u : BitVec 2) : (peekUnitOfCode u).code = u := by
  revert u; decide

end Sys2Proof
end

