-- ==== Sys2Proof/Laws/State.lean ====
section
/-! SUPPORT. One lemma for each field and each update of the state, true by unfolding the update once. -/

namespace Sys2Proof.Machine

section

variable (s : State) (w : Word) (r : Raise) (c d : Channel) (ch : ChannelState)
  (f : ChannelState → ChannelState)

/-! `State.setRes0` -/

@[simp] theorem State.setRes0_cmd : (s.setRes0 w).cmd = s.cmd := rfl
@[simp] theorem State.setRes0_opa : (s.setRes0 w).opa = s.opa := rfl
@[simp] theorem State.setRes0_opb : (s.setRes0 w).opb = s.opb := rfl
@[simp] theorem State.setRes0_opc : (s.setRes0 w).opc = s.opc := rfl
@[simp] theorem State.setRes0_res0 : (s.setRes0 w).res0 = w := rfl
@[simp] theorem State.setRes0_res1 : (s.setRes0 w).res1 = s.res1 := rfl
@[simp] theorem State.setRes0_faultCause : (s.setRes0 w).faultCause = s.faultCause := rfl
@[simp] theorem State.setRes0_faultInfo : (s.setRes0 w).faultInfo = s.faultInfo := rfl
@[simp] theorem State.setRes0_faultCmd : (s.setRes0 w).faultCmd = s.faultCmd := rfl
@[simp] theorem State.setRes0_faultCh : (s.setRes0 w).faultCh = s.faultCh := rfl
@[simp] theorem State.setRes0_faultUnit : (s.setRes0 w).faultUnit = s.faultUnit := rfl
@[simp] theorem State.setRes0_left : (s.setRes0 w).left = s.left := rfl
@[simp] theorem State.setRes0_right : (s.setRes0 w).right = s.right := rfl
@[simp] theorem State.setRes0_host : (s.setRes0 w).host = s.host := rfl
@[simp] theorem State.setRes0_chan : (s.setRes0 w).chan c = s.chan c := by cases c <;> rfl

/-! `State.setRes1` -/

@[simp] theorem State.setRes1_cmd : (s.setRes1 w).cmd = s.cmd := rfl
@[simp] theorem State.setRes1_opa : (s.setRes1 w).opa = s.opa := rfl
@[simp] theorem State.setRes1_opb : (s.setRes1 w).opb = s.opb := rfl
@[simp] theorem State.setRes1_opc : (s.setRes1 w).opc = s.opc := rfl
@[simp] theorem State.setRes1_res0 : (s.setRes1 w).res0 = s.res0 := rfl
@[simp] theorem State.setRes1_res1 : (s.setRes1 w).res1 = w := rfl
@[simp] theorem State.setRes1_faultCause : (s.setRes1 w).faultCause = s.faultCause := rfl
@[simp] theorem State.setRes1_faultInfo : (s.setRes1 w).faultInfo = s.faultInfo := rfl
@[simp] theorem State.setRes1_faultCmd : (s.setRes1 w).faultCmd = s.faultCmd := rfl
@[simp] theorem State.setRes1_faultCh : (s.setRes1 w).faultCh = s.faultCh := rfl
@[simp] theorem State.setRes1_faultUnit : (s.setRes1 w).faultUnit = s.faultUnit := rfl
@[simp] theorem State.setRes1_left : (s.setRes1 w).left = s.left := rfl
@[simp] theorem State.setRes1_right : (s.setRes1 w).right = s.right := rfl
@[simp] theorem State.setRes1_host : (s.setRes1 w).host = s.host := rfl
@[simp] theorem State.setRes1_chan : (s.setRes1 w).chan c = s.chan c := by cases c <;> rfl

/-! `State.setChan` -/

@[simp] theorem State.setChan_cmd : (s.setChan c ch).cmd = s.cmd := by cases c <;> rfl
@[simp] theorem State.setChan_opa : (s.setChan c ch).opa = s.opa := by cases c <;> rfl
@[simp] theorem State.setChan_opb : (s.setChan c ch).opb = s.opb := by cases c <;> rfl
@[simp] theorem State.setChan_opc : (s.setChan c ch).opc = s.opc := by cases c <;> rfl
@[simp] theorem State.setChan_res0 : (s.setChan c ch).res0 = s.res0 := by cases c <;> rfl
@[simp] theorem State.setChan_res1 : (s.setChan c ch).res1 = s.res1 := by cases c <;> rfl
@[simp] theorem State.setChan_faultCause :
    (s.setChan c ch).faultCause = s.faultCause := by cases c <;> rfl
@[simp] theorem State.setChan_faultInfo :
    (s.setChan c ch).faultInfo = s.faultInfo := by cases c <;> rfl
@[simp] theorem State.setChan_faultCmd :
    (s.setChan c ch).faultCmd = s.faultCmd := by cases c <;> rfl
@[simp] theorem State.setChan_faultCh : (s.setChan c ch).faultCh = s.faultCh := by cases c <;> rfl
@[simp] theorem State.setChan_faultUnit :
    (s.setChan c ch).faultUnit = s.faultUnit := by cases c <;> rfl
@[simp] theorem State.setChan_host : (s.setChan c ch).host = s.host := by cases c <;> rfl
@[simp] theorem State.setChan_chan_self : (s.setChan c ch).chan c = ch := by cases c <;> rfl
@[simp] theorem State.setChan_left_left : (s.setChan .left ch).left = ch := rfl
@[simp] theorem State.setChan_left_right : (s.setChan .left ch).right = s.right := rfl
@[simp] theorem State.setChan_right_right : (s.setChan .right ch).right = ch := rfl
@[simp] theorem State.setChan_right_left : (s.setChan .right ch).left = s.left := rfl
@[simp] theorem State.chan_left : s.chan .left = s.left := rfl
@[simp] theorem State.chan_right : s.chan .right = s.right := rfl
theorem State.setChan_chan :
    (s.setChan c ch).chan d = if d = c then ch else s.chan d := by
  cases c <;> cases d <;> rfl

theorem State.setChan_chan_other (h : d ≠ c) : (s.setChan c ch).chan d = s.chan d := by
  cases c <;> cases d <;> first | rfl | exact absurd rfl h

/-! `State.onChannels` -/

variable (sel : ChSel)

@[simp] theorem State.onChannels_cmd :
    (s.onChannels sel f).cmd = s.cmd := by
  rcases sel with (_ | _) | _ <;> rfl
@[simp] theorem State.onChannels_opa :
    (s.onChannels sel f).opa = s.opa := by
  rcases sel with (_ | _) | _ <;> rfl
@[simp] theorem State.onChannels_opb :
    (s.onChannels sel f).opb = s.opb := by
  rcases sel with (_ | _) | _ <;> rfl
@[simp] theorem State.onChannels_opc :
    (s.onChannels sel f).opc = s.opc := by
  rcases sel with (_ | _) | _ <;> rfl
@[simp] theorem State.onChannels_res0 :
    (s.onChannels sel f).res0 = s.res0 := by
  rcases sel with (_ | _) | _ <;> rfl
@[simp] theorem State.onChannels_res1 :
    (s.onChannels sel f).res1 = s.res1 := by
  rcases sel with (_ | _) | _ <;> rfl
@[simp] theorem State.onChannels_faultCause :
    (s.onChannels sel f).faultCause = s.faultCause := by
  rcases sel with (_ | _) | _ <;> rfl
@[simp] theorem State.onChannels_faultInfo :
    (s.onChannels sel f).faultInfo = s.faultInfo := by
  rcases sel with (_ | _) | _ <;> rfl
@[simp] theorem State.onChannels_faultCmd :
    (s.onChannels sel f).faultCmd = s.faultCmd := by
  rcases sel with (_ | _) | _ <;> rfl
@[simp] theorem State.onChannels_faultCh :
    (s.onChannels sel f).faultCh = s.faultCh := by
  rcases sel with (_ | _) | _ <;> rfl
@[simp] theorem State.onChannels_faultUnit :
    (s.onChannels sel f).faultUnit = s.faultUnit := by
  rcases sel with (_ | _) | _ <;> rfl
@[simp] theorem State.onChannels_host :
    (s.onChannels sel f).host = s.host := by
  rcases sel with (_ | _) | _ <;> rfl
@[simp] theorem State.onChannels_one : s.onChannels (.one c) f = s.setChan c (f (s.chan c)) := rfl
@[simp] theorem State.onChannels_both_chan :
    (s.onChannels .both f).chan c = f (s.chan c) := by cases c <;> rfl

/-! `State.setCmd` -/

@[simp] theorem State.setCmd_cmd : (s.setCmd w).cmd = w := rfl
@[simp] theorem State.setCmd_opa : (s.setCmd w).opa = s.opa := rfl
@[simp] theorem State.setCmd_opb : (s.setCmd w).opb = s.opb := rfl
@[simp] theorem State.setCmd_opc : (s.setCmd w).opc = s.opc := rfl
@[simp] theorem State.setCmd_res0 : (s.setCmd w).res0 = s.res0 := rfl
@[simp] theorem State.setCmd_res1 : (s.setCmd w).res1 = s.res1 := rfl
@[simp] theorem State.setCmd_faultCause : (s.setCmd w).faultCause = s.faultCause := rfl
@[simp] theorem State.setCmd_faultInfo : (s.setCmd w).faultInfo = s.faultInfo := rfl
@[simp] theorem State.setCmd_faultCmd : (s.setCmd w).faultCmd = s.faultCmd := rfl
@[simp] theorem State.setCmd_faultCh : (s.setCmd w).faultCh = s.faultCh := rfl
@[simp] theorem State.setCmd_faultUnit : (s.setCmd w).faultUnit = s.faultUnit := rfl
@[simp] theorem State.setCmd_left : (s.setCmd w).left = s.left := rfl
@[simp] theorem State.setCmd_right : (s.setCmd w).right = s.right := rfl
@[simp] theorem State.setCmd_host : (s.setCmd w).host = s.host := rfl
@[simp] theorem State.setCmd_chan : (s.setCmd w).chan c = s.chan c := by cases c <;> rfl

/-! `State.setPending` -/

variable (rest : List HostEvent)

@[simp] theorem State.setPending_cmd : (s.setPending rest).cmd = s.cmd := rfl
@[simp] theorem State.setPending_opa : (s.setPending rest).opa = s.opa := rfl
@[simp] theorem State.setPending_opb : (s.setPending rest).opb = s.opb := rfl
@[simp] theorem State.setPending_opc : (s.setPending rest).opc = s.opc := rfl
@[simp] theorem State.setPending_res0 : (s.setPending rest).res0 = s.res0 := rfl
@[simp] theorem State.setPending_res1 : (s.setPending rest).res1 = s.res1 := rfl
@[simp] theorem State.setPending_faultCause : (s.setPending rest).faultCause = s.faultCause := rfl
@[simp] theorem State.setPending_faultInfo : (s.setPending rest).faultInfo = s.faultInfo := rfl
@[simp] theorem State.setPending_faultCmd : (s.setPending rest).faultCmd = s.faultCmd := rfl
@[simp] theorem State.setPending_faultCh : (s.setPending rest).faultCh = s.faultCh := rfl
@[simp] theorem State.setPending_faultUnit : (s.setPending rest).faultUnit = s.faultUnit := rfl
@[simp] theorem State.setPending_left : (s.setPending rest).left = s.left := rfl
@[simp] theorem State.setPending_right : (s.setPending rest).right = s.right := rfl
@[simp] theorem State.setPending_pending : (s.setPending rest).host.pending = rest := rfl
@[simp] theorem State.setPending_readData : (s.setPending rest).host.readData = s.host.readData := rfl
@[simp] theorem State.setPending_resets : (s.setPending rest).host.resets = s.host.resets := rfl
@[simp] theorem State.setPending_chan : (s.setPending rest).chan c = s.chan c := by cases c <;> rfl

/-! `takeFault` -/

@[simp] theorem takeFault_cmd : (takeFault w r s).cmd = s.cmd := rfl
@[simp] theorem takeFault_opa : (takeFault w r s).opa = s.opa := rfl
@[simp] theorem takeFault_opb : (takeFault w r s).opb = s.opb := rfl
@[simp] theorem takeFault_opc : (takeFault w r s).opc = s.opc := rfl
@[simp] theorem takeFault_res0 : (takeFault w r s).res0 = s.res0 := rfl
@[simp] theorem takeFault_res1 : (takeFault w r s).res1 = s.res1 := rfl
@[simp] theorem takeFault_faultCause : (takeFault w r s).faultCause = causeCode r.cause := rfl
@[simp] theorem takeFault_faultInfo : (takeFault w r s).faultInfo = r.info := rfl
@[simp] theorem takeFault_faultCmd : (takeFault w r s).faultCmd = w := rfl
@[simp] theorem takeFault_faultCh :
    (takeFault w r s).faultCh = r.channel.getD (w.extractLsb' 10 2) := rfl
@[simp] theorem takeFault_faultUnit :
    (takeFault w r s).faultUnit = r.unit.getD (w.extractLsb' 8 2) := rfl
@[simp] theorem takeFault_left : (takeFault w r s).left = s.left := rfl
@[simp] theorem takeFault_right : (takeFault w r s).right = s.right := rfl
@[simp] theorem takeFault_host : (takeFault w r s).host = s.host := rfl
@[simp] theorem takeFault_chan : (takeFault w r s).chan c = s.chan c := by cases c <;> rfl

end

section

variable {α β : Type} (t : Taps α) (a : α) (j k : Tap) (g : α → β)

/-! `Taps` -/

@[simp] theorem Taps.get_tap0 : t.get .tap0 = t.tap0 := rfl
@[simp] theorem Taps.get_tap1 : t.get .tap1 = t.tap1 := rfl
@[simp] theorem Taps.get_tap2 : t.get .tap2 = t.tap2 := rfl
@[simp] theorem Taps.get_set_self : (t.set k a).get k = a := by cases k <;> rfl
@[simp] theorem Taps.get_map : (t.map g).get k = g (t.get k) := by cases k <;> rfl

theorem Taps.get_set : (t.set k a).get j = if j = k then a else t.get j := by
  cases j <;> cases k <;> rfl

theorem Taps.get_set_other (h : j ≠ k) : (t.set k a).get j = t.get j := by
  cases j <;> cases k <;> first | rfl | exact absurd rfl h

/-- Three units are equal when each of them is. -/
theorem Taps.ext_get {t u : Taps α} (h : ∀ k, t.get k = u.get k) : t = u := by
  exact congr (congr (congrArg Taps.mk (h .tap0)) (h .tap1)) (h .tap2)

end

section

variable (p : Params) (q r : Param) (v : F32)

/-! `Params` -/

@[simp] theorem Params.get_set_self : (p.set q v).get q = some v := by cases q <;> rfl

theorem Params.get_set : (p.set q v).get r = if r = q then some v else p.get r := by
  cases q <;> cases r <;> rfl

end

section

variable (ch : ChannelState) (k : Tap) (r : Ring) (l : Lfo) (b : Bool) (q : Param) (v : F32)

/-! `ChannelState.setDl` -/

@[simp] theorem ChannelState.setDl_sampleRate : (ch.setDl k r).sampleRate = ch.sampleRate := rfl
@[simp] theorem ChannelState.setDl_sized : (ch.setDl k r).sized = ch.sized := rfl
@[simp] theorem ChannelState.setDl_params : (ch.setDl k r).params = ch.params := rfl
@[simp] theorem ChannelState.setDl_dl : (ch.setDl k r).dl = ch.dl.set k r := rfl
@[simp] theorem ChannelState.setDl_fb : (ch.setDl k r).fb = ch.fb := rfl
@[simp] theorem ChannelState.setDl_lfo : (ch.setDl k r).lfo = ch.lfo := rfl

/-! `ChannelState.setFb` -/

@[simp] theorem ChannelState.setFb_sampleRate : (ch.setFb r).sampleRate = ch.sampleRate := rfl
@[simp] theorem ChannelState.setFb_sized : (ch.setFb r).sized = ch.sized := rfl
@[simp] theorem ChannelState.setFb_params : (ch.setFb r).params = ch.params := rfl
@[simp] theorem ChannelState.setFb_dl : (ch.setFb r).dl = ch.dl := rfl
@[simp] theorem ChannelState.setFb_fb : (ch.setFb r).fb = r := rfl
@[simp] theorem ChannelState.setFb_lfo : (ch.setFb r).lfo = ch.lfo := rfl

/-! `ChannelState.setLfo` -/

@[simp] theorem ChannelState.setLfo_sampleRate : (ch.setLfo k l).sampleRate = ch.sampleRate := rfl
@[simp] theorem ChannelState.setLfo_sized : (ch.setLfo k l).sized = ch.sized := rfl
@[simp] theorem ChannelState.setLfo_params : (ch.setLfo k l).params = ch.params := rfl
@[simp] theorem ChannelState.setLfo_dl : (ch.setLfo k l).dl = ch.dl := rfl
@[simp] theorem ChannelState.setLfo_fb : (ch.setLfo k l).fb = ch.fb := rfl
@[simp] theorem ChannelState.setLfo_lfo : (ch.setLfo k l).lfo = ch.lfo.set k l := rfl

/-! `ChannelState.setSized` -/

@[simp] theorem ChannelState.setSized_sampleRate : (ch.setSized b).sampleRate = ch.sampleRate := rfl
@[simp] theorem ChannelState.setSized_sized : (ch.setSized b).sized = b := rfl
@[simp] theorem ChannelState.setSized_params : (ch.setSized b).params = ch.params := rfl
@[simp] theorem ChannelState.setSized_dl : (ch.setSized b).dl = ch.dl := rfl
@[simp] theorem ChannelState.setSized_fb : (ch.setSized b).fb = ch.fb := rfl
@[simp] theorem ChannelState.setSized_lfo : (ch.setSized b).lfo = ch.lfo := rfl

/-! `ChannelState.setParam` -/

@[simp] theorem ChannelState.setParam_sampleRate :
    (ch.setParam q v).sampleRate = ch.sampleRate := rfl
@[simp] theorem ChannelState.setParam_sized : (ch.setParam q v).sized = ch.sized := rfl
@[simp] theorem ChannelState.setParam_params : (ch.setParam q v).params = ch.params.set q v := rfl
@[simp] theorem ChannelState.setParam_dl : (ch.setParam q v).dl = ch.dl := rfl
@[simp] theorem ChannelState.setParam_fb : (ch.setParam q v).fb = ch.fb := rfl
@[simp] theorem ChannelState.setParam_lfo : (ch.setParam q v).lfo = ch.lfo := rfl

/-! `ChannelState.resize` -/

@[simp] theorem ChannelState.resize_sampleRate : (ch.resize v r).sampleRate = v := rfl
@[simp] theorem ChannelState.resize_sized : (ch.resize v r).sized = true := rfl
@[simp] theorem ChannelState.resize_params : (ch.resize v r).params = ch.params := rfl
@[simp] theorem ChannelState.resize_dl : (ch.resize v r).dl = ⟨r, r, r⟩ := rfl
@[simp] theorem ChannelState.resize_fb : (ch.resize v r).fb = r := rfl
@[simp] theorem ChannelState.resize_lfo :
    (ch.resize v r).lfo = ch.lfo.map fun l => { l with sr := v } := rfl

end

section

variable (r : Ring) (x : Word)

/-! `Ring.push` -/

@[simp] theorem Ring.push_cap : (r.push x).cap = r.cap := rfl
@[simp] theorem Ring.push_wc : (r.push x).wc = (r.wc + 1) % r.cap := rfl
@[simp] theorem Ring.push_buf : (r.push x).buf = Memory.write r.buf r.wc x := rfl

end

section

variable (phases : Channel → Tap → F32) (h : HostPort)

/-! `State.resetWith` -/

@[simp] theorem State.resetWith_cmd : (State.resetWith phases h).cmd = 0#32 := rfl
@[simp] theorem State.resetWith_opa : (State.resetWith phases h).opa = 0#32 := rfl
@[simp] theorem State.resetWith_opb : (State.resetWith phases h).opb = 0#32 := rfl
@[simp] theorem State.resetWith_opc : (State.resetWith phases h).opc = 0#32 := rfl
@[simp] theorem State.resetWith_res0 : (State.resetWith phases h).res0 = 0#32 := rfl
@[simp] theorem State.resetWith_res1 : (State.resetWith phases h).res1 = 0#32 := rfl
@[simp] theorem State.resetWith_faultCause : (State.resetWith phases h).faultCause = 0#32 := rfl
@[simp] theorem State.resetWith_faultInfo : (State.resetWith phases h).faultInfo = 0#32 := rfl
@[simp] theorem State.resetWith_faultCmd : (State.resetWith phases h).faultCmd = 0#32 := rfl
@[simp] theorem State.resetWith_faultCh : (State.resetWith phases h).faultCh = 0#2 := rfl
@[simp] theorem State.resetWith_faultUnit : (State.resetWith phases h).faultUnit = 0#2 := rfl
@[simp] theorem State.resetWith_left :
    (State.resetWith phases h).left = ChannelState.reset (phases .left) := rfl
@[simp] theorem State.resetWith_right :
    (State.resetWith phases h).right = ChannelState.reset (phases .right) := rfl
@[simp] theorem State.resetWith_host : (State.resetWith phases h).host = h := rfl
@[simp] theorem State.resetWith_chan (c : Channel) :
    (State.resetWith phases h).chan c = ChannelState.reset (phases c) := by cases c <;> rfl

end

end Sys2Proof.Machine
end

