-- ==== Sys2Proof/Laws/Memory.lean ====
section
/-! SUPPORT. What a read after a write, and after an allocation, gives; and that every memory operation
keeps the canonical form. -/

namespace Sys2Proof.Machine

@[simp] theorem Memory.read_nil (i : Nat) : Memory.read [] i = 0#32 := rfl

theorem Memory.read_cons (a : Nat) (v : Word) (rest : Memory) (i : Nat) :
    Memory.read ((a, v) :: rest) i = if a = i then v else Memory.read rest i := rfl

/-- An index that no cell lists reads 0x00000000. -/
theorem Memory.read_of_not_listed {m : Memory} {i : Nat} (h : ∀ cell ∈ m, cell.1 ≠ i) :
    Memory.read m i = 0#32 := by
  induction m with
  | nil => rfl
  | cons cell rest ih =>
    obtain ⟨a, v⟩ := cell
    have ha : a ≠ i := h (a, v) (by simp)
    rw [Memory.read_cons, if_neg ha]
    exact ih fun c hc => h c (by simp [hc])

/-- A write leaves every other index as it was. -/
theorem Memory.read_write_other (m : Memory) {i j : Nat} (v : Word) (h : j ≠ i) :
    Memory.read (Memory.write m i v) j = Memory.read m j := by
  induction m with
  | nil =>
    unfold Memory.write
    split
    · rfl
    · simp [Memory.read_cons, h.symm]
  | cons cell rest ih =>
    obtain ⟨a, u⟩ := cell
    unfold Memory.write
    split
    · rw [Memory.read_cons, Memory.read_cons, ih]
    · split
      · next hai =>
        subst hai
        split <;> simp [Memory.read_cons, h.symm]
      · split
        · rfl
        · rw [Memory.read_cons, if_neg h.symm]

/-- Every index a write lists is the one written or was listed before. -/
theorem Memory.mem_write {m : Memory} {i : Nat} {v : Word} {cell : Nat × Word}
    (h : cell ∈ Memory.write m i v) : cell = (i, v) ∧ v ≠ 0#32 ∨ cell ∈ m := by
  induction m with
  | nil =>
    unfold Memory.write at h
    split at h
    · simp at h
    · next hv => exact .inl ⟨by simpa using h, hv⟩
  | cons c rest ih =>
    obtain ⟨a, u⟩ := c
    unfold Memory.write at h
    split at h
    · rcases List.mem_cons.1 h with h | h
      · exact .inr (by simp [h])
      · exact (ih h).imp_right fun h => by simp [h]
    · split at h
      · split at h
        · exact .inr (by simp [h])
        · next hv =>
          rcases List.mem_cons.1 h with h | h
          · exact .inl ⟨h, hv⟩
          · exact .inr (by simp [h])
      · split at h
        · exact .inr h
        · next hv =>
          rcases List.mem_cons.1 h with h | h
          · exact .inl ⟨h, hv⟩
          · exact .inr h

/-- A write keeps the canonical form. -/
theorem Memory.wf_write {m : Memory} (h : Memory.wf m) (i : Nat) (v : Word) :
    Memory.wf (Memory.write m i v) := by
  refine ⟨?_, fun cell hc => ?_⟩
  · obtain ⟨hs, -⟩ := h
    induction m with
    | nil => unfold Memory.write; split <;> simp
    | cons c rest ih =>
      obtain ⟨a, u⟩ := c
      obtain ⟨h1, h2⟩ := List.pairwise_cons.1 hs
      unfold Memory.write
      split
      · next hai =>
        refine List.pairwise_cons.2 ⟨fun c hc => ?_, ih h2⟩
        rcases Memory.mem_write hc with ⟨rfl, -⟩ | hc
        · exact hai
        · exact h1 c hc
      · next hai =>
        split
        · next heq =>
          subst heq
          split
          · exact h2
          · exact List.pairwise_cons.2 ⟨h1, h2⟩
        · next hne =>
          split
          · exact hs
          · refine List.pairwise_cons.2 ⟨fun c hc => ?_, hs⟩
            have hia : i < a := by omega
            rcases List.mem_cons.1 hc with rfl | hc
            · exact hia
            · exact Nat.lt_trans hia (h1 c hc)
  · rcases Memory.mem_write hc with ⟨rfl, hv⟩ | hc
    · exact hv
    · exact h.2 cell hc

/-- A write to the same index is what a read then gives. -/
theorem Memory.read_write_same {m : Memory} (h : Memory.wf m) (i : Nat) (v : Word) :
    Memory.read (Memory.write m i v) i = v := by
  obtain ⟨hs, -⟩ := h
  induction m with
  | nil =>
    unfold Memory.write
    split
    · next hv => simp [hv]
    · simp [Memory.read_cons]
  | cons c rest ih =>
    obtain ⟨a, u⟩ := c
    obtain ⟨h1, h2⟩ := List.pairwise_cons.1 hs
    unfold Memory.write
    split
    · next hai => rw [Memory.read_cons, if_neg (by omega), ih h2]
    · next hai =>
      split
      · next heq =>
        subst heq
        split
        · next hv =>
          rw [hv]
          exact Memory.read_of_not_listed fun c hc => Nat.ne_of_gt (h1 c hc)
        · simp [Memory.read_cons]
      · next hne =>
        split
        · next hv =>
          rw [hv]
          refine Memory.read_of_not_listed fun c hc => ?_
          rcases List.mem_cons.1 hc with rfl | hc
          · exact hne
          · exact Nat.ne_of_gt (Nat.lt_trans (by omega) (h1 c hc))
        · simp [Memory.read_cons]

/-- What a read after a write gives, at every index. -/
theorem Memory.read_write {m : Memory} (h : Memory.wf m) (i j : Nat) (v : Word) :
    Memory.read (Memory.write m i v) j = if j = i then v else Memory.read m j := by
  split
  · next hji => rw [hji]; exact Memory.read_write_same h i v
  · next hji => exact Memory.read_write_other m v hji

/-- A write inside a range keeps every listed index inside it. -/
theorem Memory.inside_write {m : Memory} {cap i : Nat} (h : ∀ cell ∈ m, cell.1 < cap) (hi : i < cap)
    (v : Word) : ∀ cell ∈ Memory.write m i v, cell.1 < cap := by
  intro cell hc
  rcases Memory.mem_write hc with ⟨rfl, -⟩ | hc
  · exact hi
  · exact h cell hc

/-- The listed indices of an allocation are inside it. -/
theorem Memory.inside_filled (cap : Nat) (fill : Word) :
    ∀ cell ∈ Memory.filled cap fill, cell.1 < cap := by
  intro cell hc
  unfold Memory.filled at hc
  split at hc
  · simp at hc
  · obtain ⟨i, hi, rfl⟩ := List.mem_map.1 hc
    exact List.mem_range.1 hi

/-- An allocation is in the canonical form. -/
theorem Memory.wf_filled (cap : Nat) (fill : Word) : Memory.wf (Memory.filled cap fill) := by
  unfold Memory.filled
  split
  · simp [Memory.wf]
  · next h =>
    refine ⟨List.pairwise_map.2 List.pairwise_lt_range, fun cell hc => ?_⟩
    obtain ⟨i, -, rfl⟩ := List.mem_map.1 hc
    exact h

/-- Every index of an allocation reads the fill word. -/
theorem Memory.read_filled {cap i : Nat} (fill : Word) (h : i < cap) :
    Memory.read (Memory.filled cap fill) i = fill := by
  unfold Memory.filled
  split
  · next hf => simp [hf]
  · have key : ∀ l : List Nat, i ∈ l → Memory.read (l.map fun i => (i, fill)) i = fill := by
      intro l
      induction l with
      | nil => simp
      | cons a rest ih =>
        intro hm
        rw [List.map_cons, Memory.read_cons]
        split
        · rfl
        · next hne => exact ih ((List.mem_cons.1 hm).resolve_left (Ne.symm hne))
    exact key _ (List.mem_range.2 h)

/-- A cell of a canonical memory is what its index reads as. -/
theorem Memory.read_of_mem {m : Memory} (h : Memory.wf m) {cell : Nat × Word} (hc : cell ∈ m) :
    Memory.read m cell.1 = cell.2 := by
  obtain ⟨hs, -⟩ := h
  induction m with
  | nil => simp at hc
  | cons c rest ih =>
    obtain ⟨a, u⟩ := c
    obtain ⟨h1, h2⟩ := List.pairwise_cons.1 hs
    rcases List.mem_cons.1 hc with rfl | hc
    · simp [Memory.read_cons]
    · rw [Memory.read_cons, if_neg (Nat.ne_of_lt (h1 cell hc)), ih hc h2]

end Sys2Proof.Machine
end

