-- ==== Sys2Proof/Laws/Ops.lean ====
section
/-! SUPPORT. One lemma for each shared operation that says all it can do. -/

namespace Sys2Proof.Machine

/-! Halting and settling -/

/-- HALTED is 1 exactly when FAULT_CAUSE is not 0 (10_state.md R32). -/
theorem halted_iff (s : State) : halted s = true ↔ s.faultCause ≠ 0#32 := by
  simp [halted]

theorem halted_false_iff (s : State) : halted s = false ↔ s.faultCause = 0#32 := by
  simp [halted]

/-- No cause has code 0, so a fault that is recorded halts the block (60_exceptions.md R131, R132). -/
theorem causeCode_ne_zero (k : Cause) : causeCode k ≠ 0#32 := by cases k <;> decide

/-- The codes are 1 to 11 (60_exceptions.md R131). -/
theorem causeCode_le (k : Cause) : (causeCode k).toNat ≤ 11 := by cases k <;> decide

@[simp] theorem halted_takeFault (w : Word) (r : Raise) (s : State) : halted (takeFault w r s) = true := by
  simp [halted, causeCode_ne_zero]

@[simp] theorem settle_ok (w : Word) (s t : State) : settle w s (.ok t) = .next t := rfl

@[simp] theorem settle_stop (w : Word) (s : State) (f : Fault) :
    settle w s (.error (.stop f)) = .fault f := rfl

theorem settle_raise (w : Word) (s : State) (r : Raise) :
    settle w s (.error (.raise r)) = if halted s then .next s else .next (takeFault w r s) := rfl

/-- If a settled command answers a next state, it committed, or its raise was recorded, or its raise was
dropped while halted. -/
theorem settle_next {w : Word} {s t : State} {body : Except Abort State}
    (h : settle w s body = .next t) :
    body = .ok t ∨
    (∃ r, body = .error (.raise r) ∧ halted s = false ∧ t = takeFault w r s) ∨
    (∃ r, body = .error (.raise r) ∧ halted s = true ∧ t = s) := by
  rcases body with (r | f) | t'
  · rw [settle_raise] at h
    split at h
    · next hh => exact .inr (.inr ⟨r, rfl, hh, (Host.Outcome.next.inj h).symm⟩)
    · next hh => exact .inr (.inl ⟨r, rfl, by simpa using hh, (Host.Outcome.next.inj h).symm⟩)
  · cases h
  · exact .inl (by rw [settle_ok] at h; rw [Host.Outcome.next.inj h])

/-- A settled command never refuses, and stops only where its body does. -/
theorem settle_fault {w : Word} {s : State} {body : Except Abort State} {f : Fault}
    (h : settle w s body = .fault f) : body = .error (.stop f) := by
  rcases body with (r | g) | t
  · rw [settle_raise] at h
    split at h <;> cases h
  · cases g; cases f; rfl
  · cases h

theorem settle_not_refused (w : Word) (s : State) (body : Except Abort State) (r : Refusal) :
    settle w s body ≠ .refused r := by
  rcases body with (r | g) | t
  · rw [settle_raise]; split <;> simp
  · simp
  · simp

/-- A command that is dropped while halted leaves the state as it was (60_exceptions.md R135). -/
theorem runCommand_halted {i : Instr} {s : State} (body : Except Abort State) (h : halted s = true) :
    runCommand i s body = .next s := by
  simp [runCommand, h]

theorem runCommand_running {i : Instr} {s : State} (body : Except Abort State)
    (h : halted s = false) : runCommand i s body = settle (encode i) s body := by
  simp [runCommand, h]

/-- If a command answers a next state: it was dropped, or it committed, or its fault was recorded. -/
theorem runCommand_next {i : Instr} {s t : State} {body : Except Abort State}
    (h : runCommand i s body = .next t) :
    (halted s = true ∧ t = s) ∨
    (halted s = false ∧ body = .ok t) ∨
    (halted s = false ∧ ∃ r, body = .error (.raise r) ∧ t = takeFault (encode i) r s) := by
  cases hh : halted s
  · rw [runCommand_running body hh] at h
    rcases settle_next h with hb | ⟨r, hb, -, rfl⟩ | ⟨r, -, hc, -⟩
    · exact .inr (.inl ⟨rfl, hb⟩)
    · exact .inr (.inr ⟨rfl, r, hb, rfl⟩)
    · simp [hh] at hc
  · rw [runCommand_halted body hh] at h
    exact .inl ⟨rfl, (Host.Outcome.next.inj h).symm⟩

/-- A command whose body completes, on a block that is not halted. -/
theorem runCommand_ok {i : Instr} {s t : State} {body : Except Abort State} (hs : s.faultCause = 0#32)
    (h : body = .ok t) : runCommand i s body = .next t := by
  rw [runCommand_running _ ((halted_false_iff s).2 hs), h, settle_ok]

/-- A command whose body raises, on a block that is not halted. -/
theorem runCommand_raise {i : Instr} {s : State} {body : Except Abort State} {r : Raise}
    (hs : s.faultCause = 0#32) (h : body = .error (.raise r)) :
    runCommand i s body = .next (takeFault (encode i) r s) := by
  have hh := (halted_false_iff s).2 hs
  rw [runCommand_running _ hh, h, settle_raise, hh]
  simp

/-- If an inspection answers a next state: it committed, or its fault was recorded, or it was dropped. -/
theorem runInspection_next {i : Instr} {s t : State} {body : Except Abort State}
    (h : runInspection i s body = .next t) :
    body = .ok t ∨
    (∃ r, body = .error (.raise r) ∧ halted s = false ∧ t = takeFault (encode i) r s) ∨
    (∃ r, body = .error (.raise r) ∧ halted s = true ∧ t = s) :=
  settle_next h

/-! Buffers -/

/-- `bufAlloc` answers a fresh unit exactly when the capacity is in range (41_delay_line.md R70). -/
theorem bufAlloc_of_range {maxCap : Nat} {cap : Int} (fill : Word) (h1 : 1 ≤ cap)
    (h2 : cap ≤ (maxCap : Int)) :
    bufAlloc maxCap cap fill = .ok ⟨cap.toNat, 0, Memory.filled cap.toNat fill⟩ := by
  unfold bufAlloc
  rw [if_neg (by omega)]

theorem bufAlloc_out_of_range {maxCap : Nat} {cap : Int} (fill : Word)
    (h : cap < 1 ∨ (maxCap : Int) < cap) :
    bufAlloc maxCap cap fill = .error (.raise { cause := .capacity, info := sat32 cap }) := by
  unfold bufAlloc
  rw [if_pos h]
  rfl

theorem bufAlloc_ok {maxCap : Nat} {cap : Int} {fill : Word} {r : Ring}
    (h : bufAlloc maxCap cap fill = .ok r) :
    1 ≤ cap ∧ cap ≤ (maxCap : Int) ∧ r = ⟨cap.toNat, 0, Memory.filled cap.toNat fill⟩ := by
  by_cases hc : cap < 1 ∨ (maxCap : Int) < cap
  · rw [bufAlloc_out_of_range fill hc] at h; cases h
  · rw [bufAlloc_of_range fill (by omega) (by omega)] at h
    exact ⟨by omega, by omega, (Except.ok.inj h).symm⟩

/-- A fresh unit meets the unit invariant. -/
theorem bufAlloc_wf {cap : Int} {fill : Word} {r : Ring}
    (h : bufAlloc Config.maxCapacity cap fill = .ok r) : r.Wf := by
  obtain ⟨h1, h2, rfl⟩ := bufAlloc_ok h
  exact ⟨by show 1 ≤ cap.toNat; omega, by show cap.toNat ≤ Config.maxCapacity; omega,
    by show 0 < cap.toNat; omega, Memory.wf_filled _ _, Memory.inside_filled _ _⟩

theorem Ring.cursorOk_iff (r : Ring) : r.cursorOk = true ↔ r.wc < r.cap := by
  simp [Ring.cursorOk]

theorem checkCursor_of_lt {r : Ring} (h : r.wc < r.cap) : checkCursor r = .ok () := by
  unfold checkCursor
  rw [if_pos ((Ring.cursorOk_iff r).2 h)]

theorem checkCursor_ok {r : Ring} {u : Unit} (h : checkCursor r = .ok u) : r.wc < r.cap := by
  unfold checkCursor at h
  split at h
  · next hc => exact (Ring.cursorOk_iff r).1 hc
  · cases h

/-- A push keeps the unit invariant. -/
theorem Ring.Wf.push {r : Ring} (h : r.Wf) (x : Word) : (r.push x).Wf where
  capPos := h.capPos
  capMax := h.capMax
  cursor := Nat.mod_lt _ h.capPos
  canonical := Memory.wf_write h.canonical _ _
  inside := Memory.inside_write h.inside h.cursor x

/-- The index of a lookback is inside the buffer (20_memory.md R44). -/
theorem Ring.lookback_index_lt {r : Ring} (h : 1 ≤ r.cap) (j : Int) :
    (((r.wc : Int) - j) % (r.cap : Int)).toNat < r.cap := by
  have h1 := Int.emod_nonneg ((r.wc : Int) - j) (show (r.cap : Int) ≠ 0 by omega)
  have h2 := Int.emod_lt_of_pos ((r.wc : Int) - j) (show (0 : Int) < r.cap by omega)
  omega

@[simp] theorem dlStep_fst (r : Ring) (x : Word) (d : Int) : (dlStep r x d).1 = r.push x := rfl

@[simp] theorem dlStep_snd (r : Ring) (x : Word) (d : Int) : (dlStep r x d).2 = (r.push x).lookback d := rfl

/-! Refusals and stops of the whole machine -/

/-- No command is refused. -/
theorem exec_not_refused (i : Instr) (s : State) (r : Refusal) : exec i s ≠ .refused r := by
  cases i <;>
    simp only [exec, execNop, execDlInit, execDlResize, execDlProcess, execLfoInit, execLfoValue,
      execLfoAdvance, execLfoSetRate, execFbResize, execFbRead, execFbPush, execEngSetSampleRate,
      execEngProcess, execStProcess, execCsrRead, execCsrWrite, execMemPeek, runCommand, runInspection] <;>
    first
    | exact settle_not_refused _ _ _ _
    | (split
       · simp
       · exact settle_not_refused _ _ _ _)

end Sys2Proof.Machine
end

