-- ==== Sys2Proof/Laws/Engine.lean ====
section
/-! SUPPORT. What the plan of ENG_PROCESS has checked when it passes, what its commit leaves, and when the plan
raises (44_engine.md R101 to R109). -/

namespace Sys2Proof.Machine

/-! Sequencing checks -/

/-- A sequence of checks passes exactly when each of them does. -/
theorem bind_ok_iff {ε α β : Type} {x : Except ε α} {f : α → Except ε β} {b : β} :
    (x >>= f) = .ok b ↔ ∃ a, x = .ok a ∧ f a = .ok b := by
  cases x <;> simp [bind, Except.bind]

/-- A sequence of checks fails where the first of them fails, or where the rest does. -/
theorem bind_error_iff {ε α β : Type} {x : Except ε α} {f : α → Except ε β} {e : ε} :
    (x >>= f) = .error e ↔ x = .error e ∨ ∃ a, x = .ok a ∧ f a = .error e := by
  cases x <;> simp [bind, Except.bind]

/-! The checks of the plan -/

theorem snapshotOf_some {ps : Params} {p : Snapshot} :
    snapshotOf ps = some p ↔
      ps = ⟨some p.delayMs, some p.depthMs, some p.rate, some p.feedback, some p.wet, some p.dry⟩ := by
  obtain ⟨a, b, c, d, e, f⟩ := ps
  obtain ⟨a', b', c', d', e', f'⟩ := p
  unfold snapshotOf
  cases a <;> cases b <;> cases c <;> cases d <;> cases e <;> cases f <;> simp

theorem snapshotOf_none {ps : Params} : snapshotOf ps = none ↔ ∃ q, ps.get q = none := by
  obtain ⟨a, b, c, d, e, f⟩ := ps
  constructor
  · intro h
    cases a
    · exact ⟨.delayMs, rfl⟩
    cases b
    · exact ⟨.depthMs, rfl⟩
    cases c
    · exact ⟨.rateHz, rfl⟩
    cases d
    · exact ⟨.feedback, rfl⟩
    cases e
    · exact ⟨.wet, rfl⟩
    cases f
    · exact ⟨.dry, rfl⟩
    cases h
  · rintro ⟨q, h⟩
    cases q <;> simp only [Params.get] at h <;> subst h <;>
      first
      | rfl
      | (cases a <;> first
          | rfl
          | (cases b <;> first
              | rfl
              | (cases c <;> first
                  | rfl
                  | (cases d <;> first
                      | rfl
                      | (cases e <;> rfl)))))

/-- `baseDelay` passes exactly when the product is finite (44_engine.md R102). -/
theorem baseDelay_ok {c : Channel} {p : Snapshot} {sr : F32} {d : Int} :
    baseDelay c p sr = .ok d ↔ isFinite (baseProduct p sr) = true ∧ d = roundHA (baseProduct p sr) := by
  unfold baseDelay
  split
  · next h => simp [h, eq_comm]
  · next h => simp [raiseOn, h]

/-- `checkBase` passes exactly when `D <= cap - 1` (44_engine.md R103). -/
theorem checkBase_ok {c : Channel} {fb : Ring} {d : Int} {u : Unit} :
    checkBase c fb d = .ok u ↔ d < (fb.cap : Int) := by
  unfold checkBase
  split
  · next h => simp [raiseOn, h]
  · next h => simpa using h

/-- The check of a tap passes exactly when `0 <= d_k <= cap - 1` (44_engine.md R105). -/
theorem tapDelay_ok {c : Channel} {ch : ChannelState} {d : Int} {cd : F32} {k : Tap} {dk : Int} :
    tapDelay c ch d cd k = .ok dk ↔
      dk = d + tapOffset (ch.lfo.get k) cd ∧ 0 ≤ dk ∧ dk < ((ch.dl.get k).cap : Int) := by
  unfold tapDelay
  simp only
  split
  · next h =>
    simp only [raiseOnTap, reduceCtorEq, false_iff]
    rintro ⟨rfl, h1, h2⟩
    omega
  · next h =>
    rw [Except.ok.injEq]
    constructor
    · rintro rfl
      exact ⟨rfl, by omega, by omega⟩
    · rintro ⟨rfl, -, -⟩
      rfl

/-- `tapDelays` passes exactly when the check of each tap does (44_engine.md R105). -/
theorem tapDelays_ok {c : Channel} {ch : ChannelState} {d : Int} {cd : F32} {t : Taps Int} :
    tapDelays c ch d cd = .ok t ↔ ∀ k, tapDelay c ch d cd k = .ok (t.get k) := by
  unfold tapDelays
  simp only [bind_ok_iff, pure, Except.pure, Except.ok.injEq]
  constructor
  · rintro ⟨d0, h0, d1, h1, d2, h2, rfl⟩ k
    cases k
    · exact h0
    · exact h1
    · exact h2
  · intro h
    exact ⟨_, h .tap0, _, h .tap1, _, h .tap2, rfl⟩

/-- The check of a tap's advance passes exactly when its sum is finite (44_engine.md R109). -/
theorem checkAdvanceTap_ok {c : Channel} {ch : ChannelState} {rate : F32} {k : Tap} {u : Unit} :
    checkAdvanceTap c ch rate k = .ok u ↔ isFinite (advancedPhase (ch.lfo.get k) rate) = true := by
  unfold checkAdvanceTap
  split
  · next h => simp [h]
  · next h => simp [raiseOnTap, h]

/-- `checkAdvance` passes exactly when every tap's sum is finite (44_engine.md R109). -/
theorem checkAdvance_ok {c : Channel} {ch : ChannelState} {rate : F32} {u : Unit} :
    checkAdvance c ch rate = .ok u ↔ ∀ k, isFinite (advancedPhase (ch.lfo.get k) rate) = true := by
  unfold checkAdvance
  simp only [bind_ok_iff, checkAdvanceTap_ok]
  constructor
  · rintro ⟨-, h0, -, h1, h2⟩ k
    cases k
    · exact h0
    · exact h1
    · exact h2
  · intro h
    exact ⟨(), h .tap0, (), h .tap1, h .tap2⟩

/-- Everything a plan that passes has checked, and what it hands to the commit (44_engine.md R101 to R105,
R109). -/
theorem engPlan_ok {c : Channel} {ch : ChannelState} {plan : Plan} :
    engPlan c ch = .ok plan ↔
      snapshotOf ch.params = some plan.snap ∧ ch.sized = true ∧
      isFinite (baseProduct plan.snap ch.sampleRate) = true ∧
      plan.base = roundHA (baseProduct plan.snap ch.sampleRate) ∧
      plan.base < (ch.fb.cap : Int) ∧
      (∀ k, tapDelay c ch plan.base (depthClamp plan.snap ch.sampleRate plan.base) k =
        .ok (plan.taps.get k)) ∧
      ∀ k, isFinite (advancedPhase (ch.lfo.get k) plan.snap.rate) = true := by
  unfold engPlan
  split
  · next h => simp [raiseOn, h]
  · next p h =>
    split
    · next hs =>
      unfold engChecks
      simp only [bind_ok_iff, baseDelay_ok, checkBase_ok, tapDelays_ok, checkAdvance_ok, pure,
        Except.pure, Except.ok.injEq, h, Option.some.injEq]
      constructor
      · rintro ⟨d, ⟨hf, rfl⟩, -, hb, taps, ht, -, ha, rfl⟩
        exact ⟨rfl, hs, hf, rfl, hb, ht, ha⟩
      · obtain ⟨snap, base, taps⟩ := plan
        rintro ⟨rfl, -, hf, hb, hlt, ht, ha⟩
        exact ⟨base, ⟨hf, hb⟩, (), hlt, taps, ht, (), ha, rfl⟩
    · next hs => simp [raiseOn, hs]

/-- A plan that fails raises a fault on its own channel; it never stops the model (60_exceptions.md R132). -/
theorem engPlan_error {c : Channel} {ch : ChannelState} {e : Abort} (h : engPlan c ch = .error e) :
    ∃ (cause : Cause) (info : Word) (unit : Option (BitVec 2)),
      e = .raise { cause := cause, info := info, channel := some c.code, unit := unit } := by
  have base : ∀ {p : Snapshot} {sr : F32}, baseDelay c p sr = .error e →
      ∃ cause info unit, e = .raise ⟨cause, info, some c.code, unit⟩ := by
    intro p sr h; unfold baseDelay at h; split at h <;> cases h; exact ⟨_, _, _, rfl⟩
  have fb : ∀ {r : Ring} {d : Int}, checkBase c r d = .error e →
      ∃ cause info unit, e = .raise ⟨cause, info, some c.code, unit⟩ := by
    intro r d h; unfold checkBase at h; split at h <;> cases h; exact ⟨_, _, _, rfl⟩
  have tap : ∀ {d : Int} {cd : F32} {k : Tap}, tapDelay c ch d cd k = .error e →
      ∃ cause info unit, e = .raise ⟨cause, info, some c.code, unit⟩ := by
    intro d cd k h; unfold tapDelay at h; simp only at h; split at h <;> cases h; exact ⟨_, _, _, rfl⟩
  have adv : ∀ {r : F32} {k : Tap}, checkAdvanceTap c ch r k = .error e →
      ∃ cause info unit, e = .raise ⟨cause, info, some c.code, unit⟩ := by
    intro r k h; unfold checkAdvanceTap at h; split at h <;> cases h; exact ⟨_, _, _, rfl⟩
  unfold engPlan at h
  split at h
  · cases h; exact ⟨_, _, _, rfl⟩
  · split at h
    · unfold engChecks tapDelays checkAdvance at h
      simp only [bind_error_iff, pure, Except.pure, reduceCtorEq, and_false, exists_const,
        or_false] at h
      rcases h with h | ⟨_, -, h | ⟨_, -, (h | ⟨_, -, h | ⟨_, -, h⟩⟩) |
        ⟨_, -, h | ⟨_, -, h | ⟨_, -, h⟩⟩⟩⟩⟩
      · exact base h
      · exact fb h
      · exact tap h
      · exact tap h
      · exact tap h
      · exact adv h
      · exact adv h
      · exact adv h
    · cases h; exact ⟨_, _, _, rfl⟩

/-- The four cursors are inside their buffers exactly when the check passes (10_state.md R25; log 12). -/
theorem checkCursors_ok {ch : ChannelState} {u : Unit} :
    checkCursors ch = .ok u ↔ (∀ k, (ch.dl.get k).wc < (ch.dl.get k).cap) ∧ ch.fb.wc < ch.fb.cap := by
  unfold checkCursors
  simp only [bind_ok_iff]
  constructor
  · rintro ⟨⟨⟩, h0, ⟨⟩, h1, ⟨⟩, h2, h3⟩
    refine ⟨fun k => ?_, checkCursor_ok h3⟩
    cases k
    · exact checkCursor_ok h0
    · exact checkCursor_ok h1
    · exact checkCursor_ok h2
  · rintro ⟨h, hf⟩
    exact ⟨(), checkCursor_of_lt (h .tap0), (), checkCursor_of_lt (h .tap1), (),
      checkCursor_of_lt (h .tap2), checkCursor_of_lt hf⟩

/-- The stop of `checkCursors`: some cursor is not inside its buffer (log 12). -/
theorem checkCursors_error {ch : ChannelState} {e : Abort} (h : checkCursors ch = .error e) :
    e = .stop .cursorOutsideBuffer := by
  have one : ∀ {r : Ring}, checkCursor r = .error e → e = .stop .cursorOutsideBuffer := by
    intro r h; unfold checkCursor at h; split at h <;> cases h; rfl
  unfold checkCursors at h
  simp only [bind_error_iff] at h
  rcases h with h | ⟨_, -, h | ⟨_, -, h | ⟨_, -, h⟩⟩⟩ <;> exact one h

/-! The commit -/

section

variable (ch : ChannelState) (xin : Word) (plan : Plan)

/-- The input of the delay lines that a commit computes (44_engine.md R106). -/
def commitInput : F32 := feedbackInput plan.snap xin (fbRead ch.fb plan.base)

@[simp] theorem engCommit_sampleRate : (engCommit ch xin plan).1.sampleRate = ch.sampleRate := rfl
@[simp] theorem engCommit_sized : (engCommit ch xin plan).1.sized = ch.sized := rfl
@[simp] theorem engCommit_params : (engCommit ch xin plan).1.params = ch.params := rfl

/-- Every delay line takes the same word (44_engine.md R107). -/
@[simp] theorem engCommit_dl (k : Tap) :
    (engCommit ch xin plan).1.dl.get k = (ch.dl.get k).push (commitInput ch xin plan) := by
  cases k <;> rfl

/-- The feedback buffer takes the output word (44_engine.md R109). -/
@[simp] theorem engCommit_fb :
    (engCommit ch xin plan).1.fb = ch.fb.push (engCommit ch xin plan).2 := rfl

/-- Every LFO takes the channel's rate and advances (44_engine.md R105, R109). -/
@[simp] theorem engCommit_lfo (k : Tap) :
    (engCommit ch xin plan).1.lfo.get k =
      { ch.lfo.get k with
        rate := some plan.snap.rate
        phase := fmod1 (advancedPhase (ch.lfo.get k) plan.snap.rate) } := by
  cases k <;> rfl

/-- The output word: the mix of `x` with the three tap words, each read behind its advanced cursor
(44_engine.md R107, R108). -/
theorem engCommit_out :
    (engCommit ch xin plan).2 = mix plan.snap (commitInput ch xin plan)
      (tapSum ((ch.dl.tap0.push (commitInput ch xin plan)).lookback plan.taps.tap0)
        ((ch.dl.tap1.push (commitInput ch xin plan)).lookback plan.taps.tap1)
        ((ch.dl.tap2.push (commitInput ch xin plan)).lookback plan.taps.tap2)) := rfl

end

/-! The two commands -/

/-- ENG_PROCESS that completes: the plan passed, the cursors were inside, and the commit was stored. -/
theorem processEng_ok {c : Channel} {s t : State} :
    processEng c s = .ok t ↔
      ∃ plan, engPlan c (s.chan c) = .ok plan ∧ checkCursors (s.chan c) = .ok () ∧
        t = (s.setChan c (engCommit (s.chan c) s.opa plan).1).setRes0
          (engCommit (s.chan c) s.opa plan).2 := by
  unfold processEng opWord
  simp only [bind_ok_iff, pure, Except.pure, Except.ok.injEq]
  constructor
  · rintro ⟨plan, hp, ⟨⟩, hc, rfl⟩
    exact ⟨plan, hp, hc, rfl⟩
  · rintro ⟨plan, hp, hc, rfl⟩
    exact ⟨plan, hp, (), hc, rfl⟩

theorem processEng_error {c : Channel} {s : State} {e : Abort} :
    processEng c s = .error e ↔
      engPlan c (s.chan c) = .error e ∨
      ∃ plan, engPlan c (s.chan c) = .ok plan ∧ checkCursors (s.chan c) = .error e := by
  unfold processEng
  simp only [bind_error_iff, pure, Except.pure, reduceCtorEq, and_false, exists_const, or_false]

/-- ST_PROCESS that completes: both plans passed, and both commits were stored (44_engine.md R110). -/
theorem processStereo_ok {s t : State} :
    processStereo s = .ok t ↔
      ∃ planL planR, engPlan .left s.left = .ok planL ∧ engPlan .right s.right = .ok planR ∧
        checkCursors s.left = .ok () ∧ checkCursors s.right = .ok () ∧
        t = { s with
          left := (engCommit s.left s.opa planL).1
          right := (engCommit s.right s.opb planR).1
          res0 := (engCommit s.left s.opa planL).2
          res1 := (engCommit s.right s.opb planR).2 } := by
  unfold processStereo opWord
  simp only [bind_ok_iff, pure, Except.pure, Except.ok.injEq]
  constructor
  · rintro ⟨planL, hl, planR, hr, ⟨⟩, cl, ⟨⟩, cr, rfl⟩
    exact ⟨planL, planR, hl, hr, cl, cr, rfl⟩
  · rintro ⟨planL, planR, hl, hr, cl, cr, rfl⟩
    exact ⟨planL, hl, planR, hr, (), cl, (), cr, rfl⟩

theorem processStereo_error {s : State} {e : Abort} :
    processStereo s = .error e ↔
      engPlan .left s.left = .error e ∨
      ∃ planL, engPlan .left s.left = .ok planL ∧
        (engPlan .right s.right = .error e ∨
        ∃ planR, engPlan .right s.right = .ok planR ∧
          (checkCursors s.left = .error e ∨
            checkCursors s.left = .ok () ∧ checkCursors s.right = .error e)) := by
  unfold processStereo
  simp only [bind_error_iff, pure, Except.pure, reduceCtorEq, and_false, exists_const, or_false]
  constructor
  · rintro (h | ⟨pl, hl, h | ⟨pr, hr, h | ⟨⟨⟩, cl, h⟩⟩⟩)
    · exact .inl h
    · exact .inr ⟨pl, hl, .inl h⟩
    · exact .inr ⟨pl, hl, .inr ⟨pr, hr, .inl h⟩⟩
    · exact .inr ⟨pl, hl, .inr ⟨pr, hr, .inr ⟨cl, h⟩⟩⟩
  · rintro (h | ⟨pl, hl, h | ⟨pr, hr, h | ⟨cl, h⟩⟩⟩)
    · exact .inl h
    · exact .inr ⟨pl, hl, .inl h⟩
    · exact .inr ⟨pl, hl, .inr ⟨pr, hr, .inl h⟩⟩
    · exact .inr ⟨pl, hl, .inr ⟨pr, hr, .inr ⟨(), cl, h⟩⟩⟩

end Sys2Proof.Machine
end

