-- ==== Sys2Proof/Laws/Exec.lean ====
section
/-! SUPPORT. What `exec` and `step` can do, said once: every command is its body, run or dropped; and each body
that completes leaves a state named here. -/

namespace Sys2Proof.Machine

/-- The checks and the effect of a command: the body that its meaning runs. -/
def commandBody : Instr → State → Except Abort State
  | .nop _, s => .ok s
  | .dlInit c k, s => reallocDl c k s.opb s
  | .dlResize c k, s => reallocDl c k 0#32 s
  | .dlProcess c k, s => processDl c k s
  | .lfoInit c k, s => initLfo c k s
  | .lfoValue c k, s => .ok (s.setRes0 (lfoValue ((s.chan c).lfo.get k)))
  | .lfoAdvance c k, s => advanceLfo c k s
  | .lfoSetRate c k, s => setLfoRate c k s
  | .fbResize c, s => reallocFb c s
  | .fbRead c, s => readFb c s
  | .fbPush c, s => pushFb c s
  | .engSetSampleRate sel, s => setSampleRate sel s
  | .engProcess c, s => processEng c s
  | .stProcess, s => processStereo s
  | .csrRead sel, s => readCsr sel s
  | .csrWrite sel, s => writeCsr sel s
  | .memPeek c u, s => peekMem c u s

/-- Every command is its body, dropped while halted but for the three of 60_exceptions.md R135. -/
theorem exec_eq (i : Instr) (s : State) :
    exec i s = if runsHalted i then runInspection i s (commandBody i s)
      else runCommand i s (commandBody i s) := by
  cases i <;> rfl

/-- On a block that is not halted every command is its body, settled. -/
theorem exec_running (i : Instr) {s : State} (h : s.faultCause = 0#32) :
    exec i s = settle (encode i) s (commandBody i s) := by
  rw [exec_eq]
  split
  · rfl
  · exact runCommand_running _ ((halted_false_iff s).2 h)

/-- On a halted block a command is dropped, or it is one of the three that run (60_exceptions.md R135). -/
theorem exec_halted (i : Instr) {s : State} (h : s.faultCause ≠ 0#32) :
    exec i s = if runsHalted i then settle (encode i) s (commandBody i s) else .next s := by
  rw [exec_eq]
  split
  · rfl
  · exact runCommand_halted _ ((halted_iff s).2 h)

theorem exec_ok {i : Instr} {s t : State} (hs : s.faultCause = 0#32) (h : commandBody i s = .ok t) :
    exec i s = .next t := by
  rw [exec_running i hs, h, settle_ok]

theorem exec_raise {i : Instr} {s : State} {r : Raise} (hs : s.faultCause = 0#32)
    (h : commandBody i s = .error (.raise r)) : exec i s = .next (takeFault (encode i) r s) := by
  rw [exec_running i hs, h, settle_raise, (halted_false_iff s).2 hs]
  rfl

/-- If a command answers a next state: its body completed, or its fault was recorded, or nothing happened. -/
theorem exec_next {i : Instr} {s t : State} (h : exec i s = .next t) :
    (commandBody i s = .ok t ∧ (s.faultCause ≠ 0#32 → runsHalted i = true)) ∨
    (∃ r, commandBody i s = .error (.raise r) ∧ s.faultCause = 0#32 ∧ t = takeFault (encode i) r s) ∨
    (s.faultCause ≠ 0#32 ∧ t = s) := by
  by_cases hs : s.faultCause = 0#32
  · rw [exec_running i hs] at h
    rcases settle_next h with hb | ⟨r, hb, -, rfl⟩ | ⟨r, -, hc, -⟩
    · exact .inl ⟨hb, fun hn => absurd hs hn⟩
    · exact .inr (.inl ⟨r, hb, hs, rfl⟩)
    · exact absurd hs ((halted_iff s).1 hc)
  · rw [exec_halted i hs] at h
    split at h
    · next hi =>
      rcases settle_next h with hb | ⟨r, -, hc, -⟩ | ⟨r, -, -, rfl⟩
      · exact .inl ⟨hb, fun _ => hi⟩
      · exact absurd ((halted_false_iff s).1 hc) hs
      · exact .inr (.inr ⟨hs, rfl⟩)
    · exact .inr (.inr ⟨hs, (Host.Outcome.next.inj h).symm⟩)

/-- A command stops the model only where its body does (log 12). -/
theorem exec_fault {i : Instr} {s : State} {f : Fault} (h : exec i s = .fault f) :
    commandBody i s = .error (.stop f) := by
  rw [exec_eq] at h
  split at h
  · exact settle_fault h
  · unfold runCommand at h
    split at h
    · cases h
    · exact settle_fault h

/-! Bodies that complete -/

theorem reallocDl_ok {c : Channel} {k : Tap} {fill : Word} {s t : State}
    (h : reallocDl c k fill s = .ok t) :
    ∃ r, bufAlloc Config.maxCapacity s.opa.toNat fill = .ok r ∧
      t = s.setChan c (((s.chan c).setDl k r).setSized false) := by
  unfold reallocDl opU32 at h
  split at h
  · cases h
  · next r hr => exact ⟨r, hr, (Except.ok.inj h).symm⟩

theorem processDl_ok {c : Channel} {k : Tap} {s t : State} (h : processDl c k s = .ok t) :
    s.opb.toNat < ((s.chan c).dl.get k).cap ∧
      ((s.chan c).dl.get k).wc < ((s.chan c).dl.get k).cap ∧
      t = (s.setChan c ((s.chan c).setDl k (((s.chan c).dl.get k).push s.opa))).setRes0
        ((((s.chan c).dl.get k).push s.opa).lookback s.opb.toNat) := by
  unfold processDl opU32 opWord at h
  simp only at h
  split at h
  · cases h
  · next hd =>
    split at h
    · cases h
    · next u hc => exact ⟨by omega, checkCursor_ok hc, (Except.ok.inj h).symm⟩

theorem initLfo_ok {c : Channel} {k : Tap} {s t : State} (h : initLfo c k s = .ok t) :
    positiveFinite s.opa = true ∧ positiveFinite s.opb = true ∧ phaseLegal s.opc = true ∧
      t = s.setChan c ((s.chan c).setLfo k
        ⟨if s.opc = f32NegZero then f32Zero else s.opc, some s.opb, s.opa⟩) := by
  unfold initLfo opF32 at h
  simp only [Bool.not_eq_true'] at h
  split at h
  · cases h
  · next h1 =>
    split at h
    · cases h
    · next h2 =>
      split at h
      · cases h
      · next h3 =>
        simp only [Bool.not_eq_false] at h1 h2 h3
        exact ⟨h1, h2, h3, (Except.ok.inj h).symm⟩

theorem advanceLfo_ok {c : Channel} {k : Tap} {s t : State} (h : advanceLfo c k s = .ok t) :
    ∃ rate, ((s.chan c).lfo.get k).rate = some rate ∧
      isFinite (advancedPhase ((s.chan c).lfo.get k) rate) = true ∧
      t = s.setChan c ((s.chan c).setLfo k (lfoStep ((s.chan c).lfo.get k) rate)) := by
  unfold advanceLfo lfoAdvance at h
  split at h
  · cases h
  · next l hl =>
    split at hl
    · cases hl
    · next rate hr =>
      split at hl
      · next hf =>
        cases hl
        exact ⟨rate, hr, hf, (Except.ok.inj h).symm⟩
      · cases hl

theorem setLfoRate_ok {c : Channel} {k : Tap} {s t : State} (h : setLfoRate c k s = .ok t) :
    positiveFinite s.opa = true ∧
      t = s.setChan c ((s.chan c).setLfo k { (s.chan c).lfo.get k with rate := some s.opa }) := by
  unfold setLfoRate opF32 at h
  simp only [Bool.not_eq_true'] at h
  split at h
  · cases h
  · next h1 => exact ⟨by simpa using h1, (Except.ok.inj h).symm⟩

theorem reallocFb_ok {c : Channel} {s t : State} (h : reallocFb c s = .ok t) :
    ∃ r, bufAlloc Config.maxCapacity s.opa.toNat 0#32 = .ok r ∧
      t = s.setChan c (((s.chan c).setFb r).setSized false) := by
  unfold reallocFb opU32 at h
  split at h
  · cases h
  · next r hr => exact ⟨r, hr, (Except.ok.inj h).symm⟩

theorem readFb_ok {c : Channel} {s t : State} (h : readFb c s = .ok t) :
    s.opa.toNat < (s.chan c).fb.cap ∧ (s.chan c).fb.wc < (s.chan c).fb.cap ∧
      t = s.setRes0 ((s.chan c).fb.lookback s.opa.toNat) := by
  unfold readFb opU32 at h
  simp only at h
  split at h
  · cases h
  · next hd =>
    split at h
    · cases h
    · next u hc => exact ⟨by omega, checkCursor_ok hc, (Except.ok.inj h).symm⟩

theorem pushFb_ok {c : Channel} {s t : State} (h : pushFb c s = .ok t) :
    (s.chan c).fb.wc < (s.chan c).fb.cap ∧
      t = s.setChan c ((s.chan c).setFb ((s.chan c).fb.push s.opa)) := by
  unfold pushFb opWord at h
  simp only at h
  split at h
  · cases h
  · next u hc => exact ⟨checkCursor_ok hc, (Except.ok.inj h).symm⟩

theorem setSampleRate_ok {sel : ChSel} {s t : State} (h : setSampleRate sel s = .ok t) :
    positiveFinite s.opa = true ∧
      ∃ r, bufAlloc Config.maxCapacity (ceilInt s.opa) 0#32 = .ok r ∧
        t = s.onChannels sel (ChannelState.resize s.opa r) := by
  unfold setSampleRate opF32 at h
  simp only [Bool.not_eq_true'] at h
  split at h
  · cases h
  · next h1 =>
    split at h
    · cases h
    · next r hr => exact ⟨by simpa using h1, r, hr, (Except.ok.inj h).symm⟩

theorem readCsr_ok {sel : ChSel} {s t : State} (h : readCsr sel s = .ok t) : ∃ w, t = s.setRes0 w := by
  unfold readCsr readChannelCsr at h
  split at h
  · cases h
  · split at h
    · exact ⟨_, (Except.ok.inj h).symm⟩
    · split at h
      · split at h
        · cases h
        · split at h
          · exact ⟨_, (Except.ok.inj h).symm⟩
          · cases h
      · cases h

theorem writeCsr_ok {sel : ChSel} {s t : State} (h : writeCsr sel s = .ok t) :
    ∃ n p, opCsr s.opa = some n ∧ paramCsr n = some p ∧ paramLegal p s.opb = true ∧
      t = s.onChannels sel fun ch => ch.setParam p s.opb := by
  unfold writeCsr opF32 at h
  split at h
  · cases h
  · next n hn =>
    split at h
    · cases h
    · next p hp =>
      simp only at h
      split at h
      · next hl => exact ⟨n, p, hn, hp, hl, (Except.ok.inj h).symm⟩
      · cases h

theorem peekMem_ok {c : Channel} {u : PeekUnit} {s t : State} (h : peekMem c u s = .ok t) :
    s.opa.toNat < (peekRing (s.chan c) u).cap ∧
      t = s.setRes0 (Memory.read (peekRing (s.chan c) u).buf s.opa.toNat) := by
  unfold peekMem opU32 at h
  simp only at h
  split at h
  · cases h
  · exact ⟨by omega, (Except.ok.inj h).symm⟩

/-- A body that completes leaves the host registers, the fault registers and the host's side as they were, but
for the result registers. -/
theorem commandBody_ok_frame {i : Instr} {s t : State} (h : commandBody i s = .ok t) :
    t.cmd = s.cmd ∧ t.opa = s.opa ∧ t.opb = s.opb ∧ t.opc = s.opc ∧ t.faultCause = s.faultCause ∧
      t.faultInfo = s.faultInfo ∧ t.faultCmd = s.faultCmd ∧ t.faultCh = s.faultCh ∧
      t.faultUnit = s.faultUnit ∧ t.host = s.host := by
  cases i <;> simp only [commandBody] at h
  case nop => cases h; simp
  case dlInit => obtain ⟨r, -, rfl⟩ := reallocDl_ok h; simp
  case dlResize => obtain ⟨r, -, rfl⟩ := reallocDl_ok h; simp
  case dlProcess => obtain ⟨-, -, rfl⟩ := processDl_ok h; simp
  case lfoInit => obtain ⟨-, -, -, rfl⟩ := initLfo_ok h; simp
  case lfoValue => cases h; simp
  case lfoAdvance => obtain ⟨r, -, -, rfl⟩ := advanceLfo_ok h; simp
  case lfoSetRate => obtain ⟨-, rfl⟩ := setLfoRate_ok h; simp
  case fbResize => obtain ⟨r, -, rfl⟩ := reallocFb_ok h; simp
  case fbRead => obtain ⟨-, -, rfl⟩ := readFb_ok h; simp
  case fbPush => obtain ⟨-, rfl⟩ := pushFb_ok h; simp
  case engSetSampleRate => obtain ⟨-, r, -, rfl⟩ := setSampleRate_ok h; simp
  case engProcess => obtain ⟨p, -, -, rfl⟩ := processEng_ok.1 h; simp
  case stProcess => obtain ⟨p, q, -, -, -, -, rfl⟩ := processStereo_ok.1 h; simp
  case csrRead => obtain ⟨w, rfl⟩ := readCsr_ok h; simp
  case csrWrite => obtain ⟨n, p, -, -, -, rfl⟩ := writeCsr_ok h; simp
  case memPeek => obtain ⟨-, rfl⟩ := peekMem_ok h; simp

/-! Steps -/

/-- What a write to CMD does: the decoded command, or the illegal word's fault (60_exceptions.md R134). -/
theorem writeCmd_eq (w : Word) (s : State) :
    writeCmd w s = match decode w with
      | .ok i => exec i (s.setCmd w)
      | .error _ => illegalCommand w (s.setCmd w) := rfl

/-- If a write to CMD answers a next state: the decoded command answers it, or an illegal word was dropped, or
its fault was recorded (60_exceptions.md R134, R135). -/
theorem writeCmd_next {w : Word} {s t : State} (h : writeCmd w s = .next t) :
    (∃ i, decode w = .ok i ∧ exec i (s.setCmd w) = .next t) ∨
    (s.faultCause ≠ 0#32 ∧ t = s.setCmd w) ∨
    (s.faultCause = 0#32 ∧
      t = takeFault w { cause := .illegalCommand, info := w } (s.setCmd w)) := by
  rw [writeCmd_eq] at h
  split at h
  · next i hi => exact .inl ⟨i, hi, h⟩
  · unfold illegalCommand at h
    split at h
    · next hh => exact .inr (.inl ⟨(halted_iff _).1 hh, (Host.Outcome.next.inj h).symm⟩)
    · next hh =>
      rcases settle_next h with hb | ⟨r, hb, h2, rfl⟩ | ⟨r, hb, h2, h3⟩
      · cases hb
      · cases hb
        exact .inr (.inr ⟨(halted_false_iff _).1 h2, rfl⟩)
      · exact absurd h2 hh

/-- Only the offset 0x00 is CMD (10_state.md R22). -/
theorem hostRegAt_cmd {offset : Nat} (h : hostRegAt offset = some .cmd) : offset = 0x00 := by
  by_contra hne
  have hb : (offset == 0x00) = false := beq_eq_false_iff_ne.2 hne
  simp only [hostRegAt, hostRegTable, List.lookup, hb] at h
  repeat' split at h
  all_goals simp_all

/-- If a step answers a next state: nothing was pending, or a register was stored, or a command word was
written to CMD and ran, or a register was read, or the block was reset. -/
theorem step_next {s t : State} (h : step s = .next t) :
    (s.host.pending = [] ∧ t = s) ∨
    ∃ e rest u, s.host.pending = e :: rest ∧ u = s.setPending rest ∧
      ((∃ w, e ≠ .reset ∧ (t = { u with opa := w } ∨ t = { u with opb := w } ∨ t = { u with opc := w })) ∨
      (∃ w, e = cmdWriteEvent w ∧ writeCmd w u = .next t) ∨
      (∃ data, e ≠ .reset ∧ t = { u with host := { u.host with readData := data } }) ∨
      (e = .reset ∧ t = applyReset u)) := by
  unfold step hostStep at h
  split at h
  · next hp => exact .inl ⟨hp, (Host.Outcome.next.inj h).symm⟩
  · next e rest hp =>
    refine .inr ⟨e, rest, _, hp, rfl, ?_⟩
    generalize s.setPending rest = u at h
    unfold performEvent at h
    split at h
    · unfold hostWrite at h
      split at h
      · cases h
      · next w hw =>
        split at h
        · cases h
        · split at h
          · cases h
          · next r hr =>
            cases r <;> simp only [hostWriteReg] at h
            case cmd =>
              refine .inr (.inl ⟨w, ?_, h⟩)
              rw [cmdWriteEvent, hostRegAt_cmd hr, ← wordOfLanes_some hw]
            case opa => exact .inl ⟨w, nofun, .inl (Host.Outcome.next.inj h).symm⟩
            case opb => exact .inl ⟨w, nofun, .inr (.inl (Host.Outcome.next.inj h).symm)⟩
            case opc => exact .inl ⟨w, nofun, .inr (.inr (Host.Outcome.next.inj h).symm)⟩
            all_goals cases h
    · unfold hostRead at h
      split at h
      · cases h
      · split at h
        · cases h
        · split at h
          · cases h
          · exact .inr (.inr (.inl ⟨_, nofun, (Host.Outcome.next.inj h).symm⟩))
    · exact .inr (.inr (.inr ⟨rfl, (Host.Outcome.next.inj h).symm⟩))

end Sys2Proof.Machine
end

