-- ==== Sys2Proof/Laws/Float.lean ====
section
/-! SUPPORT. The binary32 primitives: magnitudes as numbers of units, rounding to nearest, and the primitives
on values that need no rounding (00_scope.md R12 to R18). -/

namespace Sys2Proof.Machine

/-! Magnitudes -/

/-- The number of units of 2^-149 that magnitude bits stand for. -/
def magUnits (mag : Nat) : Nat :=
  if mag / 2 ^ 23 = 0 then mag % 2 ^ 23 else (2 ^ 23 + mag % 2 ^ 23) * 2 ^ (mag / 2 ^ 23 - 1)

theorem scaledMag_eq (a : F32) : scaledMag a = magUnits (f32Mag a) := rfl

/-- A significand at an exponent, the carry past 24 bits included. -/
theorem magUnits_shift {shift m : Nat} (hm : m ≤ 2 ^ 24) (hn : shift = 0 ∨ 2 ^ 23 ≤ m) :
    magUnits (shift * 2 ^ 23 + m) = m * 2 ^ shift := by
  unfold magUnits
  rcases Nat.lt_or_ge m (2 ^ 23) with h | h
  · have hs : shift = 0 := by omega
    have h3 : shift * 2 ^ 23 + m = m := by rw [hs, Nat.zero_mul, Nat.zero_add]
    rw [h3, if_pos (Nat.div_eq_of_lt h), Nat.mod_eq_of_lt h, hs, Nat.pow_zero, Nat.mul_one]
  · rcases Nat.lt_or_ge m (2 ^ 24) with h2 | h2
    · have h3 : (shift * 2 ^ 23 + m) / 2 ^ 23 = shift + 1 := by omega
      have h4 : (shift * 2 ^ 23 + m) % 2 ^ 23 = m - 2 ^ 23 := by omega
      rw [h3, h4, if_neg (by omega), Nat.add_sub_cancel, Nat.add_sub_cancel' h]
    · have h3 : (shift * 2 ^ 23 + m) / 2 ^ 23 = shift + 2 := by omega
      have h4 : (shift * 2 ^ 23 + m) % 2 ^ 23 = 0 := by omega
      have h5 : m = 2 ^ 24 := by omega
      rw [h3, h4, if_neg (by omega), h5, show shift + 2 - 1 = shift + 1 from rfl, Nat.pow_succ]
      omega

/-- The next magnitude stands for more units. -/
theorem magUnits_lt_succ (mag : Nat) : magUnits mag < magUnits (mag + 1) := by
  have hdm := Nat.div_add_mod mag (2 ^ 23)
  have hlt := Nat.mod_lt mag (show 0 < 2 ^ 23 by decide)
  rcases Nat.eq_zero_or_pos (mag / 2 ^ 23) with h | h
  · have h1 : mag = 0 * 2 ^ 23 + mag := by omega
    have h2 : mag + 1 = 0 * 2 ^ 23 + (mag + 1) := by omega
    have hm : mag < 2 ^ 23 := by omega
    rw [h2, magUnits_shift (by omega) (.inl rfl), h1, magUnits_shift (by omega) (.inl rfl)]
    omega
  · obtain ⟨e, he⟩ : ∃ e, mag / 2 ^ 23 = e + 1 := ⟨mag / 2 ^ 23 - 1, by omega⟩
    have h1 : mag = e * 2 ^ 23 + (2 ^ 23 + mag % 2 ^ 23) := by omega
    have h2 : mag + 1 = e * 2 ^ 23 + (2 ^ 23 + mag % 2 ^ 23 + 1) := by omega
    rw [h2, magUnits_shift (by omega) (.inr (by omega))]
    conv_lhs => rw [h1]
    rw [magUnits_shift (by omega) (.inr (by omega))]
    exact Nat.mul_lt_mul_of_pos_right (by omega) (Nat.two_pow_pos _)

/-- More magnitude bits, more units. -/
theorem magUnits_strictMono : StrictMono magUnits := strictMono_nat_of_lt_succ magUnits_lt_succ

@[simp] theorem magUnits_zero : magUnits 0 = 0 := rfl

theorem magUnits_eq_zero {mag : Nat} : magUnits mag = 0 ↔ mag = 0 := by
  constructor
  · intro h; exact magUnits_strictMono.injective (h.trans magUnits_zero.symm)
  · rintro rfl; rfl

/-! Signs -/

theorem f32Neg_iff (a : F32) : f32Neg a = true ↔ 2 ^ 31 ≤ a.toNat := by
  simp [f32Neg, BitVec.msb_eq_decide]

theorem f32Neg_false_iff (a : F32) : f32Neg a = false ↔ a.toNat < 2 ^ 31 := by
  simp [f32Neg, BitVec.msb_eq_decide]

theorem f32Mag_lt (a : F32) : f32Mag a < 2 ^ 31 := Nat.mod_lt _ (by decide)

/-- A word is its sign and its magnitude bits. -/
theorem toNat_eq_sign_mag (a : F32) : a.toNat = f32Mag a + if f32Neg a then 2 ^ 31 else 0 := by
  have h := a.isLt
  unfold f32Mag
  cases hn : f32Neg a
  · rw [f32Neg_false_iff] at hn
    rw [Nat.mod_eq_of_lt hn]
    rfl
  · rw [f32Neg_iff] at hn
    simp only [if_true]
    omega

theorem ofSignMag_toNat {neg : Bool} {mag : Nat} (h : mag < 2 ^ 31) :
    (ofSignMag neg mag).toNat = mag + if neg then 2 ^ 31 else 0 := by
  unfold ofSignMag
  rw [BitVec.toNat_ofNat, Nat.mod_eq_of_lt]
  cases neg
  · simp only [Bool.false_eq_true, if_false]; omega
  · simp only [if_true]; omega

@[simp] theorem f32Mag_ofSignMag {neg : Bool} {mag : Nat} (h : mag < 2 ^ 31) :
    f32Mag (ofSignMag neg mag) = mag := by
  unfold f32Mag
  rw [ofSignMag_toNat h]
  cases neg
  · simp only [Bool.false_eq_true, if_false]; omega
  · simp only [if_true]; omega

@[simp] theorem f32Neg_ofSignMag {neg : Bool} {mag : Nat} (h : mag < 2 ^ 31) :
    f32Neg (ofSignMag neg mag) = neg := by
  cases neg
  · rw [f32Neg_false_iff, ofSignMag_toNat h]; simpa using h
  · rw [f32Neg_iff, ofSignMag_toNat h]; simp

@[simp] theorem ofSignMag_sign_mag (a : F32) : ofSignMag (f32Neg a) (f32Mag a) = a := by
  apply BitVec.eq_of_toNat_eq
  rw [ofSignMag_toNat (f32Mag_lt a), ← toNat_eq_sign_mag]

theorem scaled_ofSignMag {neg : Bool} {mag : Nat} (h : mag < 2 ^ 31) :
    scaled (ofSignMag neg mag) = if neg then -(magUnits mag : Int) else magUnits mag := by
  unfold scaled
  rw [f32Neg_ofSignMag h, scaledMag_eq, f32Mag_ofSignMag h]

theorem natAbs_scaled (a : F32) : (scaled a).natAbs = magUnits (f32Mag a) := by
  unfold scaled
  split <;> simp [scaledMag_eq]

theorem scaled_of_nonneg {a : F32} (h : f32Neg a = false) : scaled a = magUnits (f32Mag a) := by
  simp [scaled, h, scaledMag_eq]

theorem scaled_of_neg {a : F32} (h : f32Neg a = true) : scaled a = -(magUnits (f32Mag a) : Int) := by
  simp [scaled, h, scaledMag_eq]

theorem isFinite_iff (a : F32) : isFinite a = true ↔ f32Mag a < infMag := by simp [isFinite]

theorem isFinite_not_isNaN {a : F32} (h : isFinite a = true) : isNaN a = false := by
  rw [isFinite_iff] at h
  simp only [isNaN, decide_eq_false_iff_not]
  omega

theorem isFinite_not_isInf {a : F32} (h : isFinite a = true) : isInf a = false := by
  rw [isFinite_iff] at h
  simp only [isInf, decide_eq_false_iff_not]
  omega

/-! Order (00_scope.md R15) -/

/-- The order of the values is the order of their numbers of units. -/
theorem orderKey_lt_iff (a b : F32) : orderKey a < orderKey b ↔ scaled a < scaled b := by
  have hm := magUnits_strictMono
  have h0 := @magUnits_eq_zero
  unfold orderKey
  cases ha : f32Neg a <;> cases hb : f32Neg b
  · simp only [scaled_of_nonneg ha, scaled_of_nonneg hb, Bool.false_eq_true, if_false, Nat.cast_lt]
    exact hm.lt_iff_lt.symm
  · simp only [scaled_of_nonneg ha, scaled_of_neg hb, Bool.false_eq_true, if_false, if_true]
    omega
  · simp only [scaled_of_neg ha, scaled_of_nonneg hb, Bool.false_eq_true, if_false, if_true]
    have h1 := h0 (mag := f32Mag a)
    have h2 := h0 (mag := f32Mag b)
    omega
  · simp only [scaled_of_neg ha, scaled_of_neg hb, if_true, neg_lt_neg_iff, Nat.cast_lt]
    exact hm.lt_iff_lt.symm

theorem orderKey_le_iff (a b : F32) : orderKey a ≤ orderKey b ↔ scaled a ≤ scaled b := by
  rw [← not_lt, ← not_lt, orderKey_lt_iff]

theorem flt_iff {a b : F32} (ha : isNaN a = false) (hb : isNaN b = false) :
    flt a b = true ↔ scaled a < scaled b := by
  simp [flt, ha, hb, orderKey_lt_iff]

theorem fle_iff {a b : F32} (ha : isNaN a = false) (hb : isNaN b = false) :
    fle a b = true ↔ scaled a ≤ scaled b := by
  simp [fle, ha, hb, orderKey_le_iff]

/-! Rounding (00_scope.md R14) -/

/-- `roundMag` before an overflow becomes an infinity. -/
def roundMagFree (num den : Nat) : Nat :=
  let shift := Nat.log2 (num / den) - 23
  let d := den * 2 ^ shift
  let m := num / d
  let r := num % d
  let m' := if d < 2 * r ∨ (2 * r = d ∧ m % 2 = 1) then m + 1 else m
  shift * 2 ^ 23 + m'

theorem roundMag_eq (num den : Nat) : roundMag num den = min (roundMagFree num den) infMag := rfl

/-- What rounding gives: the significand `m` at an exponent, or the next one, by the remainder. -/
theorem roundMagFree_cases {num den : Nat} (hden : 0 < den) :
    ∃ shift m r : Nat, num = den * 2 ^ shift * m + r ∧ r < den * 2 ^ shift ∧
      m < 2 ^ 24 ∧ (shift = 0 ∨ 2 ^ 23 ≤ m) ∧
      roundMagFree num den = shift * 2 ^ 23 +
        if den * 2 ^ shift < 2 * r ∨ (2 * r = den * 2 ^ shift ∧ m % 2 = 1) then m + 1 else m := by
  refine ⟨Nat.log2 (num / den) - 23, num / (den * 2 ^ (Nat.log2 (num / den) - 23)),
    num % (den * 2 ^ (Nat.log2 (num / den) - 23)), (Nat.div_add_mod _ _).symm,
    Nat.mod_lt _ (Nat.mul_pos hden (Nat.two_pow_pos _)), ?_, ?_, rfl⟩
  · rw [← Nat.div_div_eq_div_mul]
    rw [Nat.div_lt_iff_lt_mul (Nat.two_pow_pos _), ← Nat.pow_add]
    refine Nat.lt_of_lt_of_le (Nat.lt_log2_self (n := num / den)) ?_
    exact Nat.pow_le_pow_right (by decide) (by omega)
  · rcases Nat.lt_or_ge (Nat.log2 (num / den)) 24 with h | h
    · exact .inl (by omega)
    · right
      rw [← Nat.div_div_eq_div_mul, Nat.le_div_iff_mul_le (Nat.two_pow_pos _), ← Nat.pow_add,
        show 23 + (Nat.log2 (num / den) - 23) = Nat.log2 (num / den) by omega]
      apply Nat.log2_self_le
      rintro h0
      rw [h0] at h
      simp [Nat.log2] at h

/-- No magnitude is nearer to `num / den` than the rounded one; where another is as near, the rounded one is
even (00_scope.md R14). -/
theorem roundMagFree_nearest {num den : Nat} (hden : 0 < den) (z : Nat) :
    |(num : Int) - magUnits (roundMagFree num den) * den| ≤ |(num : Int) - magUnits z * den| ∧
    (|(num : Int) - magUnits (roundMagFree num den) * den| = |(num : Int) - magUnits z * den| →
      z ≠ roundMagFree num den → roundMagFree num den % 2 = 0) := by
  obtain ⟨shift, m, r, hnum, hr, hm, hn, hres⟩ := roundMagFree_cases (num := num) hden
  have hlow : magUnits (shift * 2 ^ 23 + m) = m * 2 ^ shift := magUnits_shift (by omega) hn
  have hhigh : magUnits (shift * 2 ^ 23 + (m + 1)) = (m + 1) * 2 ^ shift :=
    magUnits_shift (by omega) (by omega)
  have heven : shift * 2 ^ 23 % 2 = 0 := by omega
  have hr' : (r : Int) < den * 2 ^ shift := by exact_mod_cast hr
  have hcast : ((den * 2 ^ shift : Nat) : Int) = (den : Int) * 2 ^ shift := by push_cast; ring
  rw [hres]
  generalize shift * 2 ^ 23 = base at *
  -- the lower and the upper neighbour, and what is farther away, as numbers over `den`
  have hL : (magUnits (base + m) : Int) * den = num - r := by
    rw [hlow, hnum]; push_cast; ring
  have hH : (magUnits (base + (m + 1)) : Int) * den = num - r + den * 2 ^ shift := by
    rw [hhigh, hnum]; push_cast; ring
  have hlt1 : z < base + m → (magUnits z : Int) * den < num - r := by
    intro h; rw [← hL]; exact_mod_cast Nat.mul_lt_mul_of_pos_right (magUnits_strictMono h) hden
  have hlt2 : base + (m + 1) < z → (num : Int) - r + den * 2 ^ shift < (magUnits z : Int) * den := by
    intro h; rw [← hH]; exact_mod_cast Nat.mul_lt_mul_of_pos_right (magUnits_strictMono h) hden
  have hz : z < base + m ∨ z = base + m ∨ z = base + (m + 1) ∨ base + (m + 1) < z := by omega
  simp only [Int.abs_eq_natAbs]
  generalize (den : Int) * 2 ^ shift = D at *
  generalize den * 2 ^ shift = Dn at *
  split
  · rw [hH]
    rcases hz with h | h | h | h
    · have := hlt1 h
      omega
    · rw [h, hL]
      omega
    · rw [h, hH]
      exact ⟨le_refl _, fun _ hne => absurd rfl hne⟩
    · have := hlt2 h
      omega
  · rw [hL]
    rcases hz with h | h | h | h
    · have := hlt1 h
      omega
    · rw [h, hL]
      exact ⟨le_refl _, fun _ hne => absurd rfl hne⟩
    · rw [h, hH]
      omega
    · have := hlt2 h
      omega

/-- Rounding does not pass a magnitude that bounds the exact value from above. -/
theorem roundMagFree_le {num den z : Nat} (hden : 0 < den) (h : num ≤ magUnits z * den) :
    roundMagFree num den ≤ z := by
  by_contra hc
  have hlt := Nat.mul_lt_mul_of_pos_right (magUnits_strictMono (Nat.lt_of_not_le hc)) hden
  have hn := (roundMagFree_nearest (num := num) hden z).1
  zify at h hlt
  rw [abs_of_nonpos (by linarith), abs_of_nonpos (by linarith)] at hn
  linarith

/-- Rounding does not pass a magnitude that bounds the exact value from below. -/
theorem le_roundMagFree {num den z : Nat} (hden : 0 < den) (h : magUnits z * den ≤ num) :
    z ≤ roundMagFree num den := by
  by_contra hc
  have hlt := Nat.mul_lt_mul_of_pos_right (magUnits_strictMono (Nat.lt_of_not_le hc)) hden
  have hn := (roundMagFree_nearest (num := num) hden z).1
  zify at h hlt
  rw [abs_of_nonneg (by linarith), abs_of_nonneg (by linarith)] at hn
  linarith

/-- The numbers that round past the largest finite value are those from half a unit in its last place above it
on (00_scope.md R14). -/
theorem infMag_le_roundMagFree {num den : Nat} (hden : 0 < den) :
    infMag ≤ roundMagFree num den ↔ 33554431 * (2 ^ 252 * den) ≤ num := by
  have htop : (magUnits infMag : Int) * den = 33554432 * (2 ^ 252 * den : Nat) := by
    have h : magUnits infMag = 33554432 * 2 ^ 252 := by decide +kernel
    rw [h]; push_cast; ring
  have hbelow : (magUnits (infMag - 1) : Int) * den = 33554430 * (2 ^ 252 * den : Nat) := by
    have h : magUnits (infMag - 1) = 33554430 * 2 ^ 252 := by decide +kernel
    rw [h]; push_cast; ring
  have hmono : ∀ {u v : Nat}, u ≤ v → (magUnits u : Int) * den ≤ magUnits v * den := fun h =>
    mul_le_mul_of_nonneg_right (by exact_mod_cast magUnits_strictMono.monotone h) (by positivity)
  have hw : 0 < 2 ^ 252 * den := by positivity
  constructor
  · intro h
    have hn := (roundMagFree_nearest (num := num) hden (infMag - 1)).1
    have hm := hmono h
    rw [htop] at hm
    rw [hbelow] at hn
    generalize (magUnits (roundMagFree num den) : Int) * den = x at *
    generalize 2 ^ 252 * den = w at *
    simp only [Int.abs_eq_natAbs] at hn
    omega
  · intro h
    by_contra hc
    have hn := roundMagFree_nearest (num := num) hden infMag
    rw [htop] at hn
    by_cases heq : roundMagFree num den = infMag - 1
    · rw [heq, hbelow] at hn
      have hodd : ¬ (infMag - 1) % 2 = 0 := by decide
      have hne : ¬ |(num : Int) - 33554430 * (2 ^ 252 * den : Nat)| =
          |(num : Int) - 33554432 * (2 ^ 252 * den : Nat)| := fun he => hodd (hn.2 he (by decide))
      have h1 := hn.1
      clear hn
      generalize 2 ^ 252 * den = w at *
      simp only [Int.abs_eq_natAbs] at h1 hne
      omega
    · have hm := magUnits_strictMono (show roundMagFree num den < infMag - 1 by omega)
      have hm2 : (magUnits (roundMagFree num den) : Int) * den < magUnits (infMag - 1) * den :=
        mul_lt_mul_of_pos_right (by exact_mod_cast hm) (by exact_mod_cast hden)
      rw [hbelow] at hm2
      have h1 := hn.1
      generalize (magUnits (roundMagFree num den) : Int) * den = x at *
      generalize 2 ^ 252 * den = w at *
      simp only [Int.abs_eq_natAbs] at h1
      omega
theorem roundMag_le {num den z : Nat} (hden : 0 < den) (h : num ≤ magUnits z * den) :
    roundMag num den ≤ z := by
  rw [roundMag_eq]; exact le_trans (min_le_left _ _) (roundMagFree_le hden h)

theorem le_roundMag {num den z : Nat} (hden : 0 < den) (hz : z ≤ infMag) (h : magUnits z * den ≤ num) :
    z ≤ roundMag num den := by
  rw [roundMag_eq]; exact le_min (le_roundMagFree hden h) hz

/-- A value that binary32 has is its own rounding (00_scope.md R14). -/
theorem roundMag_exact {den z : Nat} (hden : 0 < den) (hz : z ≤ infMag) :
    roundMag (magUnits z * den) den = z :=
  le_antisymm (roundMag_le hden (le_refl _)) (le_roundMag hden hz (le_refl _))

theorem roundMag_le_infMag (num den : Nat) : roundMag num den ≤ infMag := min_le_right _ _

theorem roundMag_lt (num den : Nat) : roundMag num den < 2 ^ 31 :=
  Nat.lt_of_le_of_lt (roundMag_le_infMag num den) (by decide)

@[simp] theorem isNaN_ofSignMag {neg : Bool} {mag : Nat} (h : mag ≤ infMag) :
    isNaN (ofSignMag neg mag) = false := by
  have hlt : mag < 2 ^ 31 := Nat.lt_of_le_of_lt h (by decide)
  simp [isNaN, f32Mag_ofSignMag hlt, h]

@[simp] theorem isInf_ofSignMag {neg : Bool} {mag : Nat} (h : mag < 2 ^ 31) :
    isInf (ofSignMag neg mag) = decide (mag = infMag) := by
  simp [isInf, f32Mag_ofSignMag h]

@[simp] theorem isZero_ofSignMag {neg : Bool} {mag : Nat} (h : mag < 2 ^ 31) :
    isZero (ofSignMag neg mag) = decide (mag = 0) := by
  simp [isZero, f32Mag_ofSignMag h]

@[simp] theorem roundMag_zero {den : Nat} (hden : 0 < den) : roundMag 0 den = 0 := by
  simpa using roundMag_exact (z := 0) hden (by decide)

/-- Every number of at most 24 bits, scaled by a power of two, is the magnitude of some value, up to the
largest exponent. -/
theorem exists_magUnits {m : Nat} (k : Nat) (hm : m < 2 ^ 24) (hk : k ≤ 253) :
    ∃ z < infMag, magUnits z = m * 2 ^ k := by
  induction k with
  | zero =>
    refine ⟨m, Nat.lt_trans hm (by decide), ?_⟩
    simpa using magUnits_shift (shift := 0) (m := m) (by omega) (.inl rfl)
  | succ k ih =>
    obtain ⟨z, hz, he⟩ := ih (by omega)
    rcases Nat.lt_or_ge z (2 ^ 23) with h | h
    · -- doubling a subnormal
      have h1 : magUnits z = z := by
        simpa using magUnits_shift (shift := 0) (m := z) (by omega) (.inl rfl)
      refine ⟨2 * z, by unfold infMag; omega, ?_⟩
      have h2 : magUnits (2 * z) = 2 * z := by
        simpa using magUnits_shift (shift := 0) (m := 2 * z) (by omega) (.inl rfl)
      rw [h2, ← h1, he, Nat.pow_succ]
      ring
    · -- the next exponent
      have hdm := Nat.div_add_mod z (2 ^ 23)
      have hlt := Nat.mod_lt z (show 0 < 2 ^ 23 by decide)
      obtain ⟨e, hed⟩ : ∃ e, z / 2 ^ 23 = e + 1 := ⟨z / 2 ^ 23 - 1, by omega⟩
      have h1 : z = e * 2 ^ 23 + (2 ^ 23 + z % 2 ^ 23) := by omega
      have h2 : z + 2 ^ 23 = (e + 1) * 2 ^ 23 + (2 ^ 23 + z % 2 ^ 23) := by omega
      have hu : magUnits z = (2 ^ 23 + z % 2 ^ 23) * 2 ^ e := by
        conv_lhs => rw [h1]
        exact magUnits_shift (by omega) (.inr (by omega))
      refine ⟨z + 2 ^ 23, ?_, ?_⟩
      · -- an overflow would need more than 24 bits
        by_contra hc
        have he' : 253 ≤ e := by unfold infMag at hc; omega
        have : 2 ^ 23 * 2 ^ e ≤ m * 2 ^ k := by
          rw [← he, hu]; exact Nat.mul_le_mul_right _ (by omega)
        have h3 : m * 2 ^ k < 2 ^ 24 * 2 ^ k := Nat.mul_lt_mul_of_pos_right hm (Nat.two_pow_pos _)
        have h4 : 2 ^ 24 * 2 ^ k ≤ 2 ^ 23 * 2 ^ e := by
          rw [← Nat.pow_add, ← Nat.pow_add]
          exact Nat.pow_le_pow_right (by decide) (by omega)
        omega
      · rw [h2, magUnits_shift (by omega) (.inr (by omega)), pow_succ 2 e, ← Nat.mul_assoc, ← hu, he,
          pow_succ 2 k, Nat.mul_assoc]

/-- A signed value `num / den` and its rounding: no value is nearer, and where another value is as near the
rounded one is even (00_scope.md R14). -/
theorem ofSignMag_nearest {neg : Bool} {num den : Nat} {z : F32} (hden : 0 < den) {N : Int}
    (hN : N = if neg then -(num : Int) else num)
    (hf : isFinite (ofSignMag neg (roundMag num den)) = true) :
    |N - scaled (ofSignMag neg (roundMag num den)) * den| ≤ |N - scaled z * den| ∧
    (|N - scaled (ofSignMag neg (roundMag num den)) * den| = |N - scaled z * den| →
      scaled z ≠ scaled (ofSignMag neg (roundMag num den)) →
      (ofSignMag neg (roundMag num den)).toNat % 2 = 0) := by
  have hlt := roundMag_lt num den
  rw [isFinite_iff, f32Mag_ofSignMag hlt] at hf
  have hfree : roundMag num den = roundMagFree num den := by
    rw [roundMag_eq] at hf ⊢; omega
  obtain ⟨h1, h2⟩ := roundMagFree_nearest (num := num) hden (f32Mag z)
  rw [← hfree] at h1 h2
  rw [scaled_ofSignMag hlt, ofSignMag_toNat hlt]
  have hpar : (roundMag num den + if neg = true then 2 ^ 31 else 0) % 2 = roundMag num den % 2 := by
    cases neg
    · simp
    · simp only [if_true]; omega
  rw [hpar]
  have hz : scaled z = (magUnits (f32Mag z) : Int) ∨ scaled z = -(magUnits (f32Mag z) : Int) := by
    cases hn : f32Neg z
    · exact .inl (scaled_of_nonneg hn)
    · exact .inr (scaled_of_neg hn)
  have hinj : f32Mag z = roundMag num den ↔ magUnits (f32Mag z) = magUnits (roundMag num den) :=
    magUnits_strictMono.injective.eq_iff.symm
  rw [ne_eq, hinj] at h2
  have hnum0 : num = 0 → magUnits (roundMag num den) = 0 := by
    rintro rfl; rw [roundMag_zero hden]; rfl
  generalize roundMag num den = v at *
  generalize magUnits v = V at *
  generalize magUnits (f32Mag z) = Z at *
  have hV : (0 : Int) ≤ V * den := by positivity
  have hZ : (0 : Int) ≤ Z * den := by positivity
  have hVe : (V : Int) * den = 0 ↔ V = 0 := by simp; omega
  have hZe : (Z : Int) * den = 0 ↔ Z = 0 := by simp; omega
  simp only [Int.abs_eq_natAbs] at *
  rcases hz with hz | hz <;> (rw [hz]; cases neg) <;>
    simp only [Bool.false_eq_true, if_false, if_true] at hN ⊢ <;> subst hN <;>
    (try simp only [Int.neg_mul]
     generalize (V : Int) * den = A at *
     generalize (Z : Int) * den = B at *
     constructor
     · omega
     · intro h3 h4
       apply h2 <;> omega)

/-- The sum of finite values is their exact sum, rounded once (00_scope.md R14). -/
theorem fadd_finite {a b : F32} (ha : isFinite a = true) (hb : isFinite b = true) :
    fadd a b = roundUnits (f32Neg a && f32Neg b) (scaled a + scaled b) := by
  simp [fadd, isFinite_not_isNaN ha, isFinite_not_isNaN hb, isFinite_not_isInf ha, isFinite_not_isInf hb]

theorem scaled_eq_sign (a : F32) : scaled a = if f32Neg a then -(scaledMag a : Int) else scaledMag a := rfl

/-! Values that need no rounding -/

/-- A number of units that some finite value has is its own rounding (00_scope.md R14). -/
theorem roundUnits_of_magUnits {b : Bool} {n : Int} {z : Nat} (hz : z < infMag)
    (hn : n.natAbs = magUnits z) :
    roundUnits b n = ofSignMag (if n = 0 then b else decide (n < 0)) z := by
  unfold roundUnits
  split
  · next h =>
    rw [h, Int.natAbs_zero] at hn
    rw [magUnits_eq_zero.1 hn.symm]
  · rw [hn]
    congr 1
    simpa using roundMag_exact (den := 1) (by decide) (Nat.le_of_lt hz)

/-- A number of units of at most 24 significant bits is its own rounding (00_scope.md R14). -/
theorem roundUnits_exact {b : Bool} {n : Int} {m k : Nat} (hm : m < 2 ^ 24) (hk : k ≤ 253)
    (hn : n.natAbs = m * 2 ^ k) :
    isFinite (roundUnits b n) = true ∧ scaled (roundUnits b n) = n ∧
      f32Neg (roundUnits b n) = if n = 0 then b else decide (n < 0) := by
  obtain ⟨z, hz, hu⟩ := exists_magUnits k hm hk
  have hz31 : z < 2 ^ 31 := Nat.lt_trans hz (by decide)
  rw [roundUnits_of_magUnits hz (hn.trans hu.symm), isFinite_iff, f32Mag_ofSignMag hz31,
    f32Neg_ofSignMag hz31, scaled_ofSignMag hz31]
  refine ⟨hz, ?_, rfl⟩
  by_cases h0 : n = 0
  · have hm0 : magUnits z = 0 := by rw [hu, ← hn, h0]; rfl
    simp [hm0, h0]
  · rw [if_neg h0]
    simp only [decide_eq_true_eq]
    split <;> omega

/-- Every finite magnitude is a significand of at most 24 bits at an exponent of at most 253. -/
theorem magUnits_factors {mag : Nat} (h : mag < infMag) :
    ∃ m k : Nat, m < 2 ^ 24 ∧ k ≤ 253 ∧ magUnits mag = m * 2 ^ k := by
  have hdm := Nat.div_add_mod mag (2 ^ 23)
  have hlt := Nat.mod_lt mag (show 0 < 2 ^ 23 by decide)
  unfold magUnits
  split
  · exact ⟨mag % 2 ^ 23, 0, by omega, by omega, by rw [Nat.pow_zero, Nat.mul_one]⟩
  · exact ⟨2 ^ 23 + mag % 2 ^ 23, mag / 2 ^ 23 - 1, by omega, by unfold infMag at h; omega, rfl⟩

/-- The remainder of a finite value by 1 needs no rounding (00_scope.md R17). -/
theorem scaled_emod_one_exact {a : F32} (h : isFinite a = true) (h0 : 0 ≤ scaled a) :
    ∃ m k : Nat, m < 2 ^ 24 ∧ k ≤ 253 ∧ (scaled a % (unitsPerOne : Int)).natAbs = m * 2 ^ k := by
  obtain ⟨m, k, hm, hk, he⟩ := magUnits_factors ((isFinite_iff a).1 h)
  have hs : scaled a = ((m * 2 ^ k : Nat) : Int) := by
    rw [← he, ← natAbs_scaled]; omega
  rw [hs, ← Int.natCast_emod, Int.natAbs_natCast]
  rcases Nat.le_total k 149 with hle | hle
  · refine ⟨m % 2 ^ (149 - k), k, Nat.lt_of_le_of_lt (Nat.mod_le _ _) hm, hk, ?_⟩
    have hu : unitsPerOne = 2 ^ (149 - k) * 2 ^ k := by
      rw [← Nat.pow_add, Nat.sub_add_cancel hle]; rfl
    rw [hu, Nat.mul_mod_mul_right]
  · refine ⟨0, 0, by decide, by decide, ?_⟩
    have hu : m * 2 ^ k = unitsPerOne * (m * 2 ^ (k - 149)) := by
      unfold unitsPerOne
      rw [Nat.mul_left_comm, ← Nat.pow_add, Nat.add_sub_cancel' hle]
    rw [hu, Nat.mul_mod_right, Nat.zero_mul]

/-! Finite operands, rates and phases -/

/-- A legal sample rate or rate: a finite value above 0. -/
theorem positiveFinite_iff {v : F32} : positiveFinite v = true ↔ isFinite v = true ∧ 0 < scaled v := by
  unfold positiveFinite
  rw [Bool.and_eq_true]
  constructor
  · rintro ⟨h1, h2⟩
    rw [flt_iff (by decide) (isFinite_not_isNaN h1)] at h2
    exact ⟨h1, h2⟩
  · rintro ⟨h1, h2⟩
    exact ⟨h1, (flt_iff (by decide) (isFinite_not_isNaN h1)).2 h2⟩

/-- A value above 0 has sign 0. -/
theorem f32Neg_of_pos {v : F32} (h : 0 < scaled v) : f32Neg v = false := by
  cases hn : f32Neg v
  · rfl
  · rw [scaled_of_neg hn] at h; omega

/-- A phase in [+0.0, 1.0), in units. -/
theorem phaseAdmissible_iff {v : F32} : Config.phaseAdmissible v = true ↔
    isFinite v = true ∧ f32Neg v = false ∧ scaled v < 2 ^ 149 := by
  have e1 : scaled f32One = 2 ^ 149 := by decide +kernel
  have e0 : scaled f32Zero = 0 := by decide
  unfold Config.phaseAdmissible
  simp only [Bool.and_eq_true, Bool.not_eq_true']
  constructor
  · rintro ⟨⟨h1, h2⟩, h3⟩
    have hn : isNaN v = false := by
      cases h : isNaN v
      · rfl
      · simp [fle, h] at h1
    rw [flt_iff hn (by decide), e1] at h2
    refine ⟨?_, h3, h2⟩
    rw [isFinite_iff]
    rw [scaled_of_nonneg h3] at h2
    by_contra hc
    have h4 : magUnits infMag ≤ magUnits (f32Mag v) := magUnits_strictMono.monotone (by omega)
    have h5 : 2 ^ 149 ≤ magUnits infMag := by decide +kernel
    have : (2:Int)^149 ≤ magUnits (f32Mag v) := by exact_mod_cast h5.trans h4
    omega
  · rintro ⟨h1, h2, h3⟩
    have hn := isFinite_not_isNaN h1
    rw [flt_iff hn (by decide), fle_iff (by decide) hn, e1, e0]
    refine ⟨⟨?_, h3⟩, h2⟩
    rw [scaled_of_nonneg h2]; omega

/-- The quotient of finite values by one that is not zero is the exact quotient, rounded once (00_scope.md
R14). -/
theorem fdiv_finite {a b : F32} (ha : isFinite a = true) (hb : isFinite b = true) (h0 : scaled b ≠ 0) :
    fdiv a b = ofSignMag (f32Neg a != f32Neg b) (roundMag (scaledMag a * unitsPerOne) (scaledMag b)) := by
  have hbz : isZero b = false := by
    simp only [isZero, decide_eq_false_iff_not]
    intro h
    apply h0
    have := natAbs_scaled b
    rw [h] at this
    simpa using this
  simp only [fdiv, isFinite_not_isNaN ha, isFinite_not_isNaN hb, isFinite_not_isInf ha,
    isFinite_not_isInf hb, Bool.or_self, Bool.false_eq_true, if_false,
    hbz]

/-- The product of finite values is their exact product, rounded once (00_scope.md R14). -/
theorem fmul_finite {a b : F32} (ha : isFinite a = true) (hb : isFinite b = true) :
    fmul a b = ofSignMag (f32Neg a != f32Neg b) (roundMag (scaledMag a * scaledMag b) unitsPerOne) := by
  simp only [fmul, isFinite_not_isNaN ha, isFinite_not_isNaN hb, isFinite_not_isInf ha,
    isFinite_not_isInf hb, Bool.or_self, Bool.false_eq_true, if_false]

/-- A number of units that is not negative rounds to a value without a sign. -/
theorem roundUnits_nonneg {n : Int} (h : 0 ≤ n) : f32Neg (roundUnits false n) = false := by
  unfold roundUnits
  split
  · exact f32Neg_ofSignMag (by decide)
  · rw [f32Neg_ofSignMag (roundMag_lt _ _)]; simpa using h

/-- A finite sum with a finite addend, neither of them signed, is the exact sum, rounded once. -/
theorem fadd_phase {p inc : F32} (hp : isFinite p = true) (hp0 : f32Neg p = false)
    (hf : isFinite (fadd p inc) = true) :
    isFinite inc = true ∧ fadd p inc = roundUnits false (scaled p + scaled inc) := by
  have hfi : isFinite inc = true := by
    by_contra hc
    unfold fadd at hf
    simp only [isFinite_not_isNaN hp, isFinite_not_isInf hp, Bool.false_or, Bool.false_eq_true, if_false] at hf
    split at hf
    · revert hf; decide
    · next h =>
      split at hf
      · exact hc hf
      · next h2 =>
        simp only [isNaN, isInf, isFinite, decide_eq_true_eq] at h h2 hc
        omega
  refine ⟨hfi, ?_⟩
  rw [fadd_finite hp hfi, hp0]; rfl

/-- Two values without a sign are equal when they are the same number of units. -/
theorem eq_of_scaled {a b : F32} (ha : f32Neg a = false) (hb : f32Neg b = false)
    (h : scaled a = scaled b) : a = b := by
  rw [scaled_of_nonneg ha, scaled_of_nonneg hb] at h
  rw [← ofSignMag_sign_mag a, ← ofSignMag_sign_mag b, ha, hb]
  congr 1
  exact magUnits_strictMono.injective (by exact_mod_cast h)

end Sys2Proof.Machine
end

