-- ==== Sys2Proof/Laws/PerInstr.lean ====
section
/-! SUPPORT. The families of statements that are made instruction by instruction. -/

namespace Sys2Proof.Laws

/-- The command's fields are a legal word, and
cutting its word into fields gives those fields back (30_encoding.md R55, R59). -/
def LegalEncoding.Statement (i : Instr) : Prop :=
  (encodeFields i).wellFormed = true ∧ fieldsOf (encode i) = encodeFields i

namespace LegalEncoding

theorem nop (sel : ChSel) : Statement (.nop sel) :=
  ⟨by rcases sel with (_ | _) | _ <;> decide, fieldsOf_encode _⟩

theorem dlInit (c : Channel) (k : Tap) : Statement (.dlInit c k) :=
  ⟨by cases c <;> cases k <;> decide, fieldsOf_encode _⟩

theorem dlResize (c : Channel) (k : Tap) : Statement (.dlResize c k) :=
  ⟨by cases c <;> cases k <;> decide, fieldsOf_encode _⟩

theorem dlProcess (c : Channel) (k : Tap) : Statement (.dlProcess c k) :=
  ⟨by cases c <;> cases k <;> decide, fieldsOf_encode _⟩

theorem lfoInit (c : Channel) (k : Tap) : Statement (.lfoInit c k) :=
  ⟨by cases c <;> cases k <;> decide, fieldsOf_encode _⟩

theorem lfoValue (c : Channel) (k : Tap) : Statement (.lfoValue c k) :=
  ⟨by cases c <;> cases k <;> decide, fieldsOf_encode _⟩

theorem lfoAdvance (c : Channel) (k : Tap) : Statement (.lfoAdvance c k) :=
  ⟨by cases c <;> cases k <;> decide, fieldsOf_encode _⟩

theorem lfoSetRate (c : Channel) (k : Tap) : Statement (.lfoSetRate c k) :=
  ⟨by cases c <;> cases k <;> decide, fieldsOf_encode _⟩

theorem fbResize (c : Channel) : Statement (.fbResize c) :=
  ⟨by cases c <;> decide, fieldsOf_encode _⟩

theorem fbRead (c : Channel) : Statement (.fbRead c) :=
  ⟨by cases c <;> decide, fieldsOf_encode _⟩

theorem fbPush (c : Channel) : Statement (.fbPush c) :=
  ⟨by cases c <;> decide, fieldsOf_encode _⟩

theorem engSetSampleRate (sel : ChSel) : Statement (.engSetSampleRate sel) :=
  ⟨by rcases sel with (_ | _) | _ <;> decide, fieldsOf_encode _⟩

theorem engProcess (c : Channel) : Statement (.engProcess c) :=
  ⟨by cases c <;> decide, fieldsOf_encode _⟩

theorem stProcess : Statement .stProcess := ⟨by decide, fieldsOf_encode _⟩

theorem csrRead (sel : ChSel) : Statement (.csrRead sel) :=
  ⟨by rcases sel with (_ | _) | _ <;> decide, fieldsOf_encode _⟩

theorem csrWrite (sel : ChSel) : Statement (.csrWrite sel) :=
  ⟨by rcases sel with (_ | _) | _ <;> decide, fieldsOf_encode _⟩

theorem memPeek (c : Channel) (u : PeekUnit) : Statement (.memPeek c u) :=
  ⟨by cases c <;> rcases u with (_ | _ | _) | _ <;> decide, fieldsOf_encode _⟩

end LegalEncoding

end Sys2Proof.Laws
end

