-- ==== Sys2Proof/Tests/Slice0.lean ====
section
/-! SUPPORT. Tests. Expected results come from 30_encoding.md and 95_test_vectors.md (the table and the row are
named), not from the model. The witnesses at the end give, for every statement with hypotheses, a state and
operands that meet them all, each clause at a boundary of its range. -/

namespace Sys2Proof.Machine.Tests

/-! The tests run one after another: side by side they take more threads than the check allows. -/
set_option Elab.async false

open Sys2Proof Sys2Proof.Machine

/-! WellFormed: each of the four checks refuses a term that breaks it alone (30_encoding.md R59). -/

theorem test_wellFormed_accepts : Fields.wellFormed ⟨0x03#8, 2#2, 1#2, 0#20⟩ = true := by decide

theorem test_wellFormed_refuses_rsv : Fields.wellFormed ⟨0x03#8, 2#2, 1#2, 1#20⟩ = false := by decide

theorem test_wellFormed_refuses_opcode : Fields.wellFormed ⟨0x43#8, 2#2, 1#2, 0#20⟩ = false := by decide

theorem test_wellFormed_refuses_channel : Fields.wellFormed ⟨0x03#8, 2#2, 3#2, 0#20⟩ = false := by decide

theorem test_wellFormed_refuses_unit : Fields.wellFormed ⟨0x03#8, 3#2, 1#2, 0#20⟩ = false := by decide

/-! Decoding: one word of every row, written RSV, CH, U, OP from 30_encoding.md R55, R59. -/

theorem test_decode_nop : decode 0b00000000000000000000_11_00_00000000#32 = .ok (.nop .both) := by decide

theorem test_decode_dlInit :
    decode 0b00000000000000000000_10_10_00000001#32 = .ok (.dlInit .right .tap2) := by decide

theorem test_decode_dlResize :
    decode 0b00000000000000000000_01_01_00000010#32 = .ok (.dlResize .left .tap1) := by decide

theorem test_decode_dlProcess :
    decode 0b00000000000000000000_01_00_00000011#32 = .ok (.dlProcess .left .tap0) := by decide

theorem test_decode_lfoInit :
    decode 0b00000000000000000000_10_00_00010000#32 = .ok (.lfoInit .right .tap0) := by decide

theorem test_decode_lfoValue :
    decode 0b00000000000000000000_01_01_00010001#32 = .ok (.lfoValue .left .tap1) := by decide

theorem test_decode_lfoAdvance :
    decode 0b00000000000000000000_10_10_00010010#32 = .ok (.lfoAdvance .right .tap2) := by decide

theorem test_decode_lfoSetRate :
    decode 0b00000000000000000000_01_10_00010011#32 = .ok (.lfoSetRate .left .tap2) := by decide

theorem test_decode_fbResize :
    decode 0b00000000000000000000_10_00_00100000#32 = .ok (.fbResize .right) := by decide

theorem test_decode_fbRead :
    decode 0b00000000000000000000_01_00_00100001#32 = .ok (.fbRead .left) := by decide

theorem test_decode_fbPush :
    decode 0b00000000000000000000_10_00_00100010#32 = .ok (.fbPush .right) := by decide

theorem test_decode_engSetSampleRate :
    decode 0b00000000000000000000_11_00_00110000#32 = .ok (.engSetSampleRate .both) := by decide

theorem test_decode_engProcess :
    decode 0b00000000000000000000_10_00_00110001#32 = .ok (.engProcess .right) := by decide

theorem test_decode_stProcess :
    decode 0b00000000000000000000_11_00_00110010#32 = .ok .stProcess := by decide

theorem test_decode_csrRead :
    decode 0b00000000000000000000_11_00_01000000#32 = .ok (.csrRead .both) := by decide

theorem test_decode_csrWrite :
    decode 0b00000000000000000000_01_00_01000001#32 = .ok (.csrWrite (.one .left)) := by decide

theorem test_decode_memPeek :
    decode 0b00000000000000000000_01_11_01000010#32 = .ok (.memPeek .left .fb) := by decide

/-- The illegal words of 95_test_vectors.md 2.1. -/
theorem test_decode_illegal :
    ([0x00000000#32, 0x00000303#32, 0x00000703#32, 0x00000743#32, 0x000004FF#32, 0x00000520#32,
      0x00001431#32, 0x00000832#32, 0x00000C31#32].all fun w => (decode w).toOption.isNone) = true := by
  decide

/-- The lanes of a word, lane 0 first (20_memory.md R43), and the word of fewer lanes than four. -/
theorem test_lanes :
    lanesOfWord 0x12345678#32 = [0x78#8, 0x56#8, 0x34#8, 0x12#8] ∧
      decodeBytes [0x00#8, 0x04#8] = .error .notOneWord := by decide

theorem test_decodeTableWord :
    decodeTableWord 32 0x00000A12 = some (.lfoAdvance .right .tap2) ∧
      decodeTableWord 32 0x00000703 = none := by decide

/-! Small states -/

/-- Four words 1, 2, 3, 4 with the cursor at 0: the buffer of vector DL1 before its fifth call. -/
def ring4 : Ring := ⟨4, 0, [(0, 1#32), (1, 2#32), (2, 3#32), (3, 4#32)]⟩

/-- The buffer of 95_test_vectors.md 2.4: 1.0, 2.0, 3.0 pushed. -/
def fb4 : Ring := ⟨4, 3, [(0, 0x3F800000#32), (1, 0x40000000#32), (2, 0x40400000#32)]⟩

/-- A channel with four-word buffers and an LFO at the given phase, rate and sample rate on each tap. -/
def smallChan (phase : F32) (rate : Option F32) (sr : F32) : ChannelState where
  sampleRate := 0x41800000#32
  sized := false
  params := ⟨none, none, none, none, none, none⟩
  dl := ⟨ring4, ring4, ring4⟩
  fb := fb4
  lfo := ⟨⟨phase, rate, sr⟩, ⟨phase, rate, sr⟩, ⟨phase, rate, sr⟩⟩

/-- A block that is not halted, with the same state in both channels, operands and a host. -/
def blockWith (ch : ChannelState) (a b c : Word) (pending : List HostEvent := []) : State where
  cmd := 0#32
  opa := a
  opb := b
  opc := c
  res0 := 0#32
  res1 := 0#32
  faultCause := 0#32
  faultInfo := 0#32
  faultCmd := 0#32
  faultCh := 0#2
  faultUnit := 0#2
  left := ch
  right := ch
  host := ⟨pending, [], 0⟩

/-- The small block with the LFOs of vector L1 at phase 0.25 (sample rate 4.0, rate 1.0). -/
def small (a b c : Word) (pending : List HostEvent := []) : State :=
  blockWith (smallChan 0x3E800000#32 (some 0x3F800000#32) 0x40800000#32) a b c pending

/-- The same block halted by INDEX_RANGE. -/
def smallHalted (a b c : Word) (pending : List HostEvent := []) : State :=
  (small a b c pending).withFault 11#32 4#32 0x00000442#32 1#2 0#2

/-- A channel sized for one second of `cap` samples, with six parameters and phases. -/
def engChan (sr : F32) (cap : Nat) (delay depth feedback wet dry p0 p1 p2 : F32) : ChannelState where
  sampleRate := sr
  sized := true
  params := ⟨some delay, some depth, some 0x3F800000#32, some feedback, some wet, some dry⟩
  dl := ⟨⟨cap, 0, []⟩, ⟨cap, 0, []⟩, ⟨cap, 0, []⟩⟩
  fb := ⟨cap, 0, []⟩
  lfo := ⟨⟨p0, none, sr⟩, ⟨p1, none, sr⟩, ⟨p2, none, sr⟩⟩

/-- The channel of vector E7 with tap 1 at phase 0.75: SR 16.0, 875 ms, 500 ms, wet 1.0. -/
def eng16 (p0 : F32) : ChannelState :=
  engChan 0x41800000#32 16 0x445AC000#32 0x43FA0000#32 0#32 0x3F800000#32 0#32 p0 0x3F400000#32 0#32

/-- The channel of vector E4: SR 1000.0, 3 ms, wet and dry 0.8. -/
def eng1000 : ChannelState :=
  engChan 0x447A0000#32 1000 0x40400000#32 0#32 0#32 0x3F4CCCCD#32 0x3F4CCCCD#32 0#32 0#32 0#32

/-- A channel of one-word buffers, which every MAX_CAPACITY allows. -/
def tinyChan : ChannelState :=
  engChan 0x3F800000#32 1 0x3F800000#32 0#32 0#32 0x3F800000#32 0#32 0#32 0#32 0#32

/-- A block of tiny channels. -/
def tiny (a b c : Word) (pending : List HostEvent := []) : State := blockWith tinyChan a b c pending

/-- The state after an outcome, where there is one. -/
def nextOf (o : Host.Outcome State Fault Refusal) : Option State :=
  match o with
  | .next t => some t
  | _ => none

theorem eq_next_of_nextOf {o : Host.Outcome State Fault Refusal} {t : State} (h : nextOf o = some t) :
    o = .next t := by
  unfold nextOf at h
  split at h
  · rw [Option.some.inj h]
  · cases h

theorem exists_next {o : Host.Outcome State Fault Refusal} {p : State → Bool}
    (h : (nextOf o).any p = true) : ∃ t, o = .next t ∧ p t = true := by
  unfold nextOf at h
  split at h
  · next t => exact ⟨t, rfl, h⟩
  · cases h

/-! Arithmetic (95_test_vectors.md 2.0, 2.3, 2.5.1) -/

theorem test_fadd : fadd 0x3F4CCCCD#32 0x3F4CCCCD#32 = 0x3FCCCCCD#32 := by decide +kernel

theorem test_fdiv_third : fdiv 0x3F800000#32 0x40400000#32 = 0x3EAAAAAB#32 := by decide +kernel

theorem test_fdiv_zero : fdiv 0#32 0#32 = 0x7FC00000#32 ∧ fdiv 0x3F800000#32 0x80000000#32 = 0xFF800000#32 := by
  decide +kernel

theorem test_fmul_overflow : fmul 0x7F7FFFFF#32 0x40000000#32 = 0x7F800000#32 := by decide +kernel

theorem test_roundHA_ties :
    roundHA 0x40200000#32 = 3 ∧ roundHA 0x3F000000#32 = 1 ∧ roundHA 0xBF000000#32 = -1 := by
  decide +kernel

theorem test_ceilInt : ceilInt 0x472C4480#32 = 44101 ∧ ceilInt 0x3F000000#32 = 1 := by decide +kernel

/-- The comment of vector L7: the increment, the sum and the wrapped phase. -/
theorem test_wrap_L7 :
    fdiv 0x3DCCCCCD#32 0x473B8000#32 = 0x360BCF65#32 ∧
      fadd 0x3F7FFFFF#32 0x360BCF65#32 = 0x3F800011#32 ∧ fmod1 0x3F800011#32 = 0x36080000#32 := by
  decide +kernel

/-! Commands -/

/-- Row 2 of 95_test_vectors.md 2.1. -/
theorem test_nop : exec (.nop (.one .left)) (small 1#32 2#32 3#32) = .next (small 1#32 2#32 3#32) := rfl

/-- Vector DL7 on the left channel: capacity 0. -/
theorem test_dlInit_zero :
    exec (.dlInit .left .tap1) (small 0#32 0#32 0#32) =
      .next ((small 0#32 0#32 0#32).withFault 3#32 0#32 0x00000501#32 1#2 1#2) :=
  eq_next_of_nextOf (by decide +kernel)

/-- Vector DL9: the fill word is kept verbatim in each of three words. -/
theorem test_bufAlloc_fill :
    bufAlloc 192000 3 0x7FC00001#32 =
      .ok ⟨3, 0, [(0, 0x7FC00001#32), (1, 0x7FC00001#32), (2, 0x7FC00001#32)]⟩ := by decide +kernel

/-- Vector DL8: a capacity above MAX_CAPACITY = 192000. -/
theorem test_bufAlloc_too_large :
    bufAlloc 192000 192001 0#32 = .error (.raise ⟨.capacity, 0x0002EE01#32, none, none⟩) := by
  decide +kernel

theorem test_dlResize_zero :
    exec (.dlResize .right .tap2) (small 0#32 0#32 0#32) =
      .next ((small 0#32 0#32 0#32).withFault 3#32 0#32 0x00000A02#32 2#2 2#2) :=
  eq_next_of_nextOf (by decide +kernel)

/-- The fifth call of vector DL1: input 5, delay 2, output 4, end buffer [5, 2, 3, 4], end cursor 1. -/
theorem test_dlProcess_DL1 :
    (nextOf (exec (.dlProcess .left .tap0) (small 5#32 2#32 0#32))).map
      (fun t => (t.res0, t.left.dl.tap0, t.left.dl.tap1)) =
      some (4#32, ⟨4, 1, [(0, 5#32), (1, 2#32), (2, 3#32), (3, 4#32)]⟩, ring4) := by decide +kernel

/-- Vector DL6: a delay equal to the capacity. -/
theorem test_dlProcess_DL6 :
    exec (.dlProcess .left .tap0) (small 5#32 4#32 0#32) =
      .next ((small 5#32 4#32 0#32).withFault 8#32 4#32 0x00000403#32 1#2 0#2) :=
  eq_next_of_nextOf (by decide +kernel)

/-- Vector L8: -0.0 is accepted and stored as +0.0. -/
theorem test_lfoInit_L8 :
    (nextOf (exec (.lfoInit .left .tap0) (small 0x40800000#32 0x3F800000#32 0x80000000#32))).map
      (fun t => t.left.lfo.tap0) = some ⟨0#32, some 0x3F800000#32, 0x40800000#32⟩ := by decide +kernel

/-- Vector L12: with an illegal rate too, the sample rate is the one reported. -/
theorem test_lfoInit_L12 :
    exec (.lfoInit .left .tap0) (small 0#32 0#32 0#32) =
      .next ((small 0#32 0#32 0#32).withFault 4#32 0#32 0x00000410#32 1#2 0#2) :=
  eq_next_of_nextOf (by decide +kernel)

/-- Vector L1 at phase 0.25. -/
theorem test_lfoValue_L1 :
    (nextOf (exec (.lfoValue .right .tap1) (small 0#32 0#32 0#32))).map (fun t => (t.res0, t.res1)) =
      some (0x3F800000#32, 0#32) := by decide +kernel

/-- Vector L1: from 0.25 to 0.5. -/
theorem test_lfoAdvance_L1 :
    (nextOf (exec (.lfoAdvance .left .tap2) (small 0#32 0#32 0#32))).map
      (fun t => (t.left.lfo.tap2.phase, t.left.lfo.tap1.phase)) =
      some (0x3F000000#32, 0x3E800000#32) := by decide +kernel

/-- Vector L3: 0.9 and 0.25 wrap to 0x3E199998. -/
theorem test_lfoAdvance_L3 :
    fmod1 (advancedPhase ⟨0x3F666666#32, none, 0x40800000#32⟩ 0x3F800000#32) = 0x3E199998#32 := by
  decide +kernel

/-- Vector L16: the phase stays and the rate becomes 2.0. -/
theorem test_lfoSetRate_L16 :
    (nextOf (exec (.lfoSetRate .left .tap0) (small 0x40000000#32 0#32 0#32))).map
      (fun t => t.left.lfo.tap0) = some ⟨0x3E800000#32, some 0x40000000#32, 0x40800000#32⟩ := by
  decide +kernel

/-- Vector FB7. -/
theorem test_fbResize_FB7 :
    exec (.fbResize .left) (small 0#32 0#32 0#32) =
      .next ((small 0#32 0#32 0#32).withFault 3#32 0#32 0x00000420#32 1#2 0#2) :=
  eq_next_of_nextOf (by decide +kernel)

/-- Vectors FB1 and FB2: the oldest slot at lookback 0, the last push at 1. -/
theorem test_fbRead_FB1_FB2 :
    (nextOf (exec (.fbRead .left) (small 0#32 0#32 0#32))).map (·.res0) = some 0#32 ∧
      (nextOf (exec (.fbRead .left) (small 1#32 0#32 0#32))).map (·.res0) = some 0x40400000#32 := by
  decide +kernel

/-- Vector FB5. -/
theorem test_fbRead_FB5 :
    exec (.fbRead .left) (small 4#32 0#32 0#32) =
      .next ((small 4#32 0#32 0#32).withFault 10#32 4#32 0x00000421#32 1#2 0#2) :=
  eq_next_of_nextOf (by decide +kernel)

/-- Vector FB6. -/
theorem test_fbPush_FB6 :
    (nextOf (exec (.fbPush .left) (small 0x40800000#32 0#32 0#32))).map (fun t => t.left.fb) =
      some ⟨4, 0, [(0, 0x3F800000#32), (1, 0x40000000#32), (2, 0x40400000#32), (3, 0x40800000#32)]⟩ := by
  decide +kernel

/-- 95_test_vectors.md 2.5.2: a NaN sample rate. -/
theorem test_engSetSampleRate_nan :
    exec (.engSetSampleRate .both) (small 0x7FC00001#32 0#32 0#32) =
      .next ((small 0x7FC00001#32 0#32 0#32).withFault 4#32 0x7FC00001#32 0x00000C30#32 3#2 0#2) :=
  eq_next_of_nextOf (by decide +kernel)

/-- Vector E4, sample 0: the headroom guard halves the output. -/
theorem test_engProcess_E4 :
    (nextOf (exec (.engProcess .left) (blockWith eng1000 0x3F800000#32 0#32 0#32))).map
      (fun t => (t.res0, t.left.fb.wc, Memory.read t.left.dl.tap2.buf 0, t.right.fb.wc)) =
      some (0x3F000000#32, 1, 0x3F800000#32, 0) := by decide +kernel

/-- Vector E7: tap 0 at phase 0.25 asks for delay 18. -/
theorem test_engProcess_E7 :
    exec (.engProcess .left) (blockWith (eng16 0x3E800000#32) 0#32 0#32 0#32) =
      .next ((blockWith (eng16 0x3E800000#32) 0#32 0#32 0#32).withFault 9#32 0x12#32 0x00000431#32 1#2 0#2) :=
  eq_next_of_nextOf (by decide +kernel)

/-- Program P5, line 8: the right channel's tap 0 fails, and neither channel changes. -/
theorem test_stProcess_P5 :
    let s : State := { blockWith (eng16 0#32) 0x3F800000#32 0x40000000#32 0#32 with right := eng16 0x3E800000#32 }
    exec .stProcess s = .next (s.withFault 9#32 0x12#32 0x00000C32#32 2#2 0#2) :=
  eq_next_of_nextOf (by decide +kernel)

/-- ID (10_state.md R27). -/
theorem test_csrRead_id :
    exec (.csrRead .both) (smallHalted 0#32 0#32 0#32) =
      .next { smallHalted 0#32 0#32 0#32 with res0 := 0x43485231#32 } :=
  eq_next_of_nextOf (by decide +kernel)

/-- Program P4, line 15: a per-channel register with CH = 11, dropped while halted. -/
theorem test_csrRead_dropped :
    exec (.csrRead .both) (smallHalted 0x12#32 0#32 0#32) = .next (smallHalted 0x12#32 0#32 0#32) :=
  eq_next_of_nextOf (by decide +kernel)

/-- 10_state.md R29: the largest legal feedback is set in both channels, the next word is not legal. -/
theorem test_csrWrite_feedback :
    (nextOf (exec (.csrWrite .both) (small 0x17#32 0x3F7FBE77#32 0#32))).map
      (fun t => (t.left.params.feedback, t.right.params.feedback, t.faultCause)) =
      some (some 0x3F7FBE77#32, some 0x3F7FBE77#32, 0#32) ∧
    (nextOf (exec (.csrWrite .both) (small 0x17#32 0x3F7FBE78#32 0#32))).map
      (fun t => (t.left.params.feedback, t.faultCause, t.faultInfo)) =
      some (none, 5#32, 0x3F7FBE78#32) := by decide +kernel

/-- 45_control.md R123: the last word of the feedback buffer, and the first index that does not exist. -/
theorem test_memPeek :
    (nextOf (exec (.memPeek .left .fb) (small 2#32 0#32 0#32))).map (·.res0) = some 0x40400000#32 ∧
    (nextOf (exec (.memPeek .left .fb) (small 4#32 0#32 0#32))).map (fun t => (t.faultCause, t.faultUnit)) =
      some (11#32, 3#2) := by decide +kernel

/-! The host window and the step -/

/-- Row 6 of 95_test_vectors.md 2.1 through the host window. -/
theorem test_step_illegal :
    (nextOf (step (small 0#32 0#32 0#32 [cmdWriteEvent 0x00000703#32]))).map
      (fun t => (t.cmd, t.faultCause, t.faultInfo, t.faultCh, t.faultUnit)) =
      some (0x00000703#32, 1#32, 0x00000703#32, 1#2, 3#2) := by decide +kernel

/-- 10_state.md R22, R32: HSTATUS reads 1 while halted. -/
theorem test_step_hstatus :
    (nextOf (step (smallHalted 0#32 0#32 0#32 [.read 0x18 4]))).map (·.host.readData) =
      some [1#8, 0#8, 0#8, 0#8] := by decide +kernel

/-- 20_memory.md R44: a byte access, an unaligned access and a write to RES0 are refused. -/
theorem test_step_refused :
    step (small 0#32 0#32 0#32 [.read 0x18 1]) = .refused .accessWidth ∧
      step (small 0#32 0#32 0#32 [.read 0x02 4]) = .refused .accessAlignment ∧
      step (small 0#32 0#32 0#32 [.write 0x10 (lanesOfWord 0#32)]) = .refused .writeReadOnly :=
  ⟨rfl, rfl, rfl⟩

/-- The fetch hook runs its word as the first command after reset (log 1). -/
theorem test_fetch_from_reset :
    step (State.reset.withFetchWord 32 0x00000400) = .next { State.reset with cmd := 0x00000400#32 } := rfl

theorem test_reset_memory_canonical (c : Channel) (u : PeekUnit) : Memory.wf (State.reset.ring c u).buf := by
  rcases u with (_ | _ | _) | _ <;> cases c <;>
    exact ⟨List.Pairwise.nil, fun _ h => (List.not_mem_nil h).elim⟩

/-! Assembler lines (30_encoding.md R62, R63) -/

/-- The word of vector L14. -/
theorem test_assemble_L14 :
    (assembleLine "lfo.advance.r u2".toList).map programEvents =
      some [.write 0x00 (lanesOfWord 0x00000A12#32)] := by decide +kernel

/-- Program P5, line 2. -/
theorem test_assemble_setp :
    (assembleLine "setp.lr delay_ms, 875.0".toList).map programEvents =
      some [.write 0x04 (lanesOfWord 0x00000014#32), .write 0x08 (lanesOfWord 0x445AC000#32),
        .write 0x00 (lanesOfWord 0x00000C41#32)] := by decide +kernel

/-! Witnesses -/

theorem one_le_maxCapacity : 1 ≤ Config.maxCapacity := Nat.succ_pos _

theorem maxCapacity_lt : Config.maxCapacity < 2 ^ 32 := by
  have := Nat.mod_lt Config.maxCapacityDraw (show 0 < 2 ^ 32 - 1 by decide)
  unfold Config.maxCapacity
  omega

theorem tinyRing_wf : Ring.Wf ⟨1, 0, []⟩ where
  capPos := le_refl 1
  capMax := one_le_maxCapacity
  cursor := Nat.zero_lt_one
  canonical := ⟨List.Pairwise.nil, fun _ h => (List.not_mem_nil h).elim⟩
  inside := fun _ h => (List.not_mem_nil h).elim

theorem tinyChan_wf : tinyChan.Wf where
  dl := fun k => by cases k <;> exact tinyRing_wf
  fb := tinyRing_wf
  lfo := fun k => by
    cases k <;> exact ⟨by decide +kernel, by decide +kernel, fun _ h => nomatch h⟩
  sampleRate := by decide +kernel
  params := fun p v h => by
    cases p <;> (obtain rfl := Option.some.inj h; decide +kernel)

theorem tiny_inv (a b c : Word) (pending : List HostEvent) : (tiny a b c pending).Inv :=
  ⟨tinyChan_wf, tinyChan_wf⟩

theorem tiny_sized (a b c : Word) (pending : List HostEvent) : (tiny a b c pending).SizedInv := by
  have h : tinyChan.SizedOk := fun _ => ⟨fun k => by cases k <;> decide +kernel, by decide +kernel⟩
  exact ⟨h, h⟩

theorem witness_StepRunsDecodedCommand :
    (small 0#32 0#32 0#32 [cmdWriteEvent 0x00000C00#32]).host.pending =
      .write 0x00 (lanesOfWord 0x00000C00#32) :: [] ∧ decode 0x00000C00#32 = .ok (.nop .both) :=
  ⟨rfl, by decide⟩

theorem witness_IllegalWordRaisesIllegalCommand :
    (small 0#32 0#32 0#32 [cmdWriteEvent 0x00001431#32]).host.pending =
      .write 0x00 (lanesOfWord 0x00001431#32) :: [] ∧ decode 0x00001431#32 = .error .reservedBits ∧
    (small 0#32 0#32 0#32 [cmdWriteEvent 0x00001431#32]).faultCause = 0#32 ∧
    (smallHalted 0#32 0#32 0#32 [cmdWriteEvent 0xFFFFFFFF#32]).host.pending =
      .write 0x00 (lanesOfWord 0xFFFFFFFF#32) :: [] ∧ decode 0xFFFFFFFF#32 = .error .reservedBits ∧
    (smallHalted 0#32 0#32 0#32 [cmdWriteEvent 0xFFFFFFFF#32]).faultCause ≠ 0#32 :=
  ⟨rfl, by decide, rfl, rfl, by decide, by decide⟩

theorem witness_OperandWritesStoreTheWord :
    (small 0#32 0#32 0#32 [.write 0x04 (lanesOfWord 0xFFFFFFFF#32)]).host.pending =
      .write 0x04 (lanesOfWord 0xFFFFFFFF#32) :: [] ∧
    (small 0#32 0#32 0#32 [.write 0x08 (lanesOfWord 0#32)]).host.pending =
      .write 0x08 (lanesOfWord 0#32) :: [] ∧
    (small 0#32 0#32 0#32 [.write 0x0C (lanesOfWord 0#32)]).host.pending =
      .write 0x0C (lanesOfWord 0#32) :: [] := ⟨rfl, rfl, rfl⟩

theorem witness_HostReadsReturnRegisters :
    let s := smallHalted 0#32 0#32 0#32 [.read 0x18 4]
    s.host.pending = .read 0x18 4 :: [] ∧
      (0x18, 1#32) ∈ [(0x00, s.cmd), (0x04, s.opa), (0x08, s.opb), (0x0C, s.opc), (0x10, s.res0),
        (0x14, s.res1), (0x18, if s.faultCause = 0#32 then 0#32 else 1#32)] :=
  ⟨rfl, by decide⟩

theorem witness_OtherHostAccessesHaveNoStep :
    (small 0#32 0#32 0#32 [.write 0x10 (lanesOfWord 0#32)]).host.pending =
      .write 0x10 (lanesOfWord 0#32) :: [] ∧
    (0x10 ∉ [0x00, 0x04, 0x08, 0x0C]) ∧
    (small 0#32 0#32 0#32 [.read 0x1C 4]).host.pending = .read 0x1C 4 :: [] ∧
    (0x1C ∉ [0x00, 0x04, 0x08, 0x0C, 0x10, 0x14, 0x18]) := ⟨rfl, by decide, rfl, by decide⟩

theorem witness_ResetInputRestoresResetState :
    (smallHalted 1#32 2#32 3#32 [.reset]).host.pending = .reset :: [] := rfl

theorem witness_SinusoidProperties :
    isFinite 0x3F7FFFFF#32 = true ∧ fle f32Zero 0x3F7FFFFF#32 = true ∧ flt 0x3F7FFFFF#32 f32One = true := by
  decide

theorem witness_CommandLineRunsItsCommand :
    let line := AsmLine.command (.dlInit .left .tap0) (some (.int 1)) (some (.raw 0x7FC00001#32)) (some (.int 0))
    (small 0#32 0#32 0#32 line.events).host.pending = line.events ++ [] := by
  simp [small, blockWith]

/-- One DL_PROCESS on a block of one-word buffers. -/
theorem witness_StepKeepsTheInvariants :
    let s := tiny 0x3F800000#32 0#32 0#32 [cmdWriteEvent 0x00000403#32]
    s.Inv ∧ ∃ t, step s = .next t ∧ (t.res0 == 0x3F800000#32) = true :=
  ⟨tiny_inv _ _ _ _, exists_next (by decide +kernel)⟩

theorem witness_StepNeverLeavesABuffer : (tiny 0#32 0#32 0#32 [cmdWriteEvent 0x00000C32#32]).Inv :=
  tiny_inv _ _ _ _

theorem witness_StepKeepsSizedBuffers :
    let s := tiny 0x3F800000#32 0#32 0#32 [cmdWriteEvent 0x00000403#32]
    s.SizedInv ∧ s.left.sized = true ∧ ∃ t, step s = .next t ∧ (t.res0 == 0x3F800000#32) = true :=
  ⟨tiny_sized _ _ _ _, rfl, exists_next (by decide +kernel)⟩

theorem witness_StepKeepsFaultRegisters :
    let s := small 4#32 0#32 0#32 [cmdWriteEvent 0x00000442#32]
    let u := smallHalted 0#32 0#32 0#32 [cmdWriteEvent 0x00000442#32]
    (s.FaultRegsOk ∧ ∃ t, step s = .next t ∧ (t.faultCause == 11#32) = true) ∧
      (u.FaultRegsOk ∧ ∃ t, step u = .next t ∧ (t.faultCause == 11#32) = true) :=
  ⟨⟨⟨by decide, fun _ => ⟨rfl, rfl, rfl, rfl⟩⟩, exists_next (by decide +kernel)⟩,
    ⟨⟨by decide, fun h => absurd h (by decide)⟩, exists_next (by decide +kernel)⟩⟩

theorem witness_FaultsArePrecise :
    (small 4#32 0#32 0#32).faultCause = 0#32 ∧
      ∃ t, exec (.memPeek .left (.dl .tap0)) (small 4#32 0#32 0#32) = .next t ∧
        (t.faultCause != 0#32) = true :=
  ⟨rfl, exists_next (by decide +kernel)⟩

theorem witness_HaltedBlockDropsCommands :
    (smallHalted 0#32 0#32 0#32).faultCause ≠ 0#32 ∧ runsHalted .stProcess = false := by decide

/-- A peek past the end, a peek that completes, and a register that reads the same on both blocks. -/
theorem witness_HaltedInspectionNeverRecords :
    (smallHalted 4#32 0#32 0#32).faultCause ≠ 0#32 ∧ runsHalted (.memPeek .left .fb) = true ∧
    (∃ u, exec (.memPeek .left .fb) { smallHalted 4#32 0#32 0#32 with faultCause := 0#32 } = .next u ∧
      (u.faultCause != 0#32) = true) ∧
    (∃ u, exec (.memPeek .left .fb) { smallHalted 3#32 0#32 0#32 with faultCause := 0#32 } = .next u ∧
      (u.faultCause == 0#32) = true) ∧
    (∃ u, exec (.csrRead .both) { smallHalted 3#32 0#32 0#32 with faultCause := 0#32 } = .next u ∧
      (u.faultCause == 0#32 && u.res0 == 4#32) = true) ∧
    (smallHalted 3#32 0#32 0#32).opa ≠ 0x001#32 ∧ (smallHalted 3#32 0#32 0#32).opa ≠ 0x002#32 :=
  ⟨by decide, rfl, exists_next (by decide +kernel), exists_next (by decide +kernel),
    exists_next (by decide +kernel), by decide, by decide⟩

/-- A reset of a halted block, a dropped command on one, and a first fault. -/
theorem witness_OnlyResetClearsAFault :
    let a := smallHalted 0#32 0#32 0#32 [.reset]
    let b := smallHalted 0#32 0#32 0#32 [cmdWriteEvent 0x00000C32#32, .reset]
    let f := small 4#32 0#32 0#32 [cmdWriteEvent 0x00000442#32]
    (a.host.pending.head? = some .reset ∧ ∃ t, step a = .next t ∧ (t.faultCause == 0#32) = true) ∧
    (b.host.pending.head? ≠ some .reset ∧ b.faultCause ≠ 0#32 ∧
      ∃ t, step b = .next t ∧ (t.cmd == 0x00000C32#32) = true) ∧
    (f.host.pending.head? ≠ some .reset ∧ ∃ t, step f = .next t ∧ (t.faultCause == 11#32) = true) :=
  ⟨⟨rfl, exists_next (by decide +kernel)⟩, ⟨by decide, by decide, exists_next (by decide +kernel)⟩,
    by decide, exists_next (by decide +kernel)⟩

/-- A command that completes without a result, and one that faults. -/
theorem witness_OperandAndResultRegistersPersist :
    (writesRes0 (.fbPush .left) = false ∧ Instr.fbPush .left ≠ .stProcess ∧
      ∃ t, exec (.fbPush .left) (small 1#32 0#32 0#32) = .next t ∧ (t.left.fb.wc == 0) = true) ∧
    ((small 4#32 0#32 0#32).faultCause = 0#32 ∧
      ∃ t, exec (.fbRead .left) (small 4#32 0#32 0#32) = .next t ∧ (t.faultCause != 0#32) = true) :=
  ⟨⟨rfl, by decide, exists_next (by decide +kernel)⟩, rfl, exists_next (by decide +kernel)⟩

theorem witness_ChannelsAreIndependent :
    channelsOf (.dlProcess .left .tap0) = .one .left ∧ Channel.right ≠ .left ∧
      ∃ t, exec (.dlProcess .left .tap0) (small 5#32 2#32 0#32) = .next t ∧ (t.res0 == 4#32) = true :=
  ⟨rfl, by decide, exists_next (by decide +kernel)⟩

theorem witness_OnlyReallocationChangesACapacity :
    let s := blockWith eng1000 0x3F800000#32 0#32 0#32 [cmdWriteEvent 0x00000431#32]
    s.host.pending.head? ≠ some .reset ∧
      (∀ w i, s.host.pending.head? = some (.write 0x00 (lanesOfWord w)) → decode w = .ok i →
        reallocates i = false) ∧
      ∃ t, step s = .next t ∧ (t.left.fb.wc == 1) = true := by
  refine ⟨by decide, fun w i h hi => ?_, exists_next (by decide +kernel)⟩
  have h2 : lanesOfWord 0x00000431#32 = lanesOfWord w := by
    simpa [blockWith, cmdWriteEvent] using h
  have h3 : w = 0x00000431#32 := by
    simpa using (congrArg wordOfLanes h2).symm
  subst h3
  have h4 : decode 0x00000431#32 = .ok (.engProcess .left) := by decide
  rw [h4] at hi
  cases hi
  rfl

theorem witness_BuffersChangeOnlyByTheirCommands :
    mayWriteBuffer (.dlProcess .left .tap0) .left (.dl .tap1) = false ∧
      ∃ t, exec (.dlProcess .left .tap0) (small 5#32 2#32 0#32) = .next t ∧ (t.res0 == 4#32) = true :=
  ⟨by decide, exists_next (by decide +kernel)⟩

theorem witness_InspectionIsRepeatable :
    changesOnlyRes0 (.lfoValue .left .tap0) = true ∧
      ∃ t, exec (.lfoValue .left .tap0) (small 0#32 0#32 0#32) = .next t ∧
        (t.faultCause == (small 0#32 0#32 0#32).faultCause && t.res0 == 0x3F800000#32) = true :=
  ⟨rfl, exists_next (by decide +kernel)⟩

/-- The smallest capacity, which every MAX_CAPACITY allows, and capacity 0. -/
theorem witness_DlInitAllocates :
    (small 1#32 0x7FC00001#32 0#32).faultCause = 0#32 ∧ 1 ≤ (small 1#32 0x7FC00001#32 0#32).opa.toNat ∧
      (small 1#32 0x7FC00001#32 0#32).opa.toNat ≤ Config.maxCapacity ∧ (small 0#32 0#32 0#32).opa.toNat = 0 :=
  ⟨rfl, le_refl _, one_le_maxCapacity, rfl⟩

/-- The smallest capacity, which every MAX_CAPACITY allows, and capacity 0. -/
theorem witness_DlResizeClears :
    (small 1#32 0#32 0#32).faultCause = 0#32 ∧ 1 ≤ (small 1#32 0#32 0#32).opa.toNat ∧
      (small 1#32 0#32 0#32).opa.toNat ≤ Config.maxCapacity ∧ (small 0#32 0#32 0#32).opa.toNat = 0 :=
  ⟨rfl, le_refl _, one_le_maxCapacity, rfl⟩

/-- The largest delay that is read, and the first that is not. -/
theorem witness_DlProcessWritesAndReads :
    let r := ((small 5#32 3#32 0#32).chan .left).dl.get .tap0
    (small 5#32 3#32 0#32).faultCause = 0#32 ∧ (small 5#32 3#32 0#32).opb.toNat < r.cap ∧
      r.wc < r.cap ∧ Memory.wf r.buf ∧ r.cap ≤ (small 5#32 4#32 0#32).opb.toNat := by decide

/-- Six calls on four words, with the largest delay and with delay 0. -/
theorem witness_DelayLineLag :
    bufAlloc 192000 4 9#32 = .ok ⟨4, 0, Memory.filled 4 9#32⟩ ∧
      (3 ≤ 4 - 1 ∧ 2 = if 3 = 0 then 4 - 1 else 3 - 1) ∧
      (0 ≤ 4 - 1 ∧ 3 = if 0 = 0 then 4 - 1 else 0 - 1) :=
  ⟨by decide, by decide, by decide⟩

theorem witness_LfoInitSetsTheUnit :
    (small 0x40800000#32 0x3F800000#32 0x3F7FFFFF#32).faultCause = 0#32 ∧
      isFinite 0x3F7FFFFF#32 = true ∧ fle f32Zero 0x3F7FFFFF#32 = true ∧ flt 0x3F7FFFFF#32 f32One = true :=
  ⟨rfl, by decide, by decide, by decide⟩

theorem witness_LfoValueReadsTheSinusoid : (small 0#32 0#32 0#32).faultCause = 0#32 := rfl

/-- An unset rate; the rate and sample rate of vector L15; the rate and sample rate of vector L1. -/
theorem witness_LfoAdvanceMovesThePhase :
    (Lfo.mk 0#32 none 0x40800000#32).rate = none ∧
    isFinite (fadd 0#32 (fdiv 0x7149F2CA#32 0x0DA24260#32)) = false ∧
    (blockWith (smallChan 0#32 (some 0x7149F2CA#32) 0x0DA24260#32) 0#32 0#32 0#32).faultCause = 0#32 ∧
    isFinite (fadd 0x3E800000#32 (fdiv 0x3F800000#32 0x40800000#32)) = true :=
  ⟨rfl, by decide +kernel, rfl, by decide +kernel⟩

theorem witness_LfoSetRateKeepsThePhase :
    (small 1#32 0#32 0#32).faultCause = 0#32 ∧
    (isFinite (small 1#32 0#32 0#32).opa = true ∧ flt f32Zero (small 1#32 0#32 0#32).opa = true) ∧
    ¬ (isFinite (small 0#32 0#32 0#32).opa = true ∧ flt f32Zero (small 0#32 0#32 0#32).opa = true) := by
  decide

/-- The smallest increment with the largest phase, and the largest increment. -/
theorem witness_PowerOfTwoIncrementIsPeriodic :
    (24 ≤ 24 ∧ isFinite (fdiv 0x3F800000#32 0x4B800000#32) = true ∧
      scaled (fdiv 0x3F800000#32 0x4B800000#32) = 2 ^ (149 - 24) ∧
      Config.phaseAdmissible 0x3F7FFFFF#32 = true ∧ scaled 0x3F7FFFFF#32 % 2 ^ (149 - 24) = 0) ∧
    (0 ≤ 24 ∧ isFinite (fdiv 0x3F800000#32 0x3F800000#32) = true ∧
      scaled (fdiv 0x3F800000#32 0x3F800000#32) = 2 ^ (149 - 0) ∧
      Config.phaseAdmissible 0#32 = true ∧ scaled 0#32 % 2 ^ (149 - 0) = 0) := by decide +kernel

/-- The smallest capacity, which every MAX_CAPACITY allows, and capacity 0. -/
theorem witness_FbResizeClears :
    (small 1#32 0#32 0#32).faultCause = 0#32 ∧ 1 ≤ (small 1#32 0#32 0#32).opa.toNat ∧
      (small 1#32 0#32 0#32).opa.toNat ≤ Config.maxCapacity ∧ (small 0#32 0#32 0#32).opa.toNat = 0 :=
  ⟨rfl, le_refl _, one_le_maxCapacity, rfl⟩

theorem witness_FbReadLooksBack :
    let f := ((small 3#32 0#32 0#32).chan .left).fb
    (small 3#32 0#32 0#32).faultCause = 0#32 ∧ (small 3#32 0#32 0#32).opa.toNat < f.cap ∧
      f.wc < f.cap ∧ f.cap ≤ (small 4#32 0#32 0#32).opa.toNat := by decide

/-- The cursor at the last index of its buffer. -/
theorem witness_FbPushStoresAtTheCursor :
    let f := ((small 3#32 0#32 0#32).chan .left).fb
    (small 3#32 0#32 0#32).faultCause = 0#32 ∧ f.wc + 1 = f.cap ∧ f.wc < f.cap ∧ Memory.wf f.buf := by decide

theorem witness_FeedbackLag :
    bufAlloc 192000 4 0#32 = .ok ⟨4, 0, []⟩ ∧
      (3 ≤ 4 - 1 ∧ 3 = if 3 = 0 then 4 else 3) ∧ (0 ≤ 4 - 1 ∧ 4 = if 0 = 0 then 4 else 0) :=
  ⟨by decide, by decide, by decide⟩

/-- An illegal rate; 2^32, just above every MAX_CAPACITY; the smallest legal rate, one sample. -/
theorem witness_SetSampleRateSizesTheBuffers :
    (small 0x4F800000#32 0#32 0#32).faultCause = 0#32 ∧
    ¬ (isFinite (0x80000000#32) = true ∧ flt f32Zero 0x80000000#32 = true) ∧
    (isFinite 0x4F800000#32 = true ∧ flt f32Zero 0x4F800000#32 = true ∧
      (Config.maxCapacity : Int) < ceilInt 0x4F800000#32) ∧
    (isFinite 0x00000001#32 = true ∧ flt f32Zero 0x00000001#32 = true ∧
      ceilInt 0x00000001#32 ≤ (Config.maxCapacity : Int)) := by
  have h1 : ceilInt 0x4F800000#32 = 4294967296 := by decide +kernel
  have h2 : ceilInt 0x00000001#32 = 1 := by decide +kernel
  have h3 := maxCapacity_lt
  have h4 := one_le_maxCapacity
  exact ⟨rfl, by decide, ⟨by decide, by decide, by omega⟩, by decide, by decide, by omega⟩

/-- The six parameters of `eng16`. -/
def eng16Snapshot : Snapshot :=
  ⟨0x445AC000#32, 0x43FA0000#32, 0x3F800000#32, 0#32, 0x3F800000#32, 0#32⟩

/-- The tap delays of `eng16` at the phases 0, 0.75, 0. -/
def eng16Taps : Tap → Int
  | .tap0 => 14
  | .tap1 => 10
  | .tap2 => 14

theorem eng16_runs : EngRuns (eng16 0#32) eng16Snapshot 14 eng16Taps where
  params := rfl
  sized := rfl
  finite := by decide +kernel
  base := by decide +kernel
  baseInside := by decide +kernel
  taps := fun k => by cases k <;> decide +kernel
  tapsInside := fun k => by cases k <;> decide +kernel
  advance := fun k => by cases k <;> decide +kernel
  dlCursor := fun k => by cases k <;> decide
  fbCursor := by decide
  dlCanonical := fun k => by cases k <;> decide
  fbCanonical := by decide

theorem witness_EngProcessCommits :
    (blockWith (eng16 0#32) 0x3F800000#32 0#32 0#32).faultCause = 0#32 ∧
      EngRuns ((blockWith (eng16 0#32) 0x3F800000#32 0#32 0#32).chan .right) eng16Snapshot 14 eng16Taps :=
  ⟨rfl, eng16_runs⟩

theorem witness_StProcessCommitsBoth :
    let s := blockWith (eng16 0#32) 0x3F800000#32 0x40000000#32 0#32
    s.faultCause = 0#32 ∧ EngRuns s.left eng16Snapshot 14 eng16Taps ∧
      EngRuns s.right eng16Snapshot 14 eng16Taps := ⟨rfl, eng16_runs, eng16_runs⟩

/-- An unset parameter; a channel that is not sized; a product that overflows (row F3 of 2.5.1); `D` equal to the
capacity (row F1); tap 0 past its buffer (vector E7); an increment that overflows. -/
theorem witness_EngProcessFaultsInOrder :
    (blockWith (eng16 0#32) 0#32 0#32 0#32).faultCause = 0#32 ∧
    ((smallChan 0#32 none 0x40800000#32).params.get .dry = none) ∧
    ({ eng16 0#32 with sized := false } : ChannelState).sized = false ∧
    isFinite (fmul (fdiv 0x7F61B1E6#32 f32Thousand) 0x473B8000#32) = false ∧
    (16 : Int) - 1 < roundHA (fmul (fdiv 0x44723000#32 f32Thousand) 0x41800000#32) ∧
    (16 : Int) - 1 < 14 + roundHA (fdiv (fmul (Config.sin2pi 0x3E800000#32)
      (fmin (fmul (fdiv 0x43FA0000#32 f32Thousand) 0x41800000#32) (fdiv (i2f 14) f32Two))) f32Two) ∧
    isFinite (fadd 0#32 (fdiv 0x7149F2CA#32 0x0DA24260#32)) = false := by
  refine ⟨rfl, rfl, rfl, ?_, ?_, ?_, ?_⟩ <;> decide +kernel

/-- Both channels complete; the left one fails; only the right one fails. -/
theorem witness_StereoFrameIsLeftThenRight :
    let ok := blockWith (eng16 0#32) 0x3F800000#32 0x40000000#32 0#32
    let bad := blockWith (eng16 0x3E800000#32) 0x3F800000#32 0x40000000#32 0#32
    let mixed : State := { ok with right := eng16 0x3E800000#32 }
    (∃ a, exec (.engProcess .left) ok = .next a ∧ (a.faultCause == 0#32 &&
      (nextOf (exec (.engProcess .right) { a with opa := ok.opb })).any fun b => b.faultCause == 0#32) = true) ∧
    (∃ a, exec (.engProcess .left) bad = .next a ∧ (a.faultCause != 0#32 &&
      (nextOf (exec (.engProcess .right) { a with opa := bad.opb })).isSome) = true) ∧
    (∃ a, exec (.engProcess .left) mixed = .next a ∧ (a.faultCause == 0#32 &&
      (nextOf (exec (.engProcess .right) { a with opa := mixed.opb })).any fun b => b.faultCause != 0#32) = true) :=
  ⟨exists_next (by decide +kernel), exists_next (by decide +kernel), exists_next (by decide +kernel)⟩

theorem witness_EqualChannelsStayEqual :
    let s := blockWith (eng16 0#32) 0x3F800000#32 0x3F800000#32 0#32
    s.faultCause = 0#32 ∧ s.left = s.right ∧ s.opa = s.opb ∧
      ∃ t, exec .stProcess s = .next t ∧ (t.faultCause == 0#32) = true :=
  ⟨rfl, rfl, rfl, exists_next (by decide +kernel)⟩

/-- The largest base delay that 44_engine.md R111 covers, a zero one, and a depth that overflows. -/
theorem witness_TapOffsetsAreBounded :
    paramLegal .depthMs 0x7F7FFFFF#32 = true ∧ positiveFinite 0x4B800000#32 = true ∧
      Config.phaseAdmissible 0x3F7FFFFF#32 = true ∧
      (0 : Int) ≤ 2 ^ 24 ∧ (2 : Int) ^ 24 ≤ 2 ^ 24 ∧ (0 : Int) ≤ 0 := by
  decide

/-- The largest base delay of the one-word block, 0; the one-second delay of it, 1, is the first that fails. -/
theorem witness_LegalParametersCompleteInRange :
    (tiny 0#32 0#32 0#32).faultCause = 0#32 ∧ tinyChan.Wf ∧ tinyChan.SizedOk ∧ tinyChan.sized = true ∧
    (∀ k, (tinyChan.lfo.get k).sr = tinyChan.sampleRate) ∧ fle f32One tinyChan.sampleRate = true ∧
    tinyChan.params = ⟨some 0x3F800000#32, some 0#32, some 0x3F800000#32, some 0#32, some 0x3F800000#32, some 0#32⟩ ∧
    isFinite (fmul (fdiv 0x3F800000#32 f32Thousand) tinyChan.sampleRate) = true ∧
    roundHA (fmul (fdiv 0x3F800000#32 f32Thousand) tinyChan.sampleRate) = 0 ∧
    (0 : Int) + roundHA (fdiv (i2f 0) 0x40800000#32) ≤ ceilInt tinyChan.sampleRate - 1 ∧
    ¬ roundHA (fmul (fdiv 0x447A0000#32 f32Thousand) tinyChan.sampleRate) ≤ ceilInt tinyChan.sampleRate - 1 :=
  ⟨rfl, tinyChan_wf, (tiny_sized 0#32 0#32 0#32 []).1, rfl, fun k => by cases k <;> rfl, by decide +kernel,
    rfl, by decide +kernel, by decide +kernel, by decide +kernel, by decide +kernel⟩

theorem witness_ZeroDepthGivesEqualTaps :
    (0x80000000#32 = 0x00000000#32 ∨ 0x80000000#32 = 0x80000000#32) ∧ positiveFinite 0x41800000#32 = true ∧
      Config.phaseAdmissible 0x3F7FFFFF#32 = true ∧ (0 : Int) ≤ 0 := by decide

/-- The last of the eight global registers. -/
theorem witness_CsrReadGivesGlobalRegisters :
    let s := small 0x007#32 0#32 0#32
    (s.opa, BitVec.ofNat 32 Config.maxCapacity) ∈ [((0x000#32 : Word), (0x43485231#32 : Word)),
      (0x001#32, if s.faultCause = 0#32 then 0#32 else 1#32),
      (0x002#32, s.faultCause), (0x003#32, s.faultInfo), (0x004#32, s.faultCmd),
      (0x005#32, s.faultCh.setWidth 32), (0x006#32, s.faultUnit.setWidth 32),
      (0x007#32, BitVec.ofNat 32 Config.maxCapacity)] := by
  simp [small, blockWith]

/-- The last of the per-channel registers, and a parameter that is set. -/
theorem witness_CsrReadGivesChannelRegisters :
    let ch := eng16 0#32
    ∀ x ∈ [((blockWith ch 0x03A#32 0#32 0#32).opa, some (0x41800000#32 : Word)),
        ((blockWith ch 0x019#32 0#32 0#32).opa, some 0x00000000#32)],
      x ∈ [(0x010#32, some ch.sampleRate), (0x011#32, some (if ch.sized = true then 1#32 else 0#32)),
        (0x012#32, some (BitVec.ofNat 32
          ((if ch.params.delayMs = none then 0 else 1) + (if ch.params.depthMs = none then 0 else 2) +
            (if ch.params.rateHz = none then 0 else 4) + (if ch.params.feedback = none then 0 else 8) +
            (if ch.params.wet = none then 0 else 16) + (if ch.params.dry = none then 0 else 32)))),
        (0x013#32, some (BitVec.ofNat 32
          ((if ch.lfo.tap0.rate = none then 0 else 1) + (if ch.lfo.tap1.rate = none then 0 else 2) +
            (if ch.lfo.tap2.rate = none then 0 else 4)))),
        (0x014#32, ch.params.delayMs), (0x015#32, ch.params.depthMs), (0x016#32, ch.params.rateHz),
        (0x017#32, ch.params.feedback), (0x018#32, ch.params.wet), (0x019#32, ch.params.dry),
        (0x020#32, some (BitVec.ofNat 32 ch.dl.tap0.cap)), (0x021#32, some (BitVec.ofNat 32 ch.dl.tap1.cap)),
        (0x022#32, some (BitVec.ofNat 32 ch.dl.tap2.cap)), (0x023#32, some (BitVec.ofNat 32 ch.fb.cap)),
        (0x024#32, some (BitVec.ofNat 32 ch.dl.tap0.wc)), (0x025#32, some (BitVec.ofNat 32 ch.dl.tap1.wc)),
        (0x026#32, some (BitVec.ofNat 32 ch.dl.tap2.wc)), (0x027#32, some (BitVec.ofNat 32 ch.fb.wc)),
        (0x030#32, some ch.lfo.tap0.phase), (0x031#32, some ch.lfo.tap1.phase),
        (0x032#32, some ch.lfo.tap2.phase), (0x034#32, ch.lfo.tap0.rate), (0x035#32, ch.lfo.tap1.rate),
        (0x036#32, ch.lfo.tap2.rate), (0x038#32, some ch.lfo.tap0.sr), (0x039#32, some ch.lfo.tap1.sr),
        (0x03A#32, some ch.lfo.tap2.sr)] := by
  simp [eng16, engChan, blockWith]

/-- The first number after each listed group and a number above 12 bits; the first and the last per-channel
number; an unset parameter and an unset rate. -/
theorem witness_CsrReadFaults :
    (small 0x008#32 0#32 0#32).faultCause = 0#32 ∧
    (∀ n ∈ [0x008, 0x01A, 0x028, 0x033, 0x037, 0x03B, 0x1002],
      n ∉ List.range' 0x000 8 ++ List.range' 0x010 10 ++ List.range' 0x020 8 ++
        List.range' 0x030 3 ++ List.range' 0x034 3 ++ List.range' 0x038 3) ∧
    (∀ n ∈ [0x010, 0x03A], n ∈ List.range' 0x010 10 ++ List.range' 0x020 8 ++ List.range' 0x030 3 ++
        List.range' 0x034 3 ++ List.range' 0x038 3) ∧
    (smallChan 0#32 none 0x40800000#32).params.delayMs = none ∧
    (smallChan 0#32 none 0x40800000#32).lfo.tap2.rate = none := by decide

/-- The bounds of the feedback register, and the numbers on both sides of the six. -/
theorem witness_CsrWriteSetsParameters :
    (small 0x017#32 0x3F7FBE77#32 0#32).faultCause = 0#32 ∧
    (fle f32Zero 0x3F7FBE77#32 = true ∧ fle 0x3F7FBE77#32 0x3F7FBE77#32 = true) ∧
    ¬ (fle f32Zero 0x3F7FBE78#32 = true ∧ fle 0x3F7FBE78#32 0x3F7FBE77#32 = true) ∧
    (0x013 ∉ List.range' 0x014 6 ∧ 0x01A ∉ List.range' 0x014 6) := by decide

theorem witness_MemPeekReadsAWord :
    (small 3#32 0#32 0#32).opa.toNat < ((small 3#32 0#32 0#32).ring .left .fb).cap ∧
      ((small 4#32 0#32 0#32).ring .left .fb).cap ≤ (small 4#32 0#32 0#32).opa.toNat ∧
      (small 4#32 0#32 0#32).faultCause = 0#32 := by decide

/-- Finite operands, a divisor that is not zero, a product in each clause of `RoundsTo`, a NaN operand; two sums
of zero; a product and a quotient that are no NaN; an infinity beside a finite value, an infinity, a zero and a
value that is not zero; zero divisors. -/
theorem witness_ArithmeticRoundsToNearestEven :
    (isFinite 0x7F7FFFFF#32 = true ∧ isFinite 0x40000000#32 = true ∧ scaled 0x40000000#32 ≠ 0 ∧
      33554431 * 2 ^ 252 * 2 ^ 149 ≤ |scaled 0x7F7FFFFF#32 * scaled 0x40000000#32| ∧
      |scaled 0x3F800000#32 * scaled 0x00000001#32| < 33554431 * 2 ^ 252 * 2 ^ 149 ∧
      isNaN 0x7F800001#32 = true) ∧
    (scaled 0x3F800000#32 + scaled 0xBF800000#32 = 0 ∧ scaled 0x80000000#32 + scaled 0x80000000#32 = 0 ∧
      isNaN (fmul 0x80000000#32 0x3F800000#32) = false ∧ isNaN (fdiv 0x00000001#32 0xFF800000#32) = false) ∧
    (isInf 0xFF800000#32 = true ∧ isFinite 0x7F7FFFFF#32 = true ∧ isInf 0x7F800000#32 = true ∧
      isZero 0x80000000#32 = true ∧ isZero 0x00000001#32 = false ∧ isNaN 0x00000001#32 = false ∧
      isZero 0x00000000#32 = true ∧ isFinite 0x00000001#32 = true) := by decide +kernel

/-- The overflowed product and the half of 44_engine.md R104: +infinity is not at most a finite value, so `fmin`
gives the half; and -infinity is below every value but itself. -/
theorem test_compare_infinities :
    fmin 0x7F800000#32 0x40E00000#32 = 0x40E00000#32 ∧ flt 0xFF800000#32 0xFF7FFFFF#32 = true ∧
      flt 0xFF800000#32 0xFF800000#32 = false ∧ fle 0xFF800000#32 0xFF800000#32 = true := by decide

/-- 44_engine.md R106: a -0.0 input stays -0.0 only where the product is -0.0. -/
theorem test_signed_zeros :
    fadd 0x80000000#32 (fmul 0x00000000#32 0xBF800000#32) = 0x80000000#32 ∧
      fadd 0x80000000#32 (fmul 0x00000000#32 0x3F800000#32) = 0x00000000#32 := by decide +kernel

/-- The largest finite value, both infinities, and a NaN beside a number. -/
theorem witness_ComparisonsFollowValues :
    isFinite 0x7F7FFFFF#32 = true ∧ isFinite 0x80000000#32 = true ∧ isInf 0x7F800000#32 = true ∧
      isInf 0xFF800000#32 = true ∧ isNaN 0x7F800001#32 = true := by decide

/-- A tie, and the largest integer that the third clause covers. -/
theorem witness_IntegerConversionsAreExact :
    isFinite 0x40200000#32 = true ∧ 2 * |scaled 0x40200000#32 - roundHA 0x40200000#32 * 2 ^ 149| = 2 ^ 149 ∧
      |(2 : Int) ^ 24| ≤ 2 ^ 24 := by
  refine ⟨by decide, by decide +kernel, by decide⟩

theorem witness_PhaseWrapIsExact : isFinite 0x3F800011#32 = true ∧ 0 ≤ scaled 0x3F800011#32 := by
  decide +kernel

end Sys2Proof.Machine.Tests
end

section
/-! The parameters and the arithmetic of 00_scope.md: the admissible parameters (R6 to R10), the comparisons (R15),
the conversions to and from integers (R16, R18), the wrap of a phase (R17), and the rounded operations (R14). -/

namespace Sys2Proof.Config

open Sys2Proof.Machine

/-! Parameters (00_scope.md R6 to R10) -/

theorem maxCapacity_pos : 1 ≤ maxCapacity := Nat.le_add_left _ _

theorem maxCapacity_le : maxCapacity ≤ 2 ^ 32 - 1 := by
  have h : maxCapacityDraw % (2 ^ 32 - 1) < 2 ^ 32 - 1 := Nat.mod_lt _ (by decide)
  unfold maxCapacity
  omega

theorem defaultCapacity_pos : 1 ≤ defaultCapacity := Nat.le_add_left _ _

theorem defaultCapacity_le : defaultCapacity ≤ maxCapacity :=
  Nat.mod_lt _ maxCapacity_pos

/-- The value that stands for a draw outside R8, 0.5, is admissible whatever MAX_CAPACITY is. -/
theorem placeholderAdmissible_half : placeholderAdmissible 0x3F000000#32 = true := by
  have hceil : ceilInt 0x3F000000#32 = 1 := by decide +kernel
  have hcap : (1 : Int) ≤ maxCapacity := by exact_mod_cast maxCapacity_pos
  unfold placeholderAdmissible
  rw [hceil, decide_eq_true hcap]
  decide

theorem placeholderSr_admissible : placeholderAdmissible placeholderSr = true := by
  unfold placeholderSr
  split
  · next h => exact h
  · exact placeholderAdmissible_half

theorem phaseInit_admissible (n : Nat) (c : Channel) (k : Tap) :
    phaseAdmissible (phaseInit n c k) = true := by
  unfold phaseInit
  split
  · next h => exact h
  · decide

/-- The bound of S1: a word from -1.0 to 1.0 (00_scope.md R10). -/
def SinusoidBounded (v : F32) : Prop := fle 0xBF800000#32 v = true ∧ fle v f32One = true

/-- On a phase SIN2PI is one of the four fixed values, a draw that S1 admits, or +0.0. -/
theorem sin2pi_bounded {p : F32} (h0 : fle f32Zero p = true) (h1 : flt p f32One = true) :
    SinusoidBounded (sin2pi p) := by
  have hzero : SinusoidBounded f32Zero := by unfold SinusoidBounded; decide
  have hone : SinusoidBounded f32One := by unfold SinusoidBounded; decide
  have hnegOne : SinusoidBounded 0xBF800000#32 := by unfold SinusoidBounded; decide
  have hphase : (fle f32Zero p && flt p f32One) = true := by rw [h0, h1]; rfl
  unfold sin2pi
  rw [if_pos hphase]
  split_ifs with _ _ _ _ hdraw
  · exact hzero
  · exact hone
  · exact hzero
  · exact hnegOne
  · exact Bool.and_eq_true_iff.1 hdraw
  · exact hzero

end Sys2Proof.Config

namespace Sys2Proof.Machine

/-- Settles O11: each parameter is a draw brought into the range of its rule. -/
theorem parametersAreAdmissible : Obligations.ParametersAreAdmissible := by
  have hsr := Config.placeholderSr_admissible
  simp only [Config.placeholderAdmissible, Bool.and_eq_true, decide_eq_true_eq] at hsr
  obtain ⟨⟨hfin, hpos⟩, hceil⟩ := hsr
  refine ⟨⟨Config.maxCapacity_pos, Config.maxCapacity_le⟩,
    ⟨Config.defaultCapacity_pos, Config.defaultCapacity_le⟩, ⟨hfin, hpos, hceil⟩, fun n c k => ?_⟩
  have hphase := Config.phaseInit_admissible n c k
  simp only [Config.phaseAdmissible, Bool.and_eq_true, Bool.not_eq_true'] at hphase
  obtain ⟨⟨hlow, hhigh⟩, hsign⟩ := hphase
  refine ⟨hlow, hhigh, fun hnegZero => ?_⟩
  rw [hnegZero] at hsign
  exact absurd hsign (by decide)

/-- Settles O12: S1 is `sin2pi_bounded`, and S2 to S5 are the values fixed by the definition. -/
theorem sinusoidProperties : Obligations.SinusoidProperties :=
  ⟨fun _ _ h0 h1 => Config.sin2pi_bounded h0 h1, rfl, rfl, rfl, rfl⟩

/-! Kinds of values -/

theorem isInf_iff (a : F32) : isInf a = true ↔ f32Mag a = infMag := by simp [isInf]

theorem isZero_iff (a : F32) : isZero a = true ↔ f32Mag a = 0 := by simp [isZero]

theorem isNaN_false_iff (a : F32) : isNaN a = false ↔ f32Mag a ≤ infMag := by simp [isNaN]

theorem isInf_not_isNaN {a : F32} (h : isInf a = true) : isNaN a = false :=
  (isNaN_false_iff a).2 ((isInf_iff a).1 h).le

theorem isInf_not_isZero {a : F32} (h : isInf a = true) : isZero a = false := by
  simp [isZero, (isInf_iff a).1 h, infMag]

theorem isZero_isFinite {a : F32} (h : isZero a = true) : isFinite a = true := by
  simp [isFinite, (isZero_iff a).1 h, infMag]

/-! Comparisons (00_scope.md R15) -/

theorem flt_iff_orderKey {a b : F32} (ha : isNaN a = false) (hb : isNaN b = false) :
    flt a b = true ↔ orderKey a < orderKey b := by
  rw [flt_iff ha hb, orderKey_lt_iff]

theorem fle_iff_orderKey {a b : F32} (ha : isNaN a = false) (hb : isNaN b = false) :
    fle a b = true ↔ orderKey a ≤ orderKey b := by
  rw [fle_iff ha hb, orderKey_le_iff]

/-- An infinity stands at one of the two ends of the order. -/
theorem orderKey_of_isInf {a : F32} (h : isInf a = true) :
    orderKey a = if f32Neg a = true then -(infMag : Int) else infMag := by
  rw [orderKey, (isInf_iff a).1 h]

/-- A finite value stands strictly between the two infinities. -/
theorem orderKey_of_isFinite {a : F32} (h : isFinite a = true) :
    -(infMag : Int) < orderKey a ∧ orderKey a < infMag := by
  rw [isFinite_iff] at h
  unfold orderKey
  split <;> omega

/-- Settles O58: finite values by their numbers of units, infinities by their places in the order. -/
theorem comparisonsFollowValues : Obligations.ComparisonsFollowValues := by
  intro a b
  refine ⟨fun ha hb => ?_, fun ha hb => ?_, fun ha hb => ?_, fun h => ?_, rfl⟩
  · have hna := isFinite_not_isNaN ha
    have hnb := isFinite_not_isNaN hb
    exact ⟨flt_iff hna hnb, fle_iff hna hnb⟩
  · have hna := isInf_not_isNaN ha
    have hnb := isFinite_not_isNaN hb
    obtain ⟨hlow, hhigh⟩ := orderKey_of_isFinite hb
    rw [flt_iff_orderKey hna hnb, fle_iff_orderKey hna hnb, flt_iff_orderKey hnb hna,
      fle_iff_orderKey hnb hna, orderKey_of_isInf ha]
    cases f32Neg a
    · simp only [Bool.false_eq_true, if_false, iff_false, iff_true]; omega
    · simp only [Bool.true_eq_false, if_true, iff_false, iff_true]; omega
  · have hna := isInf_not_isNaN ha
    have hnb := isInf_not_isNaN hb
    rw [flt_iff_orderKey hna hnb, fle_iff_orderKey hna hnb, orderKey_of_isInf ha, orderKey_of_isInf hb]
    cases f32Neg a <;> cases f32Neg b <;> simp [infMag]
  · rcases h with h | h
    · simp [flt, fle, h]
    · simp [flt, fle, h]

/-! Integers (00_scope.md R16, R18) -/

/-- The magnitude of `roundHA` in units: within half of 1, a tie going up. -/
theorem roundHA_mag_nearest (mag : Nat) :
    2 * mag < 2 * (((2 * mag + unitsPerOne) / (2 * unitsPerOne)) * unitsPerOne) + unitsPerOne ∧
      2 * (((2 * mag + unitsPerOne) / (2 * unitsPerOne)) * unitsPerOne) ≤ 2 * mag + unitsPerOne := by
  have hpos : 0 < 2 * unitsPerOne := by decide
  have hdiv := Nat.div_add_mod (2 * mag + unitsPerOne) (2 * unitsPerOne)
  have hmod := Nat.mod_lt (2 * mag + unitsPerOne) hpos
  rw [Nat.mul_assoc, Nat.mul_comm unitsPerOne] at hdiv
  omega

/-- `roundHA` of a value is nearest, and where it is a tie it is the one away from zero (00_scope.md R16). -/
theorem roundHA_nearest (a : F32) :
    2 * |scaled a - roundHA a * 2 ^ 149| ≤ 2 ^ 149 ∧
      (2 * |scaled a - roundHA a * 2 ^ 149| = 2 ^ 149 → |scaled a| < |roundHA a * 2 ^ 149|) := by
  have hunits : (2 : Int) ^ 149 = (unitsPerOne : Nat) := by decide
  have hpos : 0 < unitsPerOne := by decide
  obtain ⟨hlow, hhigh⟩ := roundHA_mag_nearest (scaledMag a)
  unfold roundHA
  rw [scaled_eq_sign, hunits]
  generalize (2 * scaledMag a + unitsPerOne) / (2 * unitsPerOne) = q at *
  have hcast : (q : Int) * unitsPerOne = ((q * unitsPerOne : Nat) : Int) := by push_cast; rfl
  cases f32Neg a
  · simp only [Bool.false_eq_true, if_false, hcast, Int.abs_eq_natAbs]
    omega
  · simp only [if_true, Int.neg_mul, hcast, Int.abs_eq_natAbs]
    omega

/-- `ceilInt` as a bound: it is at most `n` exactly when the value is (00_scope.md R18). -/
theorem ceilInt_le_iff (a : F32) (n : Int) : ceilInt a ≤ n ↔ scaled a ≤ n * 2 ^ 149 := by
  have hunits : (unitsPerOne : Int) = 2 ^ 149 := by decide
  have hpos : (0 : Int) < 2 ^ 149 := by decide
  unfold ceilInt
  rw [hunits, neg_le, Int.le_ediv_iff_mul_le hpos, neg_mul, neg_le_neg_iff]

/-- An integer of at most 24 bits needs no rounding, and neither does 2^24 (00_scope.md R18). -/
theorem i2f_exact {n : Int} (h : |n| ≤ 2 ^ 24) :
    isFinite (i2f n) = true ∧ scaled (i2f n) = n * 2 ^ 149 := by
  have hunits : (unitsPerOne : Int) = 2 ^ 149 := by decide
  obtain ⟨m, k, hm, hk, hmag⟩ : ∃ m k : Nat, m < 2 ^ 24 ∧ k ≤ 253 ∧
      (n * (unitsPerOne : Int)).natAbs = m * 2 ^ k := by
    rw [Int.natAbs_mul, Int.natAbs_natCast]
    rcases (show n.natAbs ≤ 2 ^ 24 by rw [Int.abs_eq_natAbs] at h; omega).lt_or_eq with hlt | heq
    · exact ⟨n.natAbs, 149, hlt, by decide, rfl⟩
    · exact ⟨1, 173, by decide, by decide, by rw [heq]; decide⟩
  obtain ⟨hfin, hval, -⟩ := roundUnits_exact (b := false) hm hk hmag
  rw [hunits] at hval
  exact ⟨hfin, by rw [i2f, hunits]; exact hval⟩

/-- Settles O59. -/
theorem integerConversionsAreExact : Obligations.IntegerConversionsAreExact :=
  ⟨fun a _ => roundHA_nearest a,
    fun a _ => ⟨(ceilInt_le_iff a _).1 le_rfl, fun n h => (ceilInt_le_iff a n).2 h⟩,
    fun _ h => i2f_exact h⟩

/-! The wrap of a phase (00_scope.md R17) -/

/-- Settles O60: the remainder by 1 has at most 24 significant bits, so rounding keeps it. -/
theorem phaseWrapIsExact : Obligations.PhaseWrapIsExact := by
  intro p hp h0
  have hunits : (unitsPerOne : Int) = 2 ^ 149 := by decide
  obtain ⟨m, k, hm, hk, hmag⟩ := scaled_emod_one_exact hp h0
  obtain ⟨hfin, hval, -⟩ := roundUnits_exact (b := false) hm hk hmag
  have hpos : (0 : Int) < unitsPerOne := by decide
  have hsign : f32Neg (fmod1 p) = false := roundUnits_nonneg (Int.emod_nonneg _ hpos.ne')
  have hlt := Int.emod_lt_of_pos (scaled p) hpos
  rw [hunits] at hval hlt
  have hexact : scaled (fmod1 p) = scaled p % 2 ^ 149 := by rw [fmod1, hunits]; exact hval
  exact ⟨hexact, phaseAdmissible_iff.2 ⟨hfin, hsign, hexact ▸ hlt⟩⟩

/-! Rounded operations (00_scope.md R14) -/

/-- Rounding gives the infinity exactly from half a unit past the largest finite value on. -/
theorem roundMag_eq_infMag_iff {num den : Nat} (hden : 0 < den) :
    roundMag num den = infMag ↔ 33554431 * (2 ^ 252 * den) ≤ num := by
  rw [roundMag_eq, min_eq_right_iff, infMag_le_roundMagFree hden]

/-- A sign with a rounded magnitude is the signed value, rounded to nearest even. -/
theorem roundsTo_ofSignMag {neg : Bool} {num den : Nat} (hden : 0 < den) {N : Int}
    (hN : N = if neg then -(num : Int) else num) :
    RoundsTo N den (ofSignMag neg (roundMag num den)) := by
  have habs : |N| = num := by rw [hN]; cases neg <;> simp
  have hover : (33554431 * 2 ^ 252 * den : Int) ≤ |N| ↔ roundMag num den = infMag := by
    rw [roundMag_eq_infMag_iff hden, habs, mul_assoc]
    exact_mod_cast Iff.rfl
  refine ⟨fun h => ?_, fun h => ?_⟩
  · have hnum : 0 < (num : Int) := habs ▸ lt_of_lt_of_le (by positivity) h
    rw [hover.1 h, hN]
    cases neg
    · simp only [Bool.false_eq_true, if_false, if_neg hnum.le.not_gt]; rfl
    · simp only [if_true, if_pos (neg_neg_of_pos hnum)]; rfl
  · have hfin : isFinite (ofSignMag neg (roundMag num den)) = true := by
      rw [isFinite_iff, f32Mag_ofSignMag (roundMag_lt _ _)]
      exact lt_of_le_of_ne (roundMag_le_infMag _ _) (fun heq => (hover.2 heq).not_gt h)
    exact ⟨hfin, fun _ _ => ofSignMag_nearest hden hN hfin⟩

/-- A whole number of units, rounded: the sign is the number's own, or the given one for a zero. -/
theorem roundUnits_eq (zeroNeg : Bool) (n : Int) :
    roundUnits zeroNeg n = ofSignMag (if n = 0 then zeroNeg else decide (n < 0)) (roundMag n.natAbs 1) := by
  unfold roundUnits
  split
  · next h => rw [h, Int.natAbs_zero, roundMag_zero Nat.one_pos]
  · rfl

theorem roundsTo_roundUnits (zeroNeg : Bool) (n : Int) : RoundsTo n 1 (roundUnits zeroNeg n) := by
  rw [roundUnits_eq]
  refine roundsTo_ofSignMag Nat.one_pos ?_
  by_cases h0 : n = 0
  · simp [h0]
  · rw [if_neg h0]
    simp only [decide_eq_true_eq]
    split <;> omega

theorem isNaN_roundUnits (zeroNeg : Bool) (n : Int) : isNaN (roundUnits zeroNeg n) = false := by
  rw [roundUnits_eq]
  exact isNaN_ofSignMag (roundMag_le_infMag _ _)

/-- A finite value is not zero when its number of units is not. -/
theorem scaledMag_pos {b : F32} (h : scaled b ≠ 0) : 0 < scaledMag b := by
  rw [scaled_eq_sign] at h
  split at h <;> omega

theorem fmul_roundsTo {a b : F32} (ha : isFinite a = true) (hb : isFinite b = true) :
    RoundsTo (scaled a * scaled b) (2 ^ 149) (fmul a b) := by
  rw [fmul_finite ha hb]
  refine roundsTo_ofSignMag (den := unitsPerOne) (by decide) ?_
  rw [scaled_eq_sign a, scaled_eq_sign b]
  cases f32Neg a <;> cases f32Neg b <;> simp

theorem fdiv_roundsTo {a b : F32} (ha : isFinite a = true) (hb : isFinite b = true) (h0 : scaled b ≠ 0) :
    RoundsTo (scaled a * 2 ^ 149 * (scaled b).sign) |scaled b| (fdiv a b) := by
  have hpos := scaledMag_pos h0
  have habs : |scaled b| = scaledMag b := by
    rw [scaled_eq_sign]; cases f32Neg b <;> simp
  have hsign : (scaled b).sign = if f32Neg b = true then -1 else 1 := by
    have hone : Int.sign (scaledMag b) = 1 := Int.sign_eq_one_of_pos (by exact_mod_cast hpos)
    rw [scaled_eq_sign]; cases f32Neg b <;> simp [hone]
  rw [fdiv_finite ha hb h0, habs, hsign]
  refine roundsTo_ofSignMag hpos ?_
  rw [scaled_eq_sign a]
  cases f32Neg a <;> cases f32Neg b <;> simp [unitsPerOne]

/-! What an operation can give -/

/-- The result is the canonical NaN, or no operand and no result is a NaN (00_scope.md R14). -/
def CanonicalOrNumber (a b r : F32) : Prop :=
  r = canonicalNaN ∨ isNaN a = false ∧ isNaN b = false ∧ isNaN r = false

/-- The result is the canonical NaN, or it has the exclusive or of the operands' signs (00_scope.md R14). -/
def CanonicalOrSigned (a b r : F32) : Prop :=
  r = canonicalNaN ∨ isNaN a = false ∧ isNaN b = false ∧
    ∃ mag ≤ infMag, r = ofSignMag (f32Neg a != f32Neg b) mag

theorem CanonicalOrSigned.canonicalOrNumber {a b r : F32} (h : CanonicalOrSigned a b r) :
    CanonicalOrNumber a b r := by
  rcases h with h | ⟨ha, hb, mag, hmag, rfl⟩
  · exact .inl h
  · exact .inr ⟨ha, hb, isNaN_ofSignMag hmag⟩

theorem CanonicalOrSigned.sign {a b r : F32} (h : CanonicalOrSigned a b r) (hr : isNaN r = false) :
    f32Neg r = (f32Neg a != f32Neg b) := by
  rcases h with rfl | ⟨_, _, mag, hmag, rfl⟩
  · exact absurd hr (by decide)
  · exact f32Neg_ofSignMag (Nat.lt_of_le_of_lt hmag (by decide))

theorem CanonicalOrNumber.nan {a b r : F32} (h : CanonicalOrNumber a b r) :
    (isNaN a = true ∨ isNaN b = true → isNaN r = true) ∧ (isNaN r = true → r = 0x7FC00000#32) := by
  rcases h with rfl | ⟨ha, hb, hr⟩
  · exact ⟨fun _ => by decide, fun _ => rfl⟩
  · simp [ha, hb, hr]

theorem fadd_canonicalOrNumber (a b : F32) : CanonicalOrNumber a b (fadd a b) := by
  unfold fadd
  split_ifs with hnan hia hboth hib
  · exact .inl rfl
  · exact .inl rfl
  all_goals
    simp only [Bool.or_eq_true, not_or, Bool.not_eq_true] at hnan
    obtain ⟨ha, hb⟩ := hnan
  · exact .inr ⟨ha, hb, ha⟩
  · exact .inr ⟨ha, hb, hb⟩
  · exact .inr ⟨ha, hb, isNaN_roundUnits _ _⟩

theorem fmul_canonicalOrSigned (a b : F32) : CanonicalOrSigned a b (fmul a b) := by
  unfold fmul
  split_ifs with hnan hinf hzero
  · exact .inl rfl
  · exact .inl rfl
  all_goals
    simp only [Bool.or_eq_true, not_or, Bool.not_eq_true] at hnan
    obtain ⟨ha, hb⟩ := hnan
  · exact .inr ⟨ha, hb, infMag, le_rfl, rfl⟩
  · exact .inr ⟨ha, hb, _, roundMag_le_infMag _ _, rfl⟩

theorem fdiv_canonicalOrSigned (a b : F32) : CanonicalOrSigned a b (fdiv a b) := by
  unfold fdiv
  split_ifs with hnan hia hib hib hzb hza
  · exact .inl rfl
  · exact .inl rfl
  all_goals
    simp only [Bool.or_eq_true, not_or, Bool.not_eq_true] at hnan
    obtain ⟨ha, hb⟩ := hnan
  · exact .inr ⟨ha, hb, infMag, le_rfl, rfl⟩
  · exact .inr ⟨ha, hb, 0, Nat.zero_le _, rfl⟩
  · exact .inl rfl
  · exact .inr ⟨ha, hb, infMag, le_rfl, rfl⟩
  · exact .inr ⟨ha, hb, _, roundMag_le_infMag _ _, rfl⟩

/-! Infinities and zero divisors -/

/-- An exact sum of zero (00_scope.md R14, 44_engine.md R106). -/
theorem fadd_of_sum_zero {a b : F32} (ha : isFinite a = true) (hb : isFinite b = true)
    (h : scaled a + scaled b = 0) :
    fadd a b = if f32Neg a = true ∧ f32Neg b = true then 0x80000000#32 else 0x00000000#32 := by
  rw [fadd_finite ha hb, h]
  cases f32Neg a <;> cases f32Neg b <;> rfl

theorem fadd_isInf_isFinite {a b : F32} (ha : isInf a = true) (hb : isFinite b = true) :
    fadd a b = a ∧ fadd b a = a := by
  simp [fadd, ha, isInf_not_isNaN ha, isFinite_not_isNaN hb, isFinite_not_isInf hb]

theorem fadd_isInf_isInf {a b : F32} (ha : isInf a = true) (hb : isInf b = true) :
    fadd a b = if f32Neg a = f32Neg b then a else 0x7FC00000#32 := by
  simp only [fadd, ha, hb, isInf_not_isNaN ha, isInf_not_isNaN hb]
  cases f32Neg a <;> cases f32Neg b <;> rfl

theorem fdiv_isInf_isFinite {a b : F32} (ha : isInf a = true) (hb : isFinite b = true) :
    isInf (fdiv a b) = true ∧ isZero (fdiv b a) = true := by
  simp [fdiv, ha, isInf_not_isNaN ha, isFinite_not_isNaN hb, isFinite_not_isInf hb, infMag]

theorem fdiv_isInf_isInf {a b : F32} (ha : isInf a = true) (hb : isInf b = true) :
    fdiv a b = 0x7FC00000#32 := by
  simp [fdiv, ha, hb, isInf_not_isNaN ha, isInf_not_isNaN hb, canonicalNaN]

theorem fmul_isInf_isZero {a b : F32} (ha : isInf a = true) (hb : isZero b = true) :
    fmul a b = 0x7FC00000#32 ∧ fmul b a = 0x7FC00000#32 := by
  simp [fmul, ha, hb, isInf_not_isNaN ha, isFinite_not_isNaN (isZero_isFinite hb), canonicalNaN]

theorem fmul_isInf_of_not_isZero {a b : F32} (ha : isInf a = true) (hn : isNaN b = false)
    (hz : isZero b = false) : isInf (fmul a b) = true ∧ isInf (fmul b a) = true := by
  simp [fmul, ha, hn, hz, isInf_not_isNaN ha, isInf_not_isZero ha, infMag]

theorem fdiv_isZero_isZero {a b : F32} (ha : isZero a = true) (hb : isZero b = true) :
    fdiv a b = 0x7FC00000#32 := by
  have hfa := isZero_isFinite ha
  have hfb := isZero_isFinite hb
  simp [fdiv, ha, hb, isFinite_not_isNaN hfa, isFinite_not_isNaN hfb, isFinite_not_isInf hfa,
    isFinite_not_isInf hfb, canonicalNaN]

theorem isInf_fdiv_of_isZero {a b : F32} (ha : isFinite a = true) (hz : isZero a = false)
    (hb : isZero b = true) : isInf (fdiv a b) = true := by
  have hfb := isZero_isFinite hb
  simp [fdiv, hz, hb, isFinite_not_isNaN ha, isFinite_not_isNaN hfb, isFinite_not_isInf ha,
    isFinite_not_isInf hfb, infMag]

/-- Settles O57: rounding of finite operands, the NaN results, the signs, and the special operands. -/
theorem arithmeticRoundsToNearestEven : Obligations.ArithmeticRoundsToNearestEven := by
  refine ⟨fun a b ha hb => ⟨?_, fmul_roundsTo ha hb, fdiv_roundsTo ha hb⟩, fun a b r hr => ?_,
    fun a b => ⟨fadd_of_sum_zero, (fmul_canonicalOrSigned a b).sign, (fdiv_canonicalOrSigned a b).sign⟩,
    fun a b => ⟨fun ha => ⟨fun hb => ?_, fun hb => ⟨fadd_isInf_isInf ha hb, fdiv_isInf_isInf ha hb⟩,
      fmul_isInf_isZero ha, fmul_isInf_of_not_isZero ha⟩,
      fun hb => ⟨fun ha => fdiv_isZero_isZero ha hb, fun ha hz => isInf_fdiv_of_isZero ha hz hb⟩⟩⟩
  · rw [fadd_finite ha hb]
    exact roundsTo_roundUnits _ _
  · simp only [List.mem_cons, List.not_mem_nil, or_false] at hr
    rcases hr with rfl | rfl | rfl
    · exact (fadd_canonicalOrNumber a b).nan
    · exact (fmul_canonicalOrSigned a b).canonicalOrNumber.nan
    · exact (fdiv_canonicalOrSigned a b).canonicalOrNumber.nan
  · obtain ⟨hab, hba⟩ := fadd_isInf_isFinite ha hb
    obtain ⟨hquot, hzero⟩ := fdiv_isInf_isFinite ha hb
    exact ⟨hab, hba, hquot, hzero⟩

end Sys2Proof.Machine
end

section
/-! The state of the block (10_state.md): what a completed command and a step can do to a channel, and the invariants
of R31 and R34 from that. -/

namespace Sys2Proof.Machine

/-! Channels -/

/-- A channel is read off the two channel fields alone. -/
theorem State.chan_congr {s t : State} (hl : t.left = s.left) (hr : t.right = s.right) (c : Channel) :
    t.chan c = s.chan c := by
  cases c
  · exact hl
  · exact hr

/-- A property of every unit is kept when the unit that is replaced has it. -/
theorem Taps.forall_get_set {α : Type} {p : α → Prop} {u : Taps α} {a : α} (hu : ∀ j, p (u.get j)) (ha : p a)
    (k j : Tap) : p ((u.set k a).get j) := by
  rw [Taps.get_set]
  split
  · exact ha
  · exact hu j

/-- What a completed command can do to one channel: the new channel, with what the command has checked. -/
inductive ChannelMove (ch : ChannelState) : ChannelState → Prop where
  /-- The channel is not addressed, or the command changes no channel. -/
  | keep : ChannelMove ch ch
  /-- DL_INIT and DL_RESIZE (41_delay_line.md R71, R72). -/
  | allocDl (k : Tap) {r : Ring} (fresh : r.Wf) : ChannelMove ch ((ch.setDl k r).setSized false)
  /-- DL_PROCESS (41_delay_line.md R74). -/
  | pushDl (k : Tap) (x : Word) : ChannelMove ch (ch.setDl k ((ch.dl.get k).push x))
  /-- LFO_INIT (42_lfo.md R82). -/
  | initLfo (k : Tap) {sr rate phase : F32} (sr_pos : positiveFinite sr = true)
      (rate_pos : positiveFinite rate = true) (legal : phaseLegal phase = true) :
      ChannelMove ch (ch.setLfo k ⟨if phase = f32NegZero then f32Zero else phase, some rate, sr⟩)
  /-- LFO_ADVANCE (42_lfo.md R84). -/
  | advanceLfo (k : Tap) {rate : F32} (rate_set : (ch.lfo.get k).rate = some rate)
      (finite : isFinite (advancedPhase (ch.lfo.get k) rate) = true) :
      ChannelMove ch (ch.setLfo k (lfoStep (ch.lfo.get k) rate))
  /-- LFO_SET_RATE (42_lfo.md R85). -/
  | setLfoRate (k : Tap) {rate : F32} (rate_pos : positiveFinite rate = true) :
      ChannelMove ch (ch.setLfo k { ch.lfo.get k with rate := some rate })
  /-- FB_RESIZE (43_feedback_buffer.md R92). -/
  | allocFb {r : Ring} (fresh : r.Wf) : ChannelMove ch ((ch.setFb r).setSized false)
  /-- FB_PUSH (43_feedback_buffer.md R94). -/
  | pushFb (x : Word) : ChannelMove ch (ch.setFb (ch.fb.push x))
  /-- ENG_SET_SAMPLE_RATE (44_engine.md R100). -/
  | resize {sr : F32} {r : Ring} (sr_pos : positiveFinite sr = true)
      (fresh : bufAlloc Config.maxCapacity (ceilInt sr) 0#32 = .ok r) : ChannelMove ch (ch.resize sr r)
  /-- CSR_WRITE (45_control.md R122). -/
  | setParam {p : Param} {v : F32} (legal : paramLegal p v = true) : ChannelMove ch (ch.setParam p v)
  /-- ENG_PROCESS, and either channel of ST_PROCESS (44_engine.md R101, R110). -/
  | commit {c : Channel} {plan : Plan} (xin : Word) (passed : engPlan c ch = .ok plan) :
      ChannelMove ch (engCommit ch xin plan).1

/-- Replacing one channel moves that channel and keeps the other. -/
theorem ChannelMove.setChan {s : State} {c : Channel} {ch : ChannelState} (h : ChannelMove (s.chan c) ch)
    (d : Channel) : ChannelMove (s.chan d) ((s.setChan c ch).chan d) := by
  rw [State.setChan_chan]
  split
  · next hdc => rw [hdc]; exact h
  · exact .keep

/-- One operation on the addressed channels moves each of them and keeps the others. -/
theorem ChannelMove.onChannels {f : ChannelState → ChannelState} (h : ∀ ch, ChannelMove ch (f ch)) (s : State)
    (sel : ChSel) (d : Channel) : ChannelMove (s.chan d) ((s.onChannels sel f).chan d) := by
  cases sel with
  | one c => exact (h (s.chan c)).setChan d
  | both => rw [State.onChannels_both_chan]; exact h _

/-- A body that completes moves each channel. -/
theorem commandBody_ok_move {i : Instr} {s t : State} (h : commandBody i s = .ok t) (d : Channel) :
    ChannelMove (s.chan d) (t.chan d) := by
  cases i <;> simp only [commandBody] at h
  case nop => cases h; exact .keep
  case dlInit =>
    obtain ⟨r, hr, rfl⟩ := reallocDl_ok h
    exact (ChannelMove.allocDl _ (bufAlloc_wf hr)).setChan d
  case dlResize =>
    obtain ⟨r, hr, rfl⟩ := reallocDl_ok h
    exact (ChannelMove.allocDl _ (bufAlloc_wf hr)).setChan d
  case dlProcess =>
    obtain ⟨-, -, rfl⟩ := processDl_ok h
    rw [State.setRes0_chan]
    exact (ChannelMove.pushDl _ _).setChan d
  case lfoInit =>
    obtain ⟨hsr, hrate, hphase, rfl⟩ := initLfo_ok h
    exact (ChannelMove.initLfo _ hsr hrate hphase).setChan d
  case lfoValue => cases h; rw [State.setRes0_chan]; exact .keep
  case lfoAdvance =>
    obtain ⟨rate, hset, hfinite, rfl⟩ := advanceLfo_ok h
    exact (ChannelMove.advanceLfo _ hset hfinite).setChan d
  case lfoSetRate =>
    obtain ⟨hrate, rfl⟩ := setLfoRate_ok h
    exact (ChannelMove.setLfoRate _ hrate).setChan d
  case fbResize =>
    obtain ⟨r, hr, rfl⟩ := reallocFb_ok h
    exact (ChannelMove.allocFb (bufAlloc_wf hr)).setChan d
  case fbRead => obtain ⟨-, -, rfl⟩ := readFb_ok h; rw [State.setRes0_chan]; exact .keep
  case fbPush =>
    obtain ⟨-, rfl⟩ := pushFb_ok h
    exact (ChannelMove.pushFb _).setChan d
  case engSetSampleRate =>
    obtain ⟨hsr, r, hr, rfl⟩ := setSampleRate_ok h
    exact ChannelMove.onChannels (fun _ => .resize hsr hr) s _ d
  case engProcess =>
    obtain ⟨plan, hplan, -, rfl⟩ := processEng_ok.1 h
    rw [State.setRes0_chan]
    exact (ChannelMove.commit _ hplan).setChan d
  case stProcess =>
    obtain ⟨planL, planR, hL, hR, -, -, rfl⟩ := processStereo_ok.1 h
    cases d
    · exact .commit _ hL
    · exact .commit _ hR
  case csrRead => obtain ⟨w, rfl⟩ := readCsr_ok h; rw [State.setRes0_chan]; exact .keep
  case csrWrite =>
    obtain ⟨n, p, -, -, hlegal, rfl⟩ := writeCsr_ok h
    exact ChannelMove.onChannels (fun _ => .setParam hlegal) s _ d
  case memPeek => obtain ⟨-, rfl⟩ := peekMem_ok h; rw [State.setRes0_chan]; exact .keep

/-- A command that answers a next state moves each channel; a recorded or dropped fault keeps both. -/
theorem exec_next_move {i : Instr} {s t : State} (h : exec i s = .next t) (d : Channel) :
    ChannelMove (s.chan d) (t.chan d) := by
  rcases exec_next h with ⟨hbody, -⟩ | ⟨r, -, -, rfl⟩ | ⟨-, rfl⟩
  · exact commandBody_ok_move hbody d
  · rw [takeFault_chan]; exact .keep
  · exact .keep

theorem writeCmd_next_move {w : Word} {s t : State} (h : writeCmd w s = .next t) (d : Channel) :
    ChannelMove (s.chan d) (t.chan d) := by
  rcases writeCmd_next h with ⟨i, -, hexec⟩ | ⟨-, rfl⟩ | ⟨-, rfl⟩
  · have hmove := exec_next_move hexec d
    rwa [State.setCmd_chan] at hmove
  · rw [State.setCmd_chan]; exact .keep
  · rw [takeFault_chan, State.setCmd_chan]; exact .keep

/-- A step resets both channels with sampled phases, or moves each of them. -/
theorem step_next_channels {s t : State} (h : step s = .next t) :
    (∃ n, ∀ d, t.chan d = ChannelState.reset (Config.phaseInit n d)) ∨
      ∀ d, ChannelMove (s.chan d) (t.chan d) := by
  rcases step_next h with ⟨-, rfl⟩ | ⟨e, rest, u, -, rfl, hu⟩
  · exact .inr fun _ => .keep
  have hsame : t.left = s.left → t.right = s.right → ∀ d, ChannelMove (s.chan d) (t.chan d) :=
    fun hl hr d => State.chan_congr hl hr d ▸ .keep
  rcases hu with ⟨w, -, rfl | rfl | rfl⟩ | ⟨w, -, hw⟩ | ⟨data, -, rfl⟩ | ⟨-, rfl⟩
  · exact .inr (hsame rfl rfl)
  · exact .inr (hsame rfl rfl)
  · exact .inr (hsame rfl rfl)
  · refine .inr fun d => ?_
    have hmove := writeCmd_next_move hw d
    rwa [State.setPending_chan] at hmove
  · exact .inr (hsame rfl rfl)
  · exact .inl ⟨_, State.resetWith_chan _ _⟩

/-- What a reset channel has, and each move keeps, every step keeps of both channels. -/
theorem step_keeps_channels {P : ChannelState → Prop}
    (reset : ∀ n d, P (ChannelState.reset (Config.phaseInit n d)))
    (move : ∀ {ch ch' : ChannelState}, ChannelMove ch ch' → P ch → P ch') {s t : State}
    (h : step s = .next t) (hs : ∀ d, P (s.chan d)) (d : Channel) : P (t.chan d) := by
  rcases step_next_channels h with ⟨n, ht⟩ | hmove
  · rw [ht d]; exact reset n d
  · exact move (hmove d) (hs d)

/-! Phases and rates (00_scope.md R17, 42_lfo.md R81, R82) -/

/-- A legal initial phase, with -0.0 stored as +0.0, is in [+0.0, 1.0) (42_lfo.md R82). -/
theorem phaseAdmissible_of_phaseLegal {v : F32} (h : phaseLegal v = true) :
    Config.phaseAdmissible (if v = f32NegZero then f32Zero else v) = true := by
  simp only [phaseLegal, Bool.and_eq_true] at h
  obtain ⟨⟨hfin, hlow⟩, hhigh⟩ := h
  split
  · decide
  · next hne =>
    have hpos : f32Neg v = false := by
      by_contra hneg
      rw [Bool.not_eq_false] at hneg
      rw [fle_iff (by decide) (isFinite_not_isNaN hfin), show scaled f32Zero = 0 by decide,
        scaled_of_neg hneg] at hlow
      have hmag : f32Mag v = 0 := magUnits_eq_zero.1 (by omega)
      apply hne
      rw [← ofSignMag_sign_mag v, hneg, hmag]
      rfl
    simp only [Config.phaseAdmissible, hlow, hhigh, hpos]
    rfl

/-- A quotient of values above 0 has no sign. -/
theorem f32Neg_fdiv_of_pos {a b : F32} (ha : positiveFinite a = true) (hb : positiveFinite b = true) :
    f32Neg (fdiv a b) = false := by
  obtain ⟨hfa, hpa⟩ := positiveFinite_iff.1 ha
  obtain ⟨hfb, hpb⟩ := positiveFinite_iff.1 hb
  rw [fdiv_finite hfa hfb hpb.ne', f32Neg_ofSignMag (roundMag_lt _ _), f32Neg_of_pos hpa, f32Neg_of_pos hpb]
  rfl

/-- A finite value without a sign is not below 0. -/
theorem scaled_nonneg {a : F32} (h : f32Neg a = false) : 0 ≤ scaled a := by
  rw [scaled_of_nonneg h]
  exact Int.natCast_nonneg _

/-- The advance of a good LFO at a rate above 0 is not below 0 (42_lfo.md R81). -/
theorem scaled_advancedPhase_nonneg {l : Lfo} {rate : F32} (hl : l.Wf) (hrate : positiveFinite rate = true)
    (hfin : isFinite (advancedPhase l rate) = true) : 0 ≤ scaled (advancedPhase l rate) := by
  obtain ⟨hphase, hsign, -⟩ := phaseAdmissible_iff.1 hl.phase
  obtain ⟨-, hsum⟩ := fadd_phase hphase hsign hfin
  refine scaled_nonneg ?_
  rw [advancedPhase, hsum]
  exact roundUnits_nonneg
    (Int.add_nonneg (scaled_nonneg hsign) (scaled_nonneg (f32Neg_fdiv_of_pos hrate hl.sr)))

/-- A good LFO whose rate is set and whose phase advances at that rate is a good LFO (42_lfo.md R81). -/
theorem Lfo.Wf.advance {l : Lfo} {rate : F32} (hl : l.Wf) (hrate : positiveFinite rate = true)
    (hfin : isFinite (advancedPhase l rate) = true) :
    Lfo.Wf { l with phase := fmod1 (advancedPhase l rate), rate := some rate } where
  phase := (phaseWrapIsExact _ hfin (scaled_advancedPhase_nonneg hl hrate hfin)).2
  sr := hl.sr
  rate := by rintro _ ⟨⟩; exact hrate

/-! The invariants of a channel (10_state.md R34) -/

section

variable {ch : ChannelState} (h : ch.Wf)
include h

theorem ChannelState.Wf.setDl (k : Tap) {r : Ring} (hr : r.Wf) : (ch.setDl k r).Wf :=
  { h with dl := Taps.forall_get_set h.dl hr k }

theorem ChannelState.Wf.setFb {r : Ring} (hr : r.Wf) : (ch.setFb r).Wf :=
  { h with fb := hr }

theorem ChannelState.Wf.setLfo (k : Tap) {l : Lfo} (hl : l.Wf) : (ch.setLfo k l).Wf :=
  { h with lfo := Taps.forall_get_set h.lfo hl k }

theorem ChannelState.Wf.setSized (b : Bool) : (ch.setSized b).Wf :=
  { h with }

theorem ChannelState.Wf.setParam {p : Param} {v : F32} (hv : paramLegal p v = true) : (ch.setParam p v).Wf :=
  { h with
    params := by
      intro q u hq
      rw [ChannelState.setParam_params, Params.get_set] at hq
      split at hq
      · next hqp => cases hq; rw [hqp]; exact hv
      · exact h.params q u hq }

theorem ChannelState.Wf.resize {sr : F32} {r : Ring} (hsr : positiveFinite sr = true) (hr : r.Wf) :
    (ch.resize sr r).Wf where
  dl := by intro k; cases k <;> exact hr
  fb := hr
  lfo k := by
    rw [ChannelState.resize_lfo, Taps.get_map]
    exact { h.lfo k with sr := hsr }
  sampleRate := hsr
  params := h.params

/-- A commit that its plan has checked keeps the invariants (44_engine.md R105 to R109). -/
theorem ChannelState.Wf.engCommit {c : Channel} {plan : Plan} (xin : Word) (hplan : engPlan c ch = .ok plan) :
    (engCommit ch xin plan).1.Wf where
  dl k := by rw [engCommit_dl]; exact (h.dl k).push _
  fb := h.fb.push _
  lfo k := by
    obtain ⟨hsnap, -, -, -, -, -, hfin⟩ := engPlan_ok.1 hplan
    have hrate : positiveFinite plan.snap.rate = true :=
      h.params .rateHz _ (by rw [snapshotOf_some.1 hsnap]; rfl)
    rw [engCommit_lfo]
    exact (h.lfo k).advance hrate (hfin k)
  sampleRate := h.sampleRate
  params := h.params

/-- Every move keeps the invariants of a channel (10_state.md R34). -/
theorem ChannelState.Wf.move {ch' : ChannelState} (hm : ChannelMove ch ch') : ch'.Wf := by
  cases hm with
  | keep => exact h
  | allocDl k fresh => exact (h.setDl k fresh).setSized false
  | pushDl k x => exact h.setDl k ((h.dl k).push x)
  | initLfo k sr_pos rate_pos legal =>
    exact h.setLfo k ⟨phaseAdmissible_of_phaseLegal legal, sr_pos, by rintro _ ⟨⟩; exact rate_pos⟩
  | advanceLfo k rate_set finite =>
    refine h.setLfo k ?_
    have hl := (h.lfo k).advance ((h.lfo k).rate _ rate_set) finite
    rwa [← rate_set] at hl
  | setLfoRate k rate_pos =>
    exact h.setLfo k { h.lfo k with rate := by rintro _ ⟨⟩; exact rate_pos }
  | allocFb fresh => exact (h.setFb fresh).setSized false
  | pushFb x => exact h.setFb (h.fb.push x)
  | resize sr_pos fresh => exact h.resize sr_pos (bufAlloc_wf fresh)
  | setParam legal => exact h.setParam legal
  | commit xin passed => exact h.engCommit xin passed

end

/-! Reset (10_state.md R33) -/

section

variable (phases : Tap → F32)

@[simp] theorem ChannelState.reset_dl_get (k : Tap) :
    (ChannelState.reset phases).dl.get k = Ring.reset := by
  cases k <;> rfl

@[simp] theorem ChannelState.reset_lfo_get (k : Tap) :
    (ChannelState.reset phases).lfo.get k = Lfo.reset (phases k) := by
  cases k <;> rfl

@[simp] theorem ChannelState.reset_params_get (p : Param) :
    (ChannelState.reset phases).params.get p = none := by
  cases p <;> rfl

/-- Every buffer at reset is the same. -/
@[simp] theorem peekRing_reset (u : PeekUnit) : peekRing (ChannelState.reset phases) u = Ring.reset := by
  rcases u with k | _
  · exact ChannelState.reset_dl_get phases k
  · rfl

end

theorem Ring.reset_wf : Ring.reset.Wf where
  capPos := Config.defaultCapacity_pos
  capMax := Config.defaultCapacity_le
  cursor := Config.defaultCapacity_pos
  canonical := ⟨.nil, nofun⟩
  inside := nofun

theorem placeholderSr_positiveFinite : positiveFinite Config.placeholderSr = true := by
  have h := Config.placeholderSr_admissible
  rw [Config.placeholderAdmissible, Bool.and_eq_true] at h
  exact h.1

theorem ChannelState.reset_wf {phases : Tap → F32} (h : ∀ k, Config.phaseAdmissible (phases k) = true) :
    (ChannelState.reset phases).Wf where
  dl k := by rw [reset_dl_get]; exact Ring.reset_wf
  fb := Ring.reset_wf
  lfo k := by rw [reset_lfo_get]; exact ⟨h k, placeholderSr_positiveFinite, nofun⟩
  sampleRate := placeholderSr_positiveFinite
  params p := by rw [reset_params_get]; exact nofun

/-- A reset channel is not sized (10_state.md R33). -/
theorem ChannelState.reset_sizedOk (phases : Tap → F32) : (ChannelState.reset phases).SizedOk := nofun

theorem State.inv_iff {s : State} : s.Inv ↔ ∀ c, (s.chan c).Wf := by
  constructor
  · rintro ⟨hl, hr⟩ c
    cases c
    · exact hl
    · exact hr
  · intro h
    exact ⟨h .left, h .right⟩

theorem State.sizedInv_iff {s : State} : s.SizedInv ↔ ∀ c, (s.chan c).SizedOk := by
  constructor
  · rintro ⟨hl, hr⟩ c
    cases c
    · exact hl
    · exact hr
  · intro h
    exact ⟨h .left, h .right⟩

/-- Settles O15: reset makes good channels, and every move keeps them good. -/
theorem stepKeepsTheInvariants : Obligations.StepKeepsTheInvariants := by
  intro s t hs h
  rw [State.inv_iff] at hs ⊢
  exact step_keeps_channels (fun n d => ChannelState.reset_wf (Config.phaseInit_admissible n d))
    (fun hm hw => hw.move hm) h hs

/-! The meaning of SIZED (10_state.md R31) -/

/-- SIZED speaks of the four capacities and the sample rate alone. -/
theorem ChannelState.SizedOk.of_same_sizes {ch ch' : ChannelState} (h : ch.SizedOk)
    (hsized : ch'.sized = ch.sized) (hsr : ch'.sampleRate = ch.sampleRate)
    (hdl : ∀ k, (ch'.dl.get k).cap = (ch.dl.get k).cap) (hfb : ch'.fb.cap = ch.fb.cap) : ch'.SizedOk := by
  intro hone
  rw [hsr, hfb]
  simp only [hdl]
  exact h (hsized ▸ hone)

/-- A resized channel has four buffers of `ceilInt(SR)` words (44_engine.md R100). -/
theorem ChannelState.resize_sizedOk (ch : ChannelState) {sr : F32} {r : Ring}
    (hr : bufAlloc Config.maxCapacity (ceilInt sr) 0#32 = .ok r) : (ch.resize sr r).SizedOk := by
  obtain ⟨hpos, -, rfl⟩ := bufAlloc_ok hr
  have hcap : ((ceilInt sr).toNat : Int) = ceilInt sr := Int.toNat_of_nonneg (by omega)
  intro _
  exact ⟨fun k => by cases k <;> exact hcap, hcap⟩

/-- Every move keeps the meaning of SIZED: it keeps the sizes, or clears SIZED, or resizes the channel. -/
theorem ChannelState.SizedOk.move {ch ch' : ChannelState} (h : ch.SizedOk) (hm : ChannelMove ch ch') :
    ch'.SizedOk := by
  cases hm with
  | allocDl => exact nofun
  | allocFb => exact nofun
  | resize _ fresh => exact ch.resize_sizedOk fresh
  | pushDl k x =>
    refine h.of_same_sizes rfl rfl (fun j => ?_) rfl
    rw [setDl_dl, Taps.get_set]
    split
    · next hjk => rw [hjk]; rfl
    · rfl
  | commit xin => exact h.of_same_sizes rfl rfl (fun k => by rw [engCommit_dl]; rfl) rfl
  | keep => exact h
  | _ => exact h.of_same_sizes rfl rfl (fun _ => rfl) rfl

/-- Settles O17: reset clears SIZED, and every move keeps its meaning. -/
theorem stepKeepsSizedBuffers : Obligations.StepKeepsSizedBuffers := by
  intro s t hs h
  rw [State.sizedInv_iff] at hs ⊢
  exact step_keeps_channels (fun n d => ChannelState.reset_sizedOk _) (fun hm hw => hw.move hm) h hs

/-- Settles O14. -/
theorem resetMeetsTheInvariants : Obligations.ResetMeetsTheInvariants := by
  refine ⟨State.inv_iff.2 fun c => ?_, State.sizedInv_iff.2 fun c => ?_, ?_⟩
  · rw [State.reset, State.resetWith_chan]
    exact ChannelState.reset_wf (Config.phaseInit_admissible 0 c)
  · rw [State.reset, State.resetWith_chan]
    exact ChannelState.reset_sizedOk _
  · exact ⟨Nat.zero_le _, fun _ => ⟨rfl, rfl, rfl, rfl⟩⟩

end Sys2Proof.Machine
end

section
/-! The registers and the channels of 10_state.md that a command leaves alone: the operand and result registers (R23),
the other channel (R36), the host's reads (R22), and the reset values (R33). -/

namespace Sys2Proof.Machine

/-! Operand and result registers (10_state.md R23) -/

/-- A body that completes keeps RES0 unless its command is listed as writing it (30_encoding.md R59). -/
theorem commandBody_ok_res0 {i : Instr} {s t : State} (h : commandBody i s = .ok t)
    (hi : writesRes0 i = false) : t.res0 = s.res0 := by
  cases i <;> simp only [commandBody] at h
  case nop => cases h; rfl
  case dlInit => obtain ⟨r, -, rfl⟩ := reallocDl_ok h; exact State.setChan_res0 ..
  case dlResize => obtain ⟨r, -, rfl⟩ := reallocDl_ok h; exact State.setChan_res0 ..
  case lfoInit => obtain ⟨-, -, -, rfl⟩ := initLfo_ok h; exact State.setChan_res0 ..
  case lfoAdvance => obtain ⟨rate, -, -, rfl⟩ := advanceLfo_ok h; exact State.setChan_res0 ..
  case lfoSetRate => obtain ⟨-, rfl⟩ := setLfoRate_ok h; exact State.setChan_res0 ..
  case fbResize => obtain ⟨r, -, rfl⟩ := reallocFb_ok h; exact State.setChan_res0 ..
  case fbPush => obtain ⟨-, rfl⟩ := pushFb_ok h; exact State.setChan_res0 ..
  case engSetSampleRate => obtain ⟨-, r, -, rfl⟩ := setSampleRate_ok h; exact State.onChannels_res0 ..
  case csrWrite => obtain ⟨n, p, -, -, -, rfl⟩ := writeCsr_ok h; exact State.onChannels_res0 ..
  all_goals cases hi

/-- Only ST_PROCESS writes RES1 (30_encoding.md R59). -/
theorem commandBody_ok_res1 {i : Instr} {s t : State} (h : commandBody i s = .ok t) (hi : i ≠ .stProcess) :
    t.res1 = s.res1 := by
  cases i <;> simp only [commandBody] at h
  case nop => cases h; rfl
  case dlInit => obtain ⟨r, -, rfl⟩ := reallocDl_ok h; simp
  case dlResize => obtain ⟨r, -, rfl⟩ := reallocDl_ok h; simp
  case dlProcess => obtain ⟨-, -, rfl⟩ := processDl_ok h; simp
  case lfoInit => obtain ⟨-, -, -, rfl⟩ := initLfo_ok h; simp
  case lfoValue => cases h; simp
  case lfoAdvance => obtain ⟨rate, -, -, rfl⟩ := advanceLfo_ok h; simp
  case lfoSetRate => obtain ⟨-, rfl⟩ := setLfoRate_ok h; simp
  case fbResize => obtain ⟨r, -, rfl⟩ := reallocFb_ok h; simp
  case fbRead => obtain ⟨-, -, rfl⟩ := readFb_ok h; simp
  case fbPush => obtain ⟨-, rfl⟩ := pushFb_ok h; simp
  case engSetSampleRate => obtain ⟨-, r, -, rfl⟩ := setSampleRate_ok h; simp
  case engProcess => obtain ⟨plan, -, -, rfl⟩ := processEng_ok.1 h; simp
  case stProcess => exact absurd rfl hi
  case csrRead => obtain ⟨w, rfl⟩ := readCsr_ok h; simp
  case csrWrite => obtain ⟨n, p, -, -, -, rfl⟩ := writeCsr_ok h; simp
  case memPeek => obtain ⟨-, rfl⟩ := peekMem_ok h; simp

/-- Settles O23: a completed body keeps these registers, and a recorded or a dropped fault keeps every one. -/
theorem operandAndResultRegistersPersist : Obligations.OperandAndResultRegistersPersist := by
  refine ⟨fun i s t h => ?_, fun s => ⟨rfl, rfl⟩⟩
  rcases exec_next h with ⟨hbody, -⟩ | ⟨r, -, -, rfl⟩ | ⟨-, rfl⟩
  · obtain ⟨hcmd, hopa, hopb, hopc, hcause, -, -, -, -, hhost⟩ := commandBody_ok_frame hbody
    exact ⟨hopa, hopb, hopc, hcmd, hhost, commandBody_ok_res0 hbody, commandBody_ok_res1 hbody,
      fun hs ht => absurd (hcause.trans hs) ht⟩
  · simp
  · simp

/-! The other channel (10_state.md R36) -/

section

variable {c d : Channel} (s : State) (o ch : ChannelState) (w : Word)

@[simp] theorem State.setChan_chan_same : s.setChan d (s.chan d) = s := by cases d <;> rfl

/-- Replacing two different channels, in either order. -/
theorem State.setChan_comm (h : d ≠ c) :
    (s.setChan d o).setChan c ch = (s.setChan c ch).setChan d o := by
  cases c <;> cases d
  · exact absurd rfl h
  · rfl
  · rfl
  · exact absurd rfl h

theorem State.setChan_setRes0 : (s.setRes0 w).setChan d o = (s.setChan d o).setRes0 w := by
  cases d <;> rfl

theorem takeFault_setChan (r : Raise) : takeFault w r (s.setChan d o) = (takeFault w r s).setChan d o := by
  cases d <;> rfl

theorem halted_setChan : halted (s.setChan d o) = halted s := by cases d <;> rfl

theorem globalValue_setChan (g : GlobalCsr) : globalValue (s.setChan d o) g = globalValue s g := by
  cases d <;> cases g <;> rfl

end

section

variable {c d : Channel} (hd : d ≠ c) (s : State) (o : ChannelState)
include hd

/-- The channel of a command reads as before when the other one is replaced. -/
theorem State.chan_setChan_other : (s.setChan d o).chan c = s.chan c :=
  State.setChan_chan_other s d c o hd.symm

theorem reallocDl_setChan (k : Tap) (fill : Word) :
    reallocDl c k fill (s.setChan d o) = (reallocDl c k fill s).map (·.setChan d o) := by
  simp only [reallocDl, State.setChan_opa, s.chan_setChan_other hd, s.setChan_comm _ _ hd]
  cases bufAlloc Config.maxCapacity (opU32 s.opa) fill <;> rfl

theorem processDl_setChan (k : Tap) :
    processDl c k (s.setChan d o) = (processDl c k s).map (·.setChan d o) := by
  simp only [processDl, State.setChan_opa, State.setChan_opb, s.chan_setChan_other hd, s.setChan_comm _ _ hd,
    ← State.setChan_setRes0]
  split
  · rfl
  · cases checkCursor ((s.chan c).dl.get k) <;> rfl

theorem initLfo_setChan (k : Tap) : initLfo c k (s.setChan d o) = (initLfo c k s).map (·.setChan d o) := by
  simp only [initLfo, State.setChan_opa, State.setChan_opb, State.setChan_opc, s.chan_setChan_other hd,
    s.setChan_comm _ _ hd]
  split_ifs <;> rfl

theorem advanceLfo_setChan (k : Tap) :
    advanceLfo c k (s.setChan d o) = (advanceLfo c k s).map (·.setChan d o) := by
  simp only [advanceLfo, s.chan_setChan_other hd, s.setChan_comm _ _ hd]
  cases lfoAdvance ((s.chan c).lfo.get k) <;> rfl

theorem setLfoRate_setChan (k : Tap) :
    setLfoRate c k (s.setChan d o) = (setLfoRate c k s).map (·.setChan d o) := by
  simp only [setLfoRate, State.setChan_opa, s.chan_setChan_other hd, s.setChan_comm _ _ hd]
  split_ifs <;> rfl

theorem reallocFb_setChan : reallocFb c (s.setChan d o) = (reallocFb c s).map (·.setChan d o) := by
  simp only [reallocFb, State.setChan_opa, s.chan_setChan_other hd, s.setChan_comm _ _ hd]
  cases bufAlloc Config.maxCapacity (opU32 s.opa) 0#32 <;> rfl

theorem readFb_setChan : readFb c (s.setChan d o) = (readFb c s).map (·.setChan d o) := by
  simp only [readFb, State.setChan_opa, s.chan_setChan_other hd, ← State.setChan_setRes0]
  split
  · rfl
  · cases checkCursor (s.chan c).fb <;> rfl

theorem pushFb_setChan : pushFb c (s.setChan d o) = (pushFb c s).map (·.setChan d o) := by
  simp only [pushFb, State.setChan_opa, s.chan_setChan_other hd, s.setChan_comm _ _ hd]
  cases checkCursor (s.chan c).fb <;> rfl

theorem setSampleRate_setChan :
    setSampleRate (.one c) (s.setChan d o) = (setSampleRate (.one c) s).map (·.setChan d o) := by
  simp only [setSampleRate, State.onChannels_one, State.setChan_opa, s.chan_setChan_other hd,
    s.setChan_comm _ _ hd]
  split
  · rfl
  · cases bufAlloc Config.maxCapacity (ceilInt (opF32 s.opa)) 0#32 <;> rfl

theorem processEng_setChan : processEng c (s.setChan d o) = (processEng c s).map (·.setChan d o) := by
  simp only [processEng, State.setChan_opa, s.chan_setChan_other hd, s.setChan_comm _ _ hd,
    ← State.setChan_setRes0]
  cases engPlan c (s.chan c) with
  | error e => rfl
  | ok plan => cases checkCursors (s.chan c) <;> rfl

theorem readChannelCsr_setChan (r : ChannelCsr) :
    readChannelCsr (.one c) r (s.setChan d o) = (readChannelCsr (.one c) r s).map (·.setChan d o) := by
  simp only [readChannelCsr, State.setChan_opa, s.chan_setChan_other hd, ← State.setChan_setRes0]
  cases channelValue (s.chan c) r <;> rfl

theorem readCsr_setChan :
    readCsr (.one c) (s.setChan d o) = (readCsr (.one c) s).map (·.setChan d o) := by
  simp only [readCsr, State.setChan_opa, globalValue_setChan, readChannelCsr_setChan hd,
    ← State.setChan_setRes0]
  split
  · rfl
  · split
    · rfl
    · split <;> rfl

theorem writeCsr_setChan :
    writeCsr (.one c) (s.setChan d o) = (writeCsr (.one c) s).map (·.setChan d o) := by
  simp only [writeCsr, State.onChannels_one, State.setChan_opa, State.setChan_opb, s.chan_setChan_other hd,
    s.setChan_comm _ _ hd]
  split
  · rfl
  · split
    · rfl
    · split_ifs <;> rfl

theorem peekMem_setChan (u : PeekUnit) :
    peekMem c u (s.setChan d o) = (peekMem c u s).map (·.setChan d o) := by
  simp only [peekMem, State.setChan_opa, s.chan_setChan_other hd, ← State.setChan_setRes0]
  split_ifs <;> rfl

/-- The body of a command on one channel does the same whatever stands in the other (10_state.md R36). -/
theorem commandBody_setChan {i : Instr} (hi : channelsOf i = .one c) :
    commandBody i (s.setChan d o) = (commandBody i s).map (·.setChan d o) := by
  cases i <;> cases hi
  case nop => rfl
  case dlInit k =>
    simp only [commandBody, State.setChan_opb]
    exact reallocDl_setChan hd s o k s.opb
  case dlResize k => exact reallocDl_setChan hd s o k 0#32
  case dlProcess k => exact processDl_setChan hd s o k
  case lfoInit k => exact initLfo_setChan hd s o k
  case lfoValue k =>
    simp only [commandBody, s.chan_setChan_other hd, ← State.setChan_setRes0]
    rfl
  case lfoAdvance k => exact advanceLfo_setChan hd s o k
  case lfoSetRate k => exact setLfoRate_setChan hd s o k
  case fbResize => exact reallocFb_setChan hd s o
  case fbRead => exact readFb_setChan hd s o
  case fbPush => exact pushFb_setChan hd s o
  case engSetSampleRate => exact setSampleRate_setChan hd s o
  case engProcess => exact processEng_setChan hd s o
  case csrRead => exact readCsr_setChan hd s o
  case csrWrite => exact writeCsr_setChan hd s o
  case memPeek u => exact peekMem_setChan hd s o u

end

/-- Settling neither reads nor changes a channel. -/
theorem settle_setChan {w : Word} {s t : State} {body : Except Abort State} (d : Channel) (o : ChannelState)
    (h : settle w s body = .next t) :
    settle w (s.setChan d o) (body.map (·.setChan d o)) = .next (t.setChan d o) := by
  rcases settle_next h with rfl | ⟨r, rfl, hh, rfl⟩ | ⟨r, rfl, hh, rfl⟩
  · rfl
  · simp only [Except.map, settle_raise, halted_setChan, hh, takeFault_setChan]
    rfl
  · simp only [Except.map, settle_raise, halted_setChan, hh]
    rfl

/-- A command on one channel does the same whatever stands in the other (10_state.md R36). -/
theorem exec_setChan {i : Instr} {c d : Channel} {s t : State} (o : ChannelState) (hi : channelsOf i = .one c)
    (hd : d ≠ c) (h : exec i s = .next t) : exec i (s.setChan d o) = .next (t.setChan d o) := by
  have hcause := State.setChan_faultCause s d o
  have hbody := commandBody_setChan hd s o hi
  by_cases hs : s.faultCause = 0#32
  · rw [exec_running i hs] at h
    rw [exec_running i (hcause.trans hs), hbody]
    exact settle_setChan d o h
  · rw [exec_halted i hs] at h
    rw [exec_halted i (hcause.trans_ne hs), hbody]
    split at h
    · next hruns => rw [if_pos hruns]; exact settle_setChan d o h
    · next hruns => rw [if_neg hruns, Host.Outcome.next.inj h]

/-- Settles O24: that the other channel stays is the case of the second clause in which `o` is what stands
there already. -/
theorem channelsAreIndependent : Obligations.ChannelsAreIndependent := by
  intro i c d s t o hi hd h
  refine ⟨?_, exec_setChan o hi hd h⟩
  have hsame := exec_setChan (s.chan d) hi hd h
  rw [State.setChan_chan_same, h] at hsame
  rw [Host.Outcome.next.inj hsame, State.setChan_chan_self]

/-! Host reads (10_state.md R22, 20_memory.md R43, R46) -/

/-- A 32-bit read at a register's offset returns that register's lanes. -/
theorem hostRead_offset (r : HostReg) (s : State) :
    hostRead (hostRegOffset r) 4 s =
      .next { s with host := { s.host with readData := lanesOfWord (hostRegValue s r) } } := by
  cases r <;> rfl

theorem statusWord_eq (s : State) : statusWord s = if s.faultCause = 0#32 then 0#32 else 1#32 := by
  simp only [statusWord, bitWord, halted_iff, ite_not]

/-- A step whose access is a 32-bit read of a register. -/
theorem step_regRead {s : State} {r : HostReg} {rest : List HostEvent}
    (h : s.host.pending = .read (hostRegOffset r) 4 :: rest) :
    step s = .next { s with
      host := { s.host with pending := rest, readData := lanesOfWord (hostRegValue s r) } } := by
  have hvalue : hostRegValue (s.setPending rest) r = hostRegValue s r := by cases r <;> rfl
  simp only [step, hostStep, h, performEvent, hostRead_offset, hvalue]
  rfl

/-- Settles O7: the seven rows are the seven registers. -/
theorem hostReadsReturnRegisters : Obligations.HostReadsReturnRegisters := by
  intro s offset w rest h hrow
  obtain ⟨r, rfl, rfl⟩ : ∃ r, hostRegOffset r = offset ∧ hostRegValue s r = w := by
    rw [← statusWord_eq] at hrow
    simp only [List.mem_cons, List.not_mem_nil, or_false, Prod.mk.injEq] at hrow
    rcases hrow with ⟨rfl, rfl⟩ | ⟨rfl, rfl⟩ | ⟨rfl, rfl⟩ | ⟨rfl, rfl⟩ | ⟨rfl, rfl⟩ | ⟨rfl, rfl⟩ | ⟨rfl, rfl⟩
    · exact ⟨.cmd, rfl, rfl⟩
    · exact ⟨.opa, rfl, rfl⟩
    · exact ⟨.opb, rfl, rfl⟩
    · exact ⟨.opc, rfl, rfl⟩
    · exact ⟨.res0, rfl, rfl⟩
    · exact ⟨.res1, rfl, rfl⟩
    · exact ⟨.hstatus, rfl, rfl⟩
  exact step_regRead h

/-! Reset values (10_state.md R33) -/

/-- Every word of a buffer reads +0.0 at reset. -/
theorem State.word_resetWith (phases : Channel → Tap → F32) (host : HostPort) (c : Channel) (u : PeekUnit)
    (i : Nat) : (State.resetWith phases host).word c u i = 0#32 := by
  rw [State.word, State.ring, State.resetWith_chan, peekRing_reset]
  rfl

/-- Settles O10: the six groups of the statement, each read off the reset state. -/
theorem resetValues : Obligations.ResetValues := by
  intro phases host c k s
  have hchan : s.chan c = ChannelState.reset (phases c) := State.resetWith_chan phases host c
  have hword : ∀ u i, s.word c u i = 0#32 := State.word_resetWith phases host c
  rw [hchan, ChannelState.reset_dl_get, ChannelState.reset_lfo_get]
  exact ⟨⟨rfl, rfl, rfl, rfl, rfl, rfl, rfl⟩, ⟨rfl, rfl, rfl, rfl, rfl, rfl, rfl, rfl⟩,
    ⟨rfl, rfl, ChannelState.reset_params_get _, rfl⟩, ⟨rfl, rfl, hword _⟩, ⟨rfl, rfl, hword _⟩,
    rfl, rfl, rfl, rfl⟩

end Sys2Proof.Machine
end

section
/-! The host window and the buffers of 20_memory.md: the host accesses that have a step (R43, R44, R46), what a
command and a step can do to a buffer (R41, R52), that no step leaves one (R44), and inspection (R46). -/

namespace Sys2Proof.Machine

/-! Host writes (20_memory.md R43, R46) -/

/-- A step performs the host's next access, taken off its list (10_state.md R21). -/
theorem step_of_pending {s : State} {e : HostEvent} {rest : List HostEvent}
    (h : s.host.pending = e :: rest) : step s = performEvent e (s.setPending rest) := by
  simp only [step, hostStep, h]

/-- A 32-bit write at a register's offset is a write to that register. -/
theorem hostWrite_offset (r : HostReg) (w : Word) (s : State) :
    hostWrite (hostRegOffset r) (lanesOfWord w) s = hostWriteReg r w s := by
  simp only [hostWrite, wordOfLanes_lanesOfWord]
  cases r <;> rfl

/-- A step whose access is a 32-bit write to a register. -/
theorem step_regWrite {s : State} (r : HostReg) {w : Word} {rest : List HostEvent}
    (h : s.host.pending = .write (hostRegOffset r) (lanesOfWord w) :: rest) :
    step s = hostWriteReg r w (s.setPending rest) := by
  rw [step_of_pending h]
  exact hostWrite_offset r w _

/-- Settles O6: the three offsets are those of the three operand registers. -/
theorem operandWritesStoreTheWord : Obligations.OperandWritesStoreTheWord := by
  intro s w rest
  exact ⟨step_regWrite .opa, step_regWrite .opb, step_regWrite .opc⟩

/-! Accesses without a step (20_memory.md R44) -/

/-- A register is found only at its own offset (10_state.md R22). -/
theorem hostRegOffset_of_hostRegAt {offset : Nat} {r : HostReg} (h : hostRegAt offset = some r) :
    hostRegOffset r = offset := by
  obtain ⟨l₁, l₂, hsplit, -⟩ := List.lookup_eq_some_iff.1 h
  have hmem : (offset, r) ∈ hostRegTable := by simp [hsplit]
  have hrows : ∀ row ∈ hostRegTable, hostRegOffset row.2 = row.1 := by decide
  exact hrows _ hmem

/-- Only four lanes carry a word (20_memory.md R43). -/
theorem length_of_wordOfLanes {lanes : List Byte} {w : Word} (h : wordOfLanes lanes = some w) :
    lanes.length = 4 := by
  rw [wordOfLanes_some h]
  rfl

/-- A write that is not of 32 bits, not aligned, or not to a writable register is refused. -/
theorem hostWrite_refused {offset : Nat} {lanes : List Byte} (s : State)
    (h : lanes.length ≠ 4 ∨ offset % 4 ≠ 0 ∨ offset ∉ [0x00, 0x04, 0x08, 0x0C]) :
    ∃ r, hostWrite offset lanes s = .refused r := by
  unfold hostWrite
  split
  · exact ⟨_, rfl⟩
  · next w hw =>
    split
    · exact ⟨_, rfl⟩
    · next haligned =>
      split
      · exact ⟨_, rfl⟩
      · next r hr =>
        have hoff : offset ∉ [0x00, 0x04, 0x08, 0x0C] :=
          (h.resolve_left fun hlen => hlen (length_of_wordOfLanes hw)).resolve_left haligned
        rw [← hostRegOffset_of_hostRegAt hr] at hoff
        cases r
        case res0 | res1 | hstatus => exact ⟨_, rfl⟩
        all_goals exact absurd (by decide) hoff

/-- A read that is not of 32 bits, not aligned, or not at a listed offset is refused. -/
theorem hostRead_refused {offset bytes : Nat} (s : State)
    (h : bytes ≠ 4 ∨ offset % 4 ≠ 0 ∨ offset ∉ [0x00, 0x04, 0x08, 0x0C, 0x10, 0x14, 0x18]) :
    ∃ r, hostRead offset bytes s = .refused r := by
  unfold hostRead
  split
  · exact ⟨_, rfl⟩
  · next hbytes =>
    split
    · exact ⟨_, rfl⟩
    · next haligned =>
      split
      · exact ⟨_, rfl⟩
      · next r hr =>
        have hoff := (h.resolve_left hbytes).resolve_left haligned
        rw [← hostRegOffset_of_hostRegAt hr] at hoff
        cases r <;> exact absurd (by decide) hoff

/-- Settles O8: a write and a read, each refused whatever else stands in the state. -/
theorem otherHostAccessesHaveNoStep : Obligations.OtherHostAccessesHaveNoStep := by
  intro s offset rest
  refine ⟨fun lanes hp h => ?_, fun bytes hp h => ?_⟩
  · rw [step_of_pending hp]
    exact hostWrite_refused _ h
  · rw [step_of_pending hp]
    exact hostRead_refused _ h

/-! Buffers of a state and of a channel (20_memory.md R40) -/

section

variable {s t : State} (c d : Channel) (u : PeekUnit) (ch : ChannelState)

/-- The buffers are read off the two channels alone. -/
theorem State.ring_congr (h : t.chan c = s.chan c) : t.ring c u = s.ring c u :=
  congrArg (peekRing · u) h

@[simp] theorem State.ring_setRes0 (w : Word) : (s.setRes0 w).ring c u = s.ring c u :=
  State.ring_congr c u (State.setRes0_chan ..)

theorem State.ring_setChan : (s.setChan d ch).ring c u = if c = d then peekRing ch u else s.ring c u := by
  simp only [State.ring, State.setChan_chan]
  split <;> rfl

variable (k : Tap) (r : Ring)

theorem peekRing_setDl : peekRing (ch.setDl k r) u = if u = .dl k then r else peekRing ch u := by
  cases u with
  | dl j => simp only [peekRing, ChannelState.setDl_dl, Taps.get_set, PeekUnit.dl.injEq]
  | fb => rfl

theorem peekRing_setFb : peekRing (ch.setFb r) u = if u = .fb then r else peekRing ch u := by
  cases u <;> rfl

theorem peekRing_setSized (b : Bool) : peekRing (ch.setSized b) u = peekRing ch u := by
  cases u <;> rfl

theorem peekRing_setLfo (l : Lfo) : peekRing (ch.setLfo k l) u = peekRing ch u := by
  cases u <;> rfl

theorem peekRing_setParam (p : Param) (v : F32) : peekRing (ch.setParam p v) u = peekRing ch u := by
  cases u <;> rfl

/-- A commit pushes one word into each of the four buffers (44_engine.md R107, R109). -/
theorem peekRing_engCommit (xin : Word) (plan : Plan) :
    ∃ x, peekRing (engCommit ch xin plan).1 u = (peekRing ch u).push x := by
  cases u with
  | dl k => exact ⟨_, engCommit_dl ch xin plan k⟩
  | fb => exact ⟨_, engCommit_fb ch xin plan⟩

end

/-! What a command can do to a buffer (20_memory.md R41, R52) -/

/-- What the command `i` can do to the unit `u` of channel `c`: leave it, or, where R41 lists it, push a word, or
put a new unit in its place where R52 lets the command do so. -/
inductive RingMove (i : Instr) (c : Channel) (u : PeekUnit) (r : Ring) : Ring → Prop where
  | keep : RingMove i c u r r
  | push (listed : mayWriteBuffer i c u = true) (x : Word) : RingMove i c u r (r.push x)
  | replace (listed : mayWriteBuffer i c u = true) (realloc : reallocates i = true) (r' : Ring) :
      RingMove i c u r r'

section

variable {i : Instr} {s t : State} {d : Channel} {ch : ChannelState} {k : Tap} {r r' : Ring}

/-- A unit that R41 does not list is kept. -/
theorem RingMove.eq_of_unlisted {u : PeekUnit} (h : RingMove i d u r r') (hi : mayWriteBuffer i d u = false) :
    r' = r := by
  cases h with
  | keep => rfl
  | push listed => rw [hi] at listed; cases listed
  | replace listed => rw [hi] at listed; cases listed

/-- A command that does not reallocate keeps the capacity. -/
theorem RingMove.cap_eq {u : PeekUnit} (h : RingMove i d u r r') (hi : reallocates i = false) :
    r'.cap = r.cap := by
  cases h with
  | keep => rfl
  | push _ x => exact r.push_cap x
  | replace _ realloc => rw [hi] at realloc; cases realloc

theorem RingMove.of_eq {u : PeekUnit} (h : r' = r) : RingMove i d u r r' := by
  rw [h]
  exact .keep

/-- A delay line replaced moves that unit and keeps the others of its channel. -/
theorem RingMove.setDl (h : RingMove i d (.dl k) (ch.dl.get k) r) (u : PeekUnit) :
    RingMove i d u (peekRing ch u) (peekRing (ch.setDl k r) u) := by
  rw [peekRing_setDl]
  split
  · next hu => rw [hu]; exact h
  · exact .keep

/-- The feedback buffer replaced moves that unit and keeps the others of its channel. -/
theorem RingMove.setFb (h : RingMove i d .fb ch.fb r) (u : PeekUnit) :
    RingMove i d u (peekRing ch u) (peekRing (ch.setFb r) u) := by
  rw [peekRing_setFb]
  split
  · next hu => rw [hu]; exact h
  · exact .keep

/-- A channel replaced moves its own units and keeps those of the other channel. -/
theorem RingMove.setChan (h : ∀ u, RingMove i d u (peekRing (s.chan d) u) (peekRing ch u)) (c : Channel)
    (u : PeekUnit) : RingMove i c u (s.ring c u) ((s.setChan d ch).ring c u) := by
  rw [State.ring_setChan]
  split
  · next hcd => rw [hcd]; exact h u
  · exact .keep

/-- One operation on the addressed channels moves their units and keeps those of the others. -/
theorem RingMove.onChannels {sel : ChSel} {f : ChannelState → ChannelState}
    (h : ∀ c u, selects sel c = true → RingMove i c u (s.ring c u) (peekRing (f (s.chan c)) u)) (c : Channel)
    (u : PeekUnit) : RingMove i c u (s.ring c u) ((s.onChannels sel f).ring c u) := by
  cases sel with
  | one d => exact RingMove.setChan (fun v => h d v (decide_eq_true rfl)) c u
  | both =>
    have hunit : (s.onChannels .both f).ring c u = peekRing (f (s.chan c)) u := by
      rw [State.ring, State.onChannels_both_chan]
    rw [hunit]
    exact h c u rfl

/-- A commit pushes into the units of its channel. -/
theorem RingMove.engCommit (xin : Word) (plan : Plan) {u : PeekUnit} (listed : mayWriteBuffer i d u = true) :
    RingMove i d u (peekRing ch u) (peekRing (engCommit ch xin plan).1 u) := by
  obtain ⟨x, hx⟩ := peekRing_engCommit u ch xin plan
  rw [hx]
  exact .push listed x

end

/-- A body that completes moves each buffer. -/
theorem commandBody_ok_ringMove {i : Instr} {s t : State} (h : commandBody i s = .ok t) (c : Channel)
    (u : PeekUnit) : RingMove i c u (s.ring c u) (t.ring c u) := by
  cases i <;> simp only [commandBody] at h
  case nop => cases h; exact .keep
  case dlInit d k | dlResize d k =>
    obtain ⟨r, -, rfl⟩ := reallocDl_ok h
    refine RingMove.setChan (fun v => ?_) c u
    rw [peekRing_setSized]
    exact RingMove.setDl (.replace (by simp [mayWriteBuffer]) rfl r) v
  case dlProcess d k =>
    obtain ⟨-, -, rfl⟩ := processDl_ok h
    exact RingMove.setChan (RingMove.setDl (.push (by simp [mayWriteBuffer]) _)) c u
  case lfoInit =>
    obtain ⟨-, -, -, rfl⟩ := initLfo_ok h
    exact RingMove.setChan (fun _ => .of_eq (peekRing_setLfo ..)) c u
  case lfoValue => cases h; exact .of_eq (State.ring_setRes0 ..)
  case lfoAdvance =>
    obtain ⟨rate, -, -, rfl⟩ := advanceLfo_ok h
    exact RingMove.setChan (fun _ => .of_eq (peekRing_setLfo ..)) c u
  case lfoSetRate =>
    obtain ⟨-, rfl⟩ := setLfoRate_ok h
    exact RingMove.setChan (fun _ => .of_eq (peekRing_setLfo ..)) c u
  case fbResize d =>
    obtain ⟨r, -, rfl⟩ := reallocFb_ok h
    refine RingMove.setChan (fun v => ?_) c u
    rw [peekRing_setSized]
    exact RingMove.setFb (.replace (by simp [mayWriteBuffer]) rfl r) v
  case fbRead => obtain ⟨-, -, rfl⟩ := readFb_ok h; exact .of_eq (State.ring_setRes0 ..)
  case fbPush d =>
    obtain ⟨-, rfl⟩ := pushFb_ok h
    exact RingMove.setChan (RingMove.setFb (.push (by simp [mayWriteBuffer]) _)) c u
  case engSetSampleRate sel =>
    obtain ⟨-, r, -, rfl⟩ := setSampleRate_ok h
    exact RingMove.onChannels (fun _ _ listed => .replace (i := .engSetSampleRate sel) listed rfl _) c u
  case engProcess d =>
    obtain ⟨plan, -, -, rfl⟩ := processEng_ok.1 h
    exact RingMove.setChan (fun _ => .engCommit _ plan (by simp [mayWriteBuffer])) c u
  case stProcess =>
    obtain ⟨planL, planR, -, -, -, -, rfl⟩ := processStereo_ok.1 h
    cases c
    · exact .engCommit _ planL rfl
    · exact .engCommit _ planR rfl
  case csrRead => obtain ⟨w, rfl⟩ := readCsr_ok h; exact .of_eq (State.ring_setRes0 ..)
  case csrWrite =>
    obtain ⟨n, p, -, -, -, rfl⟩ := writeCsr_ok h
    exact RingMove.onChannels (fun _ _ _ => .of_eq (peekRing_setParam ..)) c u
  case memPeek => obtain ⟨-, rfl⟩ := peekMem_ok h; exact .of_eq (State.ring_setRes0 ..)

/-- A command that answers a next state moves each buffer; a recorded or dropped fault keeps all eight. -/
theorem exec_next_ringMove {i : Instr} {s t : State} (h : exec i s = .next t) (c : Channel) (u : PeekUnit) :
    RingMove i c u (s.ring c u) (t.ring c u) := by
  rcases exec_next h with ⟨hbody, -⟩ | ⟨r, -, -, rfl⟩ | ⟨-, rfl⟩
  · exact commandBody_ok_ringMove hbody c u
  · exact .of_eq (State.ring_congr c u (takeFault_chan ..))
  · exact .keep

/-- Settles O26: every move that changes a buffer is one that R41 lists. -/
theorem buffersChangeOnlyByTheirCommands : Obligations.BuffersChangeOnlyByTheirCommands := by
  intro i s t h c u hunlisted
  exact (exec_next_ringMove h c u).eq_of_unlisted hunlisted

/-- Settles O25: but for a reset, a step either leaves both channels or runs the word written to CMD. -/
theorem onlyReallocationChangesACapacity : Obligations.OnlyReallocationChangesACapacity := by
  intro s t h hreset hcmd c u
  rcases step_next h with ⟨-, rfl⟩ | ⟨e, rest, v, hp, rfl, hv⟩
  · rfl
  rw [hp, List.head?_cons] at hreset hcmd
  rcases hv with ⟨w, -, rfl | rfl | rfl⟩ | ⟨w, rfl, hw⟩ | ⟨data, -, rfl⟩ | ⟨rfl, -⟩
  · cases c <;> rfl
  · cases c <;> rfl
  · cases c <;> rfl
  · have hring : ((s.setPending rest).setCmd w).ring c u = s.ring c u :=
      State.ring_congr c u (by simp)
    rcases writeCmd_next hw with ⟨i, hi, hexec⟩ | ⟨-, rfl⟩ | ⟨-, rfl⟩
    · rw [(exec_next_ringMove hexec c u).cap_eq (hcmd w i rfl hi), hring]
    · rw [hring]
    · rw [State.ring_congr c u (takeFault_chan ..), hring]
  · cases c <;> rfl
  · exact absurd rfl hreset

/-! Cursors and stops (20_memory.md R44) -/

theorem checkCursor_error {r : Ring} {e : Abort} (h : checkCursor r = .error e) : r.cap ≤ r.wc := by
  by_contra hlt
  rw [checkCursor_of_lt (by omega)] at h
  cases h

/-- The check of a channel's cursors fails only where one of them is outside its buffer. -/
theorem exists_cursor_of_checkCursors_error {ch : ChannelState} {e : Abort} (h : checkCursors ch = .error e) :
    ∃ u, (peekRing ch u).cap ≤ (peekRing ch u).wc := by
  by_contra hnone
  simp only [not_exists, not_le] at hnone
  rw [checkCursors_ok (u := ()).2 ⟨fun k => hnone (.dl k), hnone .fb⟩] at h
  cases h

/-- A plan that fails raises a fault of the block (44_engine.md R101). -/
theorem engPlan_not_stop {c : Channel} {ch : ChannelState} {f : Fault} : engPlan c ch ≠ .error (.stop f) := by
  intro h
  obtain ⟨cause, info, unit, hraise⟩ := engPlan_error h
  cases hraise

section

variable {c : Channel} {k : Tap} {sel : ChSel} {u : PeekUnit} {l : Lfo} {maxCap : Nat} {cap : Int} {fill : Word}
  {s : State} {f : Fault}

theorem bufAlloc_not_stop : bufAlloc maxCap cap fill ≠ .error (.stop f) := by
  unfold bufAlloc raiseFault
  split <;> nofun

theorem lfoAdvance_not_stop : lfoAdvance l ≠ .error (.stop f) := by
  unfold lfoAdvance raiseFault
  split
  · nofun
  · split <;> nofun

theorem reallocDl_not_stop : reallocDl c k fill s ≠ .error (.stop f) := by
  unfold reallocDl
  split
  · next e he => exact fun h => bufAlloc_not_stop (Except.error.inj h ▸ he)
  · nofun

theorem reallocFb_not_stop : reallocFb c s ≠ .error (.stop f) := by
  unfold reallocFb
  split
  · next e he => exact fun h => bufAlloc_not_stop (Except.error.inj h ▸ he)
  · nofun

theorem setSampleRate_not_stop : setSampleRate sel s ≠ .error (.stop f) := by
  unfold setSampleRate raiseFault
  simp only
  split
  · nofun
  · split
    · next e he => exact fun h => bufAlloc_not_stop (Except.error.inj h ▸ he)
    · nofun

theorem initLfo_not_stop : initLfo c k s ≠ .error (.stop f) := by
  unfold initLfo raiseFault
  simp only
  split_ifs <;> nofun

theorem advanceLfo_not_stop : advanceLfo c k s ≠ .error (.stop f) := by
  unfold advanceLfo
  split
  · next e he => exact fun h => lfoAdvance_not_stop (Except.error.inj h ▸ he)
  · nofun

theorem setLfoRate_not_stop : setLfoRate c k s ≠ .error (.stop f) := by
  unfold setLfoRate raiseFault
  simp only
  split <;> nofun

theorem readCsr_not_stop : readCsr sel s ≠ .error (.stop f) := by
  unfold readCsr readChannelCsr raiseFault
  split
  · nofun
  · split
    · nofun
    · split
      · split
        · nofun
        · split <;> nofun
      · nofun

theorem writeCsr_not_stop : writeCsr sel s ≠ .error (.stop f) := by
  unfold writeCsr raiseFault
  split
  · nofun
  · split
    · nofun
    · simp only
      split <;> nofun

theorem peekMem_not_stop : peekMem c u s ≠ .error (.stop f) := by
  unfold peekMem raiseFault
  simp only
  split <;> nofun

theorem processDl_stop
    (h : processDl c k s = .error (.stop f)) : ((s.chan c).dl.get k).cap ≤ ((s.chan c).dl.get k).wc := by
  unfold processDl raiseFault at h
  simp only at h
  split at h
  · cases h
  · split at h
    · next e he => exact checkCursor_error he
    · cases h

theorem readFb_stop (h : readFb c s = .error (.stop f)) :
    (s.chan c).fb.cap ≤ (s.chan c).fb.wc := by
  unfold readFb raiseFault at h
  simp only at h
  split at h
  · cases h
  · split at h
    · next e he => exact checkCursor_error he
    · cases h

theorem pushFb_stop (h : pushFb c s = .error (.stop f)) :
    (s.chan c).fb.cap ≤ (s.chan c).fb.wc := by
  unfold pushFb at h
  simp only at h
  split at h
  · next e he => exact checkCursor_error he
  · cases h

theorem processEng_stop (h : processEng c s = .error (.stop f)) :
    ∃ u, (s.ring c u).cap ≤ (s.ring c u).wc := by
  rcases processEng_error.1 h with hplan | ⟨plan, -, hcursors⟩
  · exact (engPlan_not_stop hplan).elim
  · exact exists_cursor_of_checkCursors_error hcursors

theorem processStereo_stop (h : processStereo s = .error (.stop f)) :
    ∃ c u, (s.ring c u).cap ≤ (s.ring c u).wc := by
  rcases processStereo_error.1 h with hplan | ⟨planL, -, hplan | ⟨planR, -, hleft | ⟨-, hright⟩⟩⟩
  · exact (engPlan_not_stop hplan).elim
  · exact (engPlan_not_stop hplan).elim
  · exact ⟨.left, exists_cursor_of_checkCursors_error hleft⟩
  · exact ⟨.right, exists_cursor_of_checkCursors_error hright⟩

/-- A body stops the model only where some cursor is outside its buffer (log 12). -/
theorem commandBody_stop {i : Instr} (h : commandBody i s = .error (.stop f)) :
    ∃ c u, (s.ring c u).cap ≤ (s.ring c u).wc := by
  cases i <;> simp only [commandBody] at h
  case nop => cases h
  case dlInit => exact (reallocDl_not_stop h).elim
  case dlResize => exact (reallocDl_not_stop h).elim
  case dlProcess c k => exact ⟨c, .dl k, processDl_stop h⟩
  case lfoInit => exact (initLfo_not_stop h).elim
  case lfoValue => cases h
  case lfoAdvance => exact (advanceLfo_not_stop h).elim
  case lfoSetRate => exact (setLfoRate_not_stop h).elim
  case fbResize => exact (reallocFb_not_stop h).elim
  case fbRead c => exact ⟨c, .fb, readFb_stop h⟩
  case fbPush c => exact ⟨c, .fb, pushFb_stop h⟩
  case engSetSampleRate => exact (setSampleRate_not_stop h).elim
  case engProcess c => exact ⟨c, processEng_stop h⟩
  case stProcess => exact processStereo_stop h
  case csrRead => exact (readCsr_not_stop h).elim
  case csrWrite => exact (writeCsr_not_stop h).elim
  case memPeek => exact (peekMem_not_stop h).elim

end

/-- A write to CMD stops the model only where the decoded command's body does. -/
theorem writeCmd_fault {w : Word} {s : State} {f : Fault} (h : writeCmd w s = .fault f) :
    ∃ i, commandBody i (s.setCmd w) = .error (.stop f) := by
  rw [writeCmd_eq] at h
  split at h
  · next i _ => exact ⟨i, exec_fault h⟩
  · unfold illegalCommand at h
    split at h
    · cases h
    · cases settle_fault h

/-- A host write stops the model only as a write to CMD. -/
theorem hostWrite_fault {offset : Nat} {lanes : List Byte} {s : State} {f : Fault}
    (h : hostWrite offset lanes s = .fault f) : ∃ w, writeCmd w s = .fault f := by
  unfold hostWrite at h
  split at h
  · cases h
  · next w _ =>
    split at h
    · cases h
    · split at h
      · cases h
      · next r _ =>
        cases r <;> simp only [hostWriteReg] at h
        case cmd => exact ⟨w, h⟩
        all_goals cases h

theorem hostRead_not_fault {offset bytes : Nat} {s : State} {f : Fault} : hostRead offset bytes s ≠ .fault f := by
  unfold hostRead
  split
  · nofun
  · split
    · nofun
    · split <;> nofun

/-- A step stops the model only where a command's body does, on the channels as they were. -/
theorem step_fault {s : State} {f : Fault} (h : step s = .fault f) :
    ∃ i v, commandBody i v = .error (.stop f) ∧ ∀ c, v.chan c = s.chan c := by
  unfold step hostStep at h
  split at h
  · cases h
  · next e rest _ =>
    cases e with
    | write offset lanes =>
      obtain ⟨w, hw⟩ := hostWrite_fault h
      obtain ⟨i, hi⟩ := writeCmd_fault hw
      exact ⟨i, _, hi, fun c => by simp⟩
    | read offset bytes => exact (hostRead_not_fault h).elim
    | reset => cases h

theorem State.Inv.ring_wf {s : State} (h : s.Inv) (c : Channel) (u : PeekUnit) : (s.ring c u).Wf := by
  have hch := State.inv_iff.1 h c
  cases u with
  | dl k => exact hch.dl k
  | fb => exact hch.fb

/-- Settles O16: a stop needs a cursor outside its buffer, and the invariants have every cursor inside. -/
theorem stepNeverLeavesABuffer : Obligations.StepNeverLeavesABuffer := by
  intro s hs f h
  obtain ⟨i, v, hbody, hchan⟩ := step_fault h
  obtain ⟨c, u, hout⟩ := commandBody_stop hbody
  rw [State.ring_congr c u (hchan c)] at hout
  exact absurd (hs.ring_wf c u).cursor (by omega)

/-! Inspection (20_memory.md R46) -/

section

variable (s : State) (w : Word)

theorem globalValue_setRes0 (g : GlobalCsr) : globalValue (s.setRes0 w) g = globalValue s g := by
  cases g <;> rfl

theorem State.setRes0_setRes0 (v : Word) : (s.setRes0 w).setRes0 v = s.setRes0 v := rfl

/-- CSR_READ does not read RES0. -/
theorem readCsr_setRes0 (sel : ChSel) : readCsr sel (s.setRes0 w) = readCsr sel s := by
  simp only [readCsr, readChannelCsr, State.setRes0_opa, State.setRes0_chan, globalValue_setRes0,
    State.setRes0_setRes0]

theorem peekMem_setRes0 (c : Channel) (u : PeekUnit) : peekMem c u (s.setRes0 w) = peekMem c u s := by
  simp only [peekMem, State.setRes0_opa, State.setRes0_chan, State.setRes0_setRes0]

theorem readFb_setRes0 (c : Channel) : readFb c (s.setRes0 w) = readFb c s := by
  simp only [readFb, State.setRes0_opa, State.setRes0_chan, State.setRes0_setRes0]

end

/-- An inspecting body that completes changes RES0 alone, and completes the same way again. -/
theorem commandBody_ok_repeat {i : Instr} {s t : State} (hi : changesOnlyRes0 i = true)
    (h : commandBody i s = .ok t) : (∃ w, t = s.setRes0 w) ∧ commandBody i t = .ok t := by
  cases i <;> simp only [commandBody] at h
  case nop => cases h; exact ⟨⟨s.res0, rfl⟩, rfl⟩
  case lfoValue =>
    cases h
    exact ⟨⟨_, rfl⟩, by simp only [commandBody, State.setRes0_chan, State.setRes0_setRes0]⟩
  case fbRead =>
    obtain ⟨-, -, ht⟩ := readFb_ok h
    exact ⟨⟨_, ht⟩, by rw [commandBody, ht, readFb_setRes0, h, ht]⟩
  case csrRead =>
    obtain ⟨w, ht⟩ := readCsr_ok h
    exact ⟨⟨w, ht⟩, by rw [commandBody, ht, readCsr_setRes0, h, ht]⟩
  case memPeek =>
    obtain ⟨-, ht⟩ := peekMem_ok h
    exact ⟨⟨_, ht⟩, by rw [commandBody, ht, peekMem_setRes0, h, ht]⟩
  all_goals cases hi

/-- A command whose body completes answers that state, where it is not dropped (60_exceptions.md R135). -/
theorem exec_of_commandBody_ok {i : Instr} {s t : State} (h : commandBody i s = .ok t)
    (hruns : s.faultCause ≠ 0#32 → runsHalted i = true) : exec i s = .next t := by
  by_cases hs : s.faultCause = 0#32
  · exact exec_ok hs h
  · rw [exec_halted i hs, if_pos (hruns hs), h, settle_ok]

/-- Settles O27: with the premise no fault was recorded, so the body completed or the command was dropped. -/
theorem inspectionIsRepeatable : Obligations.InspectionIsRepeatable := by
  intro i s t hi h hcause
  rcases exec_next h with ⟨hbody, hruns⟩ | ⟨r, -, hs, rfl⟩ | ⟨-, rfl⟩
  · obtain ⟨⟨w, rfl⟩, hagain⟩ := commandBody_ok_repeat hi hbody
    exact ⟨rfl, exec_of_commandBody_ok hagain hruns⟩
  · exact absurd (hcause.trans hs) (causeCode_ne_zero r.cause)
  · exact ⟨rfl, h⟩

end Sys2Proof.Machine
end

section
/-! The encoding of 30_encoding.md: the decoder and the encoder are inverse (R59, R60), the legal words are those of
the opcode table (R59), and what a write to CMD does with an illegal word and with the word of a command line (R60,
R62). -/

namespace Sys2Proof

/-! Decoding the fields of a command (30_encoding.md R59). Rows of one shape share one lemma. -/

section
variable (op : BitVec 8) (rsv : BitVec 20) (c : Channel)

theorem decodeChannelTap_code (k : Tap) (mk : Channel → Tap → Instr) :
    decodeChannelTap ⟨op, k.code, c.code, rsv⟩ mk = .ok (mk c k) := by
  simp only [decodeChannelTap, channelOfCode_code, tapOfCode_code]

theorem decodeChannel_code (mk : Channel → Instr) :
    decodeChannel ⟨op, 0#2, c.code, rsv⟩ mk = .ok (mk c) := by
  simp only [decodeChannel, channelOfCode_code, if_true]

theorem decodeChSel_code (sel : ChSel) (mk : ChSel → Instr) :
    decodeChSel ⟨op, 0#2, sel.code, rsv⟩ mk = .ok (mk sel) := by
  simp only [decodeChSel, chSelOfCode_code, if_true]

end

/-- Every command decodes from its own fields. -/
@[simp] theorem decodeFields_encodeFields (i : Instr) : decodeFields (encodeFields i) = .ok i := by
  cases i
  case nop | engSetSampleRate | csrRead | csrWrite => exact decodeChSel_code ..
  case dlInit | dlResize | dlProcess | lfoInit | lfoValue | lfoAdvance | lfoSetRate =>
    exact decodeChannelTap_code ..
  case fbResize | fbRead | fbPush | engProcess => exact decodeChannel_code ..
  case stProcess => rfl
  case memPeek => simp [decodeFields, encodeFields]

/-! Fields that decode are the fields of a command (30_encoding.md R60) -/

/-- The decoding `d` of the fields `f` answers only a command whose fields are `f`. -/
def ReadsOwnFields (f : Fields) (d : Except DecodeError Instr) : Prop :=
  ∀ i, d = .ok i → f = encodeFields i

namespace ReadsOwnFields

variable {f : Fields} {op : BitVec 8}

theorem error (e : DecodeError) : ReadsOwnFields f (.error e) := nofun

/-- A test in the chain of the decoder: each branch under the outcome of the test. -/
theorem ite {p : Prop} [Decidable p] {x y : Except DecodeError Instr} (hx : p → ReadsOwnFields f x)
    (hy : ¬p → ReadsOwnFields f y) : ReadsOwnFields f (if p then x else y) := by
  split
  · next hp => exact hx hp
  · next hp => exact hy hp

/-- A row of the decoder, and the rows below it. -/
theorem row {x y : Except DecodeError Instr} (hx : f.op = op → ReadsOwnFields f x) (hy : ReadsOwnFields f y) :
    ReadsOwnFields f (if f.op = op then x else y) :=
  ite hx fun _ => hy

/-- A row with CH 01, 10 and U 0, 1, 2: the codes that were read are the only ones of their channel and unit. -/
theorem channelTap {mk : Channel → Tap → Instr} (hrsv : f.rsv = 0#20)
    (hmk : ∀ c k, encodeFields (mk c k) = ⟨op, k.code, c.code, 0#20⟩) (hop : f.op = op) :
    ReadsOwnFields f (decodeChannelTap f mk) := by
  intro i h
  unfold decodeChannelTap at h
  split at h
  · next c k hc hk =>
    cases h
    rw [hmk, ← hop, ← hrsv, ← channelOfCode_some hc, ← tapOfCode_some hk]
  · cases h
  · cases h

/-- A row with CH 01, 10 and U = 0. -/
theorem channel {mk : Channel → Instr} (hrsv : f.rsv = 0#20)
    (hmk : ∀ c, encodeFields (mk c) = ⟨op, 0#2, c.code, 0#20⟩) (hop : f.op = op) :
    ReadsOwnFields f (decodeChannel f mk) := by
  unfold decodeChannel
  split
  · next c hc =>
    refine ite (fun hu i h => ?_) fun _ => error _
    cases h
    rw [hmk, ← hop, ← hrsv, ← channelOfCode_some hc, ← hu]
  · exact error _

/-- A row with CH 01, 10, 11 and U = 0. -/
theorem chSel {mk : ChSel → Instr} (hrsv : f.rsv = 0#20)
    (hmk : ∀ sel, encodeFields (mk sel) = ⟨op, 0#2, sel.code, 0#20⟩) (hop : f.op = op) :
    ReadsOwnFields f (decodeChSel f mk) := by
  unfold decodeChSel
  split
  · next sel hsel =>
    refine ite (fun hu i h => ?_) fun _ => error _
    cases h
    rw [hmk, ← hop, ← hrsv, ← chSelOfCode_some hsel, ← hu]
  · exact error _

end ReadsOwnFields

/-- The whole decoder, its rows in the order of the table (30_encoding.md R59). -/
theorem decodeFields_readsOwnFields (f : Fields) : ReadsOwnFields f (decodeFields f) := by
  refine .ite (fun _ => .error _) fun hne => ?_
  have hrsv : f.rsv = 0#20 := not_not.1 hne
  refine
    .row (.chSel hrsv fun _ => rfl) <|
    .row (.channelTap hrsv fun _ _ => rfl) <|
    .row (.channelTap hrsv fun _ _ => rfl) <|
    .row (.channelTap hrsv fun _ _ => rfl) <|
    .row (.channelTap hrsv fun _ _ => rfl) <|
    .row (.channelTap hrsv fun _ _ => rfl) <|
    .row (.channelTap hrsv fun _ _ => rfl) <|
    .row (.channelTap hrsv fun _ _ => rfl) <|
    .row (.channel hrsv fun _ => rfl) <|
    .row (.channel hrsv fun _ => rfl) <|
    .row (.channel hrsv fun _ => rfl) <|
    .row (.chSel hrsv fun _ => rfl) <|
    .row (.channel hrsv fun _ => rfl) <|
    .row (fun hop => .ite (fun _ => .error _) fun hch => .ite (fun _ => .error _) fun hu i h => ?stProcess) <|
    .row (.chSel hrsv fun _ => rfl) <|
    .row (.chSel hrsv fun _ => rfl) <|
    .row (fun hop => ?memPeek) (.error _)
  case stProcess =>
    cases h
    obtain ⟨op, u, ch, rsv⟩ := f
    obtain rfl : ch = 3#2 := not_not.1 hch
    obtain rfl : u = 0#2 := not_not.1 hu
    obtain rfl : op = 0x32#8 := hop
    obtain rfl : rsv = 0#20 := hrsv
    rfl
  case memPeek =>
    split
    · next c hc =>
      intro i h
      cases h
      rw [encodeFields, peekUnitOfCode_eq, ← channelOfCode_some hc, ← hop, ← hrsv]
    · exact .error _

theorem decodeFields_eq_ok_iff {f : Fields} {i : Instr} : decodeFields f = .ok i ↔ f = encodeFields i := by
  refine ⟨decodeFields_readsOwnFields f i, ?_⟩
  rintro rfl
  exact decodeFields_encodeFields i

theorem decode_eq_ok_iff_fields {w : Word} {i : Instr} : decode w = .ok i ↔ fieldsOf w = encodeFields i :=
  decodeFields_eq_ok_iff

/-- Settles O2: a word and its fields determine each other, so it is enough to compare the fields. -/
theorem decodeEncodeAgree : Obligations.DecodeEncodeAgree := by
  intro w i
  rw [decode_eq_ok_iff_fields]
  constructor
  · intro h
    rw [encode, ← h, wordOfFields_fieldsOf]
  · rintro rfl
    exact fieldsOf_encode i

/-- Settles O1: each word is the encoding of the command it stands for. -/
theorem writtenWordsDecode : Obligations.WrittenWordsDecode := by
  simp only [Obligations.WrittenWordsDecode, decodeEncodeAgree _ _]
  decide

/-! The legal fields are those of the table's rows (30_encoding.md R59) -/

theorem Fields.wellFormed_iff (f : Fields) : f.wellFormed = true ↔
    f.rsv = 0#20 ∧ ∃ r ∈ opcodeRows, r.op = f.op ∧ f.ch ∈ r.chSet ∧ f.u ∈ r.uSet := by
  simp only [Fields.wellFormed, Bool.and_eq_true, List.any_eq_true, beq_iff_eq, List.contains_iff_mem, and_assoc]

/-- Each command's fields are legal, by the law of its row. -/
theorem wellFormed_encodeFields : ∀ i : Instr, (encodeFields i).wellFormed = true
  | .nop sel => (Laws.LegalEncoding.nop sel).1
  | .dlInit c k => (Laws.LegalEncoding.dlInit c k).1
  | .dlResize c k => (Laws.LegalEncoding.dlResize c k).1
  | .dlProcess c k => (Laws.LegalEncoding.dlProcess c k).1
  | .lfoInit c k => (Laws.LegalEncoding.lfoInit c k).1
  | .lfoValue c k => (Laws.LegalEncoding.lfoValue c k).1
  | .lfoAdvance c k => (Laws.LegalEncoding.lfoAdvance c k).1
  | .lfoSetRate c k => (Laws.LegalEncoding.lfoSetRate c k).1
  | .fbResize c => (Laws.LegalEncoding.fbResize c).1
  | .fbRead c => (Laws.LegalEncoding.fbRead c).1
  | .fbPush c => (Laws.LegalEncoding.fbPush c).1
  | .engSetSampleRate sel => (Laws.LegalEncoding.engSetSampleRate sel).1
  | .engProcess c => (Laws.LegalEncoding.engProcess c).1
  | .stProcess => Laws.LegalEncoding.stProcess.1
  | .csrRead sel => (Laws.LegalEncoding.csrRead sel).1
  | .csrWrite sel => (Laws.LegalEncoding.csrWrite sel).1
  | .memPeek c u => (Laws.LegalEncoding.memPeek c u).1

/-- The CH set 01, 10 holds codes of single channels only (30_encoding.md R56). -/
theorem exists_code_of_mem_oneChannel : ∀ ch ∈ oneChannel, ∃ c : Channel, c.code = ch := by
  simp only [oneChannel, List.forall_mem_cons]
  exact ⟨⟨.left, rfl⟩, ⟨.right, rfl⟩, nofun⟩

/-- The CH set 01, 10, 11 holds codes of selections only (30_encoding.md R56). -/
theorem exists_code_of_mem_anyChannel : ∀ ch ∈ anyChannel, ∃ sel : ChSel, sel.code = ch := by
  simp only [anyChannel, List.forall_mem_cons]
  exact ⟨⟨.one .left, rfl⟩, ⟨.one .right, rfl⟩, ⟨.both, rfl⟩, nofun⟩

/-- The U set 0, 1, 2 holds codes of units only (30_encoding.md R57). -/
theorem exists_code_of_mem_unitSet : ∀ u ∈ unitSet, ∃ k : Tap, k.code = u := by
  simp only [unitSet, List.forall_mem_cons]
  exact ⟨⟨.tap0, rfl⟩, ⟨.tap1, rfl⟩, ⟨.tap2, rfl⟩, nofun⟩

/-- Every CH and U that a row admits makes the fields of a command. -/
def Row.Covered (r : Row) : Prop :=
  ∀ ch ∈ r.chSet, ∀ u ∈ r.uSet, ∃ i, encodeFields i = ⟨r.op, u, ch, 0#20⟩

namespace Row.Covered

variable {name : String} {op : BitVec 8}

theorem channelTap (mk : Channel → Tap → Instr)
    (hmk : ∀ c k, encodeFields (mk c k) = ⟨op, k.code, c.code, 0#20⟩) :
    Covered ⟨name, op, oneChannel, unitSet⟩ := by
  intro ch hch u hu
  obtain ⟨c, rfl⟩ := exists_code_of_mem_oneChannel ch hch
  obtain ⟨k, rfl⟩ := exists_code_of_mem_unitSet u hu
  exact ⟨mk c k, hmk c k⟩

theorem channel (mk : Channel → Instr)
    (hmk : ∀ c, encodeFields (mk c) = ⟨op, 0#2, c.code, 0#20⟩) : Covered ⟨name, op, oneChannel, [0#2]⟩ := by
  intro ch hch u hu
  obtain ⟨c, rfl⟩ := exists_code_of_mem_oneChannel ch hch
  obtain rfl := List.mem_singleton.1 hu
  exact ⟨mk c, hmk c⟩

theorem chSel (mk : ChSel → Instr)
    (hmk : ∀ sel, encodeFields (mk sel) = ⟨op, 0#2, sel.code, 0#20⟩) :
    Covered ⟨name, op, anyChannel, [0#2]⟩ := by
  intro ch hch u hu
  obtain ⟨sel, rfl⟩ := exists_code_of_mem_anyChannel ch hch
  obtain rfl := List.mem_singleton.1 hu
  exact ⟨mk sel, hmk sel⟩

theorem stProcess : Covered ⟨name, 0x32#8, [3#2], [0#2]⟩ := by
  intro ch hch u hu
  obtain rfl := List.mem_singleton.1 hch
  obtain rfl := List.mem_singleton.1 hu
  exact ⟨.stProcess, rfl⟩

theorem memPeek : Covered ⟨name, 0x42#8, oneChannel, [0#2, 1#2, 2#2, 3#2]⟩ := by
  intro ch hch u _
  obtain ⟨c, rfl⟩ := exists_code_of_mem_oneChannel ch hch
  exact ⟨.memPeek c (peekUnitOfCode u), by rw [encodeFields, peekUnitOfCode_eq]⟩

end Row.Covered

/-- The rows in the order of the table (30_encoding.md R59). -/
theorem opcodeRows_covered : ∀ r ∈ opcodeRows, r.Covered := by
  simp only [opcodeRows, List.forall_mem_cons]
  exact ⟨.chSel .nop fun _ => rfl,
    .channelTap .dlInit fun _ _ => rfl,
    .channelTap .dlResize fun _ _ => rfl,
    .channelTap .dlProcess fun _ _ => rfl,
    .channelTap .lfoInit fun _ _ => rfl,
    .channelTap .lfoValue fun _ _ => rfl,
    .channelTap .lfoAdvance fun _ _ => rfl,
    .channelTap .lfoSetRate fun _ _ => rfl,
    .channel .fbResize fun _ => rfl,
    .channel .fbRead fun _ => rfl,
    .channel .fbPush fun _ => rfl,
    .chSel .engSetSampleRate fun _ => rfl,
    .channel .engProcess fun _ => rfl,
    .stProcess,
    .chSel .csrRead fun _ => rfl,
    .chSel .csrWrite fun _ => rfl,
    .memPeek, nofun⟩

/-- The fields of commands are exactly the legal ones. -/
theorem exists_encodeFields_iff_wellFormed (f : Fields) :
    (∃ i, f = encodeFields i) ↔ f.wellFormed = true := by
  constructor
  · rintro ⟨i, rfl⟩
    exact wellFormed_encodeFields i
  · intro h
    obtain ⟨hrsv, r, hr, hop, hch, hu⟩ := f.wellFormed_iff.1 h
    obtain ⟨i, hi⟩ := opcodeRows_covered r hr f.ch hch f.u hu
    exact ⟨i, by rw [hi, hop, ← hrsv]⟩

/-- Settles O3: a word is legal exactly when its fields are well formed. -/
theorem decodeAcceptsExactlyTheTable : Obligations.DecodeAcceptsExactlyTheTable := by
  intro w
  simp only [decode_eq_ok_iff_fields, exists_encodeFields_iff_wellFormed, Fields.wellFormed_iff]
  exact Iff.rfl

end Sys2Proof

namespace Sys2Proof.Machine

/-! Writes to CMD (30_encoding.md R60, 60_exceptions.md R134) -/

theorem writeCmd_of_decode_ok {w : Word} {i : Instr} (h : decode w = .ok i) (s : State) :
    writeCmd w s = exec i (s.setCmd w) := by
  rw [writeCmd_eq, h]

theorem writeCmd_of_decode_error {w : Word} {e : DecodeError} (h : decode w = .error e) (s : State) :
    writeCmd w s = illegalCommand w (s.setCmd w) := by
  rw [writeCmd_eq, h]

/-- On a block that is not halted an illegal word's fault is recorded (60_exceptions.md R132). -/
theorem illegalCommand_running (w : Word) {s : State} (h : s.faultCause = 0#32) :
    illegalCommand w s = .next (takeFault w { cause := .illegalCommand, info := w } s) := by
  have hh := (halted_false_iff s).2 h
  rw [illegalCommand, hh, raiseFault, settle_raise, hh]
  rfl

/-- On a halted block an illegal word is dropped (60_exceptions.md R135). -/
theorem illegalCommand_halted (w : Word) {s : State} (h : s.faultCause ≠ 0#32) :
    illegalCommand w s = .next s :=
  if_pos ((halted_iff s).2 h)

/-- Settles O5: the write stores the word in CMD, and then the illegal word is recorded or dropped. -/
theorem illegalWordRaisesIllegalCommand : Obligations.IllegalWordRaisesIllegalCommand := by
  intro s w e rest hp hd
  have hstep : step s = illegalCommand w ((s.setPending rest).setCmd w) :=
    (step_regWrite .cmd hp).trans (writeCmd_of_decode_error hd _)
  rw [hstep]
  exact ⟨fun hs => illegalCommand_running w hs, fun hs => illegalCommand_halted w hs⟩

/-! The accesses of a command line (30_encoding.md R62) -/

/-- A run begins with its first step. -/
theorem run_succ_of_step {s t : State} (h : step s = .next t) (k : Nat) :
    Host.Core.run core (k + 1) s = Host.Core.run core k t := by
  simp only [Host.Core.run, show core.step s = .next t from h]

/-- A step that writes a command's own word to CMD runs that command (60_exceptions.md R134). -/
theorem step_cmdWrite_encode {s : State} {i : Instr} {rest : List HostEvent}
    (h : s.host.pending = regWriteEvent .cmd (encode i) :: rest) :
    step s = exec i ((s.setPending rest).setCmd (encode i)) :=
  (step_regWrite .cmd h).trans (writeCmd_of_decode_ok ((decodeEncodeAgree _ i).2 rfl) _)

/-- The state in which a command line's three operands are stored and the events `rest` are still to come. -/
def State.withOperands (s : State) (a b c : Word) (rest : List HostEvent) : State :=
  { s.setPending rest with opa := a, opb := b, opc := c }

/-- Three steps that write the operand registers in the order of a command line store the three operands. -/
theorem run_operandWrites {s : State} {a b c : Word} {rest : List HostEvent}
    (h : s.host.pending = regWriteEvent .opa a :: regWriteEvent .opb b :: regWriteEvent .opc c :: rest) :
    Host.Core.run core 3 s = .next (s.withOperands a b c rest) := by
  rw [run_succ_of_step (step_regWrite .opa h), run_succ_of_step (step_regWrite .opb rfl),
    run_succ_of_step (step_regWrite .opc rfl)]
  rfl

/-- Settles O13: the three operand writes, and then the write of the command word. -/
theorem commandLineRunsItsCommand : Obligations.CommandLineRunsItsCommand := by
  intro s i a b c rest h
  refine ⟨_, run_operandWrites h, rfl, ?_⟩
  exact step_cmdWrite_encode (rest := rest) rfl

end Sys2Proof.Machine
end

section
/-! The delay lines of 41_delay_line.md: the allocation of a unit (R70 to R72), one call of DL_PROCESS (R73, R74), and
the lag of a read over a history of calls (R75). -/

namespace Sys2Proof.Machine

/-! A command that raises (60_exceptions.md R132) -/

/-- A fault that a command raises by itself names the channel and the unit of its own word. -/
theorem takeFault_encode (i : Instr) (cause : Cause) (info : Word) (s : State) :
    takeFault (encode i) { cause := cause, info := info } s =
      s.withFault (causeCode cause) info (encode i) (encodeFields i).ch (encodeFields i).u := by
  rw [← fieldsOf_encode i]
  rfl

theorem exec_raiseFault {i : Instr} {s : State} {cause : Cause} {info : Word} (hs : s.faultCause = 0#32)
    (h : commandBody i s = raiseFault cause info) :
    exec i s =
      .next (s.withFault (causeCode cause) info (encode i) (encodeFields i).ch (encodeFields i).u) := by
  rw [exec_raise hs h, takeFault_encode]

/-! Allocation (41_delay_line.md R70 to R72) -/

/-- A word that is read as an unsigned integer saturates to itself (00_scope.md R12). -/
theorem sat32_toNat (w : Word) : sat32 w.toNat = w := by
  have hw := w.isLt
  rw [sat32, Int.toNat_natCast, min_eq_left (by omega), BitVec.ofNat_toNat, BitVec.setWidth_eq]

section

variable (c : Channel) (k : Tap) (fill : Word) {s : State}

theorem reallocDl_of_range (h1 : 1 ≤ s.opa.toNat) (h2 : s.opa.toNat ≤ Config.maxCapacity) :
    reallocDl c k fill s = .ok (s.setChan c { s.chan c with
      dl := (s.chan c).dl.set k ⟨s.opa.toNat, 0, Memory.filled s.opa.toNat fill⟩, sized := false }) := by
  rw [reallocDl, opU32, bufAlloc_of_range fill (by omega) (by omega)]
  rfl

theorem reallocDl_out_of_range (h : s.opa.toNat = 0 ∨ Config.maxCapacity < s.opa.toNat) :
    reallocDl c k fill s = raiseFault .capacity s.opa := by
  rw [reallocDl, opU32, bufAlloc_out_of_range fill (by omega), sat32_toNat]
  rfl

/-- An allocation neither reads nor writes OPC (41_delay_line.md R71). -/
theorem reallocDl_withOpc (s : State) (v : Word) :
    reallocDl c k fill { s with opc := v } = (reallocDl c k fill s).map ({ · with opc := v }) := by
  unfold reallocDl
  dsimp only
  cases bufAlloc Config.maxCapacity (opU32 s.opa) fill with
  | error e => rfl
  | ok r => cases c <;> rfl

end

/-- Settles O28: the allocation of the delay line with the fill word OPB. -/
theorem dlInitAllocates : Obligations.DlInitAllocates := by
  intro c k s hs
  refine ⟨rfl, fun h1 h2 => ?_, fun h =>
    exec_raiseFault (i := .dlInit c k) hs (reallocDl_out_of_range c k s.opb h)⟩
  have hbody := reallocDl_of_range c k s.opb h1 h2
  refine ⟨_, exec_ok hs hbody, fun v => ?_, rfl, rfl, fun i hi => Memory.read_filled s.opb hi⟩
  exact exec_ok hs ((reallocDl_withOpc c k s.opb s v).trans (congrArg _ hbody))

/-- Settles O29: the allocation of the delay line with the fill word +0.0. -/
theorem dlResizeClears : Obligations.DlResizeClears := by
  intro c k s hs
  refine ⟨rfl, fun h1 h2 => ?_, fun h =>
    exec_raiseFault (i := .dlResize c k) hs (reallocDl_out_of_range c k 0#32 h)⟩
  exact ⟨_, exec_ok hs (reallocDl_of_range c k 0#32 h1 h2), rfl, rfl,
    fun i hi => Memory.read_filled 0#32 hi⟩

/-! One call (41_delay_line.md R73, R74) -/

section

variable (c : Channel) (k : Tap) {s : State}

theorem processDl_of_range (hd : s.opb.toNat < ((s.chan c).dl.get k).cap)
    (hwc : ((s.chan c).dl.get k).wc < ((s.chan c).dl.get k).cap) :
    processDl c k s = .ok ((s.setChan c ((s.chan c).setDl k (((s.chan c).dl.get k).push s.opa))).setRes0
      ((((s.chan c).dl.get k).push s.opa).lookback s.opb.toNat)) := by
  unfold processDl opU32
  rw [if_neg (by omega), checkCursor_of_lt hwc]
  rfl

theorem processDl_out_of_range (hd : ((s.chan c).dl.get k).cap ≤ s.opb.toNat) :
    processDl c k s = raiseFault .delayRange s.opb :=
  if_pos hd

end

/-- Settles O30: the completing call pushes OPA and looks back behind the advanced cursor. -/
theorem dlProcessWritesAndReads : Obligations.DlProcessWritesAndReads := by
  rintro c k s r hs rfl
  refine ⟨rfl, fun hd hwc hwf => ?_, fun hd =>
    exec_raiseFault (i := .dlProcess c k) hs (processDl_out_of_range c k hd)⟩
  exact ⟨_, _, exec_ok hs (processDl_of_range c k hd hwc), rfl, rfl, rfl,
    fun i => Memory.read_write hwf _ i _⟩

/-! The lag of a read (41_delay_line.md R75) -/

section

variable {r : Ring}

/-- Behind the advanced cursor lies what the push left at and behind the cursor before it. -/
theorem Ring.lookback_push_succ (x : Word) (j : Nat) :
    (r.push x).lookback ((j + 1 : Nat) : Int) =
      Memory.read (Memory.write r.buf r.wc x) (((r.wc : Int) - j) % (r.cap : Int)).toNat := by
  have hindex : (((r.wc + 1) % r.cap : Nat) : Int) - ((j + 1 : Nat) : Int) =
      ((r.wc : Int) + 1) % (r.cap : Int) - ((j : Int) + 1) := by push_cast; rfl
  rw [Ring.lookback, Ring.push_wc, Ring.push_cap, Ring.push_buf, hindex, Int.emod_sub_emod,
    add_sub_add_right_eq_sub]

/-- The newest word lies one slot behind the cursor. -/
theorem Ring.lookback_push_one (hwc : r.wc < r.cap) (hwf : Memory.wf r.buf) (x : Word) :
    (r.push x).lookback 1 = x := by
  have hindex : (((r.wc : Int) - (0 : Nat)) % (r.cap : Int)).toNat = r.wc := by
    rw [Nat.cast_zero, sub_zero, ← Int.natCast_emod, Int.toNat_natCast, Nat.mod_eq_of_lt hwc]
  rw [show (1 : Int) = ((0 + 1 : Nat) : Int) from rfl, Ring.lookback_push_succ, hindex,
    Memory.read_write_same hwf]

/-- A push moves each older word one slot further behind the cursor. -/
theorem Ring.lookback_push_older (x : Word) {j : Nat} (h1 : 1 ≤ j) (h2 : j < r.cap) :
    (r.push x).lookback ((j + 1 : Nat) : Int) = r.lookback j := by
  have hindex : (((r.wc : Int) - j) % (r.cap : Int)).toNat ≠ r.wc := by
    intro heq
    have hnonneg := Int.emod_nonneg ((r.wc : Int) - j) (by omega : (r.cap : Int) ≠ 0)
    have hmod : ((r.wc : Int) - j) % (r.cap : Int) = r.wc := by omega
    have hdvd : (r.cap : Int) ∣ j := by
      simpa only [sub_sub_cancel_left, Int.dvd_neg] using Int.dvd_self_sub_of_emod_eq hmod
    exact Nat.not_le_of_lt h2 (Nat.le_of_dvd h1 (Int.natCast_dvd_natCast.1 hdvd))
  rw [Ring.lookback_push_succ, Memory.read_write_other _ _ hindex, Ring.lookback]

/-- No slot behind the cursor is the oldest one, a whole buffer behind it. -/
theorem Ring.lookback_zero (r : Ring) : r.lookback 0 = r.lookback r.cap := by
  rw [Ring.lookback, Ring.lookback, sub_zero, Int.sub_emod_right]

end

/-- The unit holds a history of words, newest first: each of its slots the word pushed that many calls ago, and the
fill word where there were not so many. -/
structure Ring.Holds (r : Ring) (fill : Word) (history : List Word) : Prop where
  cursor : r.wc < r.cap
  canonical : Memory.wf r.buf
  slots : ∀ j < r.cap, r.lookback ((j + 1 : Nat) : Int) = history.getD j fill

namespace Ring.Holds

variable {r : Ring} {fill : Word} {history : List Word}

/-- A fresh unit has no history (41_delay_line.md R70). -/
theorem of_bufAlloc {maxCap : Nat} {cap : Int} (h : bufAlloc maxCap cap fill = .ok r) : r.Holds fill [] := by
  obtain ⟨h1, -, rfl⟩ := bufAlloc_ok h
  refine ⟨by show 0 < cap.toNat; omega, Memory.wf_filled _ _, fun j _ => ?_⟩
  exact Memory.read_filled _ (Ring.lookback_index_lt (by show 1 ≤ cap.toNat; omega) _)

/-- A push puts its word in front of the history (41_delay_line.md R73). -/
theorem push (h : r.Holds fill history) (x : Word) : (r.push x).Holds fill (x :: history) := by
  obtain ⟨hwc, hwf, hslots⟩ := h
  refine ⟨Nat.mod_lt _ (by show 0 < r.cap; omega), Memory.wf_write hwf _ _, fun j hj => ?_⟩
  cases j with
  | zero => exact Ring.lookback_push_one hwc hwf x
  | succ j => exact (Ring.lookback_push_older (r := r) x (by omega) hj).trans (hslots j (Nat.lt_of_succ_lt hj))

/-- After a run of pushes the history is what was pushed, last first. -/
theorem foldl_push (h : r.Holds fill history) (xs : List Word) :
    (xs.foldl Ring.push r).Holds fill (xs.reverse ++ history) := by
  induction xs generalizing r history with
  | nil => exact h
  | cons x xs ih => simpa using ih (h.push x)

end Ring.Holds

theorem Ring.foldl_push_cap (xs : List Word) (r : Ring) : (xs.foldl Ring.push r).cap = r.cap := by
  induction xs generalizing r with
  | nil => rfl
  | cons x xs ih => exact ih (r.push x)

/-- A list read backwards, below its length and past its end. -/
theorem getD_reverse_eq_ite {α : Type} (xs : List α) (x fill : α) (lag : Nat) :
    ((xs ++ [x]).reverse).getD lag fill =
      if lag ≤ xs.length then (xs ++ [x]).getD (xs.length - lag) fill else fill := by
  split
  · next h => rw [List.getD_reverse _ (by simp; omega)]; simp
  · next h => exact List.getD_eq_default _ _ (by simp; omega)

/-- A call with delay `d` reads `d - 1` slots behind the word it pushes, and `cap - 1` with `d = 0`. -/
theorem dlStep_snd_of_lag {r : Ring} {fill x : Word} {history : List Word} {d lag : Nat}
    (h : r.Holds fill history) (hd : d ≤ r.cap - 1) (hlag : lag = if d = 0 then r.cap - 1 else d - 1) :
    (dlStep r x d).2 = (x :: history).getD lag fill := by
  have hcap : 0 < r.cap := Nat.zero_lt_of_lt h.cursor
  have hslot := (h.push x).slots lag
  rw [dlStep_snd]
  split at hlag
  · next h0 =>
    rw [h0, Nat.cast_zero, Ring.lookback_zero, ← hslot (by rw [Ring.push_cap]; omega), Ring.push_cap, hlag,
      Nat.sub_add_cancel hcap]
  · rw [← hslot (by rw [Ring.push_cap]; omega), hlag, Nat.sub_add_cancel (by omega)]

/-- Settles O31: the fresh unit, the history its calls leave, and the word at the lag of the next call. -/
theorem delayLineLag : Obligations.DelayLineLag := by
  intro maxCap cap fill r0 r calls x d lag hr0 hr hd hlag
  have hpushes : r = (calls.map Prod.fst).foldl Ring.push r0 := by
    rw [hr, List.foldl_map]
    rfl
  have hcap : r.cap = cap := by
    obtain ⟨-, -, rfl⟩ := bufAlloc_ok hr0
    rw [hpushes, Ring.foldl_push_cap]
    exact Int.toNat_natCast cap
  have hholds := (Ring.Holds.of_bufAlloc hr0).foldl_push (calls.map Prod.fst)
  rw [← hpushes, List.append_nil] at hholds
  rw [← hcap] at hd hlag
  rw [dlStep_snd_of_lag hholds hd hlag, ← List.length_map (as := calls) Prod.fst, ← getD_reverse_eq_ite,
    List.reverse_append]
  rfl

end Sys2Proof.Machine
end

section
/-! The oscillators of 42_lfo.md: the checks and the effects of the four commands (R82 to R85), and the period of the
phase at an increment of a power of two (R81, R86). -/

namespace Sys2Proof.Machine

/-! Legal operands (42_lfo.md R82, R85) -/

theorem positiveFinite_iff_flt (v : F32) :
    positiveFinite v = true ↔ isFinite v = true ∧ flt f32Zero v = true :=
  Bool.and_eq_true_iff

theorem phaseLegal_iff (v : F32) :
    phaseLegal v = true ↔ isFinite v = true ∧ fle f32Zero v = true ∧ flt v f32One = true := by
  rw [phaseLegal, Bool.and_eq_true, Bool.and_eq_true, and_assoc]

/-! The commands -/

section

variable (c : Channel) (k : Tap) {s : State}

theorem initLfo_illegal_sampleRate (hsr : ¬ positiveFinite s.opa = true) :
    initLfo c k s = raiseFault .sampleRate s.opa := by
  simp [initLfo, opF32, hsr]

theorem initLfo_illegal_rate (hsr : positiveFinite s.opa = true) (hrate : ¬ positiveFinite s.opb = true) :
    initLfo c k s = raiseFault .paramRange s.opb := by
  simp [initLfo, opF32, hsr, hrate]

theorem initLfo_illegal_phase (hsr : positiveFinite s.opa = true) (hrate : positiveFinite s.opb = true)
    (hphase : ¬ phaseLegal s.opc = true) : initLfo c k s = raiseFault .paramRange s.opc := by
  simp [initLfo, opF32, hsr, hrate, hphase]

theorem initLfo_legal (hsr : positiveFinite s.opa = true) (hrate : positiveFinite s.opb = true)
    (hphase : phaseLegal s.opc = true) :
    initLfo c k s = .ok (s.setChan c ((s.chan c).setLfo k
      ⟨if s.opc = f32NegZero then f32Zero else s.opc, some s.opb, s.opa⟩)) := by
  simp only [initLfo, opF32, hsr, hrate, hphase]
  rfl

theorem advanceLfo_unset (hset : ((s.chan c).lfo.get k).rate = none) :
    advanceLfo c k s = raiseFault .unset 0#32 := by
  rw [advanceLfo, lfoAdvance, hset]
  rfl

section

variable {rate : F32} (hset : ((s.chan c).lfo.get k).rate = some rate)
include hset

theorem advanceLfo_overflow (h : isFinite (advancedPhase ((s.chan c).lfo.get k) rate) = false) :
    advanceLfo c k s = raiseFault .paramRange rate := by
  simp only [advanceLfo, lfoAdvance, hset, h]
  rfl

theorem advanceLfo_finite (h : isFinite (advancedPhase ((s.chan c).lfo.get k) rate) = true) :
    advanceLfo c k s = .ok (s.setChan c ((s.chan c).setLfo k (lfoStep ((s.chan c).lfo.get k) rate))) := by
  simp only [advanceLfo, lfoAdvance, hset, h]
  rfl

end

theorem setLfoRate_illegal (hrate : ¬ positiveFinite s.opa = true) :
    setLfoRate c k s = raiseFault .paramRange s.opa := by
  simp [setLfoRate, opF32, hrate]

theorem setLfoRate_legal (hrate : positiveFinite s.opa = true) :
    setLfoRate c k s =
      .ok (s.setChan c ((s.chan c).setLfo k { (s.chan c).lfo.get k with rate := some s.opa })) := by
  simp [setLfoRate, opF32, hrate]

end

/-- Settles O32: the outcome follows the first check that fails. -/
theorem lfoInitSetsTheUnit : Obligations.LfoInitSetsTheUnit := by
  rintro c k s _ _ _ hs rfl rfl rfl
  refine ⟨rfl, ?_⟩
  simp only [← positiveFinite_iff_flt, ← phaseLegal_iff]
  split
  · next hsr => exact exec_raiseFault (i := .lfoInit c k) hs (initLfo_illegal_sampleRate c k hsr)
  next hsr =>
  rw [not_not] at hsr
  split
  · next hrate => exact exec_raiseFault (i := .lfoInit c k) hs (initLfo_illegal_rate c k hsr hrate)
  next hrate =>
  rw [not_not] at hrate
  split
  · next hphase => exact exec_raiseFault (i := .lfoInit c k) hs (initLfo_illegal_phase c k hsr hrate hphase)
  next hphase => exact exec_ok hs (initLfo_legal c k hsr hrate (not_not.1 hphase))

/-- Settles O33: the body of LFO_VALUE makes no check. -/
theorem lfoValueReadsTheSinusoid : Obligations.LfoValueReadsTheSinusoid :=
  fun c k _ hs => ⟨rfl, exec_ok (i := .lfoValue c k) hs rfl⟩

/-- Settles O34: no rate, a sum that is not finite, and a finite sum. -/
theorem lfoAdvanceMovesThePhase : Obligations.LfoAdvanceMovesThePhase := by
  rintro c k s _ hs rfl
  refine ⟨rfl, fun hset => ?_, fun rate hset h => ?_, fun rate hset h => ?_⟩
  · exact exec_raiseFault (i := .lfoAdvance c k) hs (advanceLfo_unset c k hset)
  · exact exec_raiseFault (i := .lfoAdvance c k) hs (advanceLfo_overflow c k hset h)
  · exact exec_ok hs (advanceLfo_finite c k hset h)

/-- Settles O35: a legal rate is stored, and an illegal one is raised. -/
theorem lfoSetRateKeepsThePhase : Obligations.LfoSetRateKeepsThePhase := by
  rintro c k s _ hs rfl
  rw [← positiveFinite_iff_flt]
  exact ⟨rfl, fun hrate => exec_ok hs (setLfoRate_legal c k hrate),
    fun hrate => exec_raiseFault (i := .lfoSetRate c k) hs (setLfoRate_illegal c k hrate)⟩

/-! The period of the phase (42_lfo.md R86) -/

/-- A multiple of a power of two needs no rounding up to 2^24 of them: 2^24 itself is one bit at a larger
exponent (00_scope.md R14). -/
theorem roundUnits_multiple {a : Int} {e : Nat} (h0 : 0 ≤ a) (ha : a ≤ 2 ^ 24) (he : e ≤ 149) :
    isFinite (roundUnits false (a * 2 ^ e)) = true ∧ scaled (roundUnits false (a * 2 ^ e)) = a * 2 ^ e := by
  obtain ⟨m, k, hm, hk, hmag⟩ : ∃ m k : Nat, m < 2 ^ 24 ∧ k ≤ 253 ∧ (a * 2 ^ e).natAbs = m * 2 ^ k := by
    rw [Int.natAbs_mul, Int.natAbs_pow]
    rcases ha.lt_or_eq with hlt | rfl
    · exact ⟨a.natAbs, e, by omega, by omega, rfl⟩
    · exact ⟨1, 24 + e, by decide, by omega, by rw [one_mul, Nat.pow_add]; rfl⟩
  obtain ⟨hfin, hval, -⟩ := roundUnits_exact (b := false) hm hk hmag
  exact ⟨hfin, hval⟩

/-- The units of 1 are 2^n increments of 2^-n. -/
theorem two_pow_mul_increment {n : Nat} (hn : n ≤ 24) : (2 : Int) ^ 149 = 2 ^ n * 2 ^ (149 - n) := by
  rw [← pow_add, Nat.add_sub_cancel' (by omega)]

/-- Advances change the phase alone, so the LFO is back at its start when the phase is. -/
theorem lfoStep_iterate_eq_iff (l : Lfo) (rate : F32) (j : Nat) :
    (lfoStep · rate)^[j] l = l ↔ ((lfoStep · rate)^[j] l).phase = l.phase := by
  have hkeep : ∃ p, (lfoStep · rate)^[j] l = { l with phase := p } := by
    induction j with
    | zero => exact ⟨l.phase, rfl⟩
    | succ j ih =>
      obtain ⟨p, hp⟩ := ih
      rw [Function.iterate_succ_apply', hp]
      exact ⟨_, rfl⟩
  obtain ⟨p, hp⟩ := hkeep
  rw [hp]
  exact ⟨congrArg Lfo.phase, fun hphase => by rw [show p = l.phase from hphase]⟩

/-- The LFO adds exactly 2^-n at each advance, and its phase is a multiple of 2^-n in [+0.0, 1.0) (42_lfo.md
R86). -/
structure Lfo.OnGrid (l : Lfo) (rate : F32) (n : Nat) : Prop where
  exponent : n ≤ 24
  finite : isFinite (fdiv rate l.sr) = true
  increment : scaled (fdiv rate l.sr) = 2 ^ (149 - n)
  phase : Config.phaseAdmissible l.phase = true
  multiple : (2 : Int) ^ (149 - n) ∣ scaled l.phase

namespace Lfo.OnGrid

variable {l : Lfo} {rate : F32} {n : Nat} (h : l.OnGrid rate n)
include h

/-- The sum before the wrap is exact (42_lfo.md R86). -/
theorem advancedPhase_exact :
    isFinite (advancedPhase l rate) = true ∧
      scaled (advancedPhase l rate) = scaled l.phase + 2 ^ (149 - n) := by
  obtain ⟨hfin, hsign, hlt⟩ := phaseAdmissible_iff.1 h.phase
  obtain ⟨a, ha⟩ := h.multiple
  have hpos : (0 : Int) < 2 ^ (149 - n) := by positivity
  have ha0 : 0 ≤ a := nonneg_of_mul_nonneg_right (ha ▸ scaled_nonneg hsign) hpos
  have ha1 : a < 2 ^ n := by
    rw [ha, two_pow_mul_increment h.exponent, mul_comm] at hlt
    exact lt_of_mul_lt_mul_right hlt hpos.le
  have h24 : (2 : Int) ^ n ≤ 2 ^ 24 := pow_le_pow_right₀ (by decide) h.exponent
  have hsum : scaled l.phase + scaled (fdiv rate l.sr) = (a + 1) * 2 ^ (149 - n) := by
    rw [ha, h.increment, mul_comm, add_mul, one_mul]
  have hround := roundUnits_multiple (a := a + 1) (e := 149 - n) (by omega) (by omega) (by omega)
  rw [advancedPhase, fadd_finite hfin h.finite, hsign, Bool.false_and, ← h.increment, hsum]
  exact hround

/-- One advance adds one increment and wraps (42_lfo.md R81). -/
theorem lfoStep_phase :
    scaled (lfoStep l rate).phase = (scaled l.phase + 2 ^ (149 - n)) % 2 ^ 149 ∧
      Config.phaseAdmissible (lfoStep l rate).phase = true := by
  obtain ⟨hfin, hsum⟩ := h.advancedPhase_exact
  obtain ⟨-, hsign, -⟩ := phaseAdmissible_iff.1 h.phase
  have h0 : 0 ≤ scaled (advancedPhase l rate) :=
    hsum ▸ Int.add_nonneg (scaled_nonneg hsign) (by positivity)
  rw [← hsum]
  exact phaseWrapIsExact _ hfin h0

theorem advance : (lfoStep l rate).OnGrid rate n where
  exponent := h.exponent
  finite := h.finite
  increment := h.increment
  phase := h.lfoStep_phase.2
  multiple := by
    rw [h.lfoStep_phase.1, EuclideanDomain.dvd_mod_iff (pow_dvd_pow 2 (Nat.sub_le 149 n))]
    exact dvd_add h.multiple dvd_rfl

theorem iterate (j : Nat) : ((lfoStep · rate)^[j] l).OnGrid rate n := by
  induction j with
  | zero => exact h
  | succ j ih => rw [Function.iterate_succ_apply']; exact ih.advance

/-- `j` advances add `j` increments and wrap. -/
theorem scaled_iterate (j : Nat) :
    scaled ((lfoStep · rate)^[j] l).phase = (scaled l.phase + j * 2 ^ (149 - n)) % 2 ^ 149 := by
  induction j with
  | zero =>
    obtain ⟨-, hsign, hlt⟩ := phaseAdmissible_iff.1 h.phase
    rw [Nat.cast_zero, zero_mul, add_zero]
    exact (Int.emod_eq_of_lt (scaled_nonneg hsign) hlt).symm
  | succ j ih =>
    rw [Function.iterate_succ_apply', (h.iterate j).lfoStep_phase.1, ih, Int.emod_add_emod, add_assoc,
      ← add_one_mul, Nat.cast_succ]

/-- The LFO is back at its start exactly after the multiples of 2^n advances. -/
theorem iterate_eq_self_iff (j : Nat) : (lfoStep · rate)^[j] l = l ↔ 2 ^ n ∣ j := by
  obtain ⟨-, hsign, hlt⟩ := phaseAdmissible_iff.1 h.phase
  obtain ⟨-, hsign', -⟩ := phaseAdmissible_iff.1 (h.iterate j).phase
  have hstart : scaled l.phase % 2 ^ 149 = scaled l.phase := Int.emod_eq_of_lt (scaled_nonneg hsign) hlt
  calc (lfoStep · rate)^[j] l = l
      ↔ ((lfoStep · rate)^[j] l).phase = l.phase := lfoStep_iterate_eq_iff l rate j
    _ ↔ scaled ((lfoStep · rate)^[j] l).phase = scaled l.phase :=
        ⟨congrArg scaled, eq_of_scaled hsign' hsign⟩
    _ ↔ scaled l.phase + j * 2 ^ (149 - n) ≡ scaled l.phase [ZMOD 2 ^ 149] := by
        rw [h.scaled_iterate, Int.ModEq, hstart]
    _ ↔ (2 : Int) ^ n * 2 ^ (149 - n) ∣ j * 2 ^ (149 - n) := by
        rw [Int.add_modEq_left_iff, two_pow_mul_increment h.exponent]
    _ ↔ (2 : Int) ^ n ∣ j := Int.mul_dvd_mul_iff_right (by positivity)
    _ ↔ 2 ^ n ∣ j := by exact_mod_cast Iff.rfl

end Lfo.OnGrid

/-- Settles O36: the first multiple of 2^n above 0 is 2^n itself. -/
theorem powerOfTwoIncrementIsPeriodic : Obligations.PowerOfTwoIncrementIsPeriodic := by
  intro l rate n hn _ hfin hinc hphase hmultiple
  have h : l.OnGrid rate n := ⟨hn, hfin, hinc, hphase, Int.dvd_of_emod_eq_zero hmultiple⟩
  exact ⟨(h.iterate_eq_self_iff _).2 dvd_rfl,
    fun j h0 hj heq => Nat.not_dvd_of_pos_of_lt h0 hj ((h.iterate_eq_self_iff j).1 heq)⟩

end Sys2Proof.Machine
end

section
/-! The feedback buffer of 43_feedback_buffer.md: its allocation (R92), a read (R90, R93) and a push (R91, R94), and the
lag of a read over a history of pushes (R95). -/

namespace Sys2Proof.Machine

/-! The commands -/

section

variable (c : Channel) {s : State}

theorem reallocFb_of_range (h1 : 1 ≤ s.opa.toNat) (h2 : s.opa.toNat ≤ Config.maxCapacity) :
    reallocFb c s = .ok (s.setChan c { s.chan c with
      fb := ⟨s.opa.toNat, 0, Memory.filled s.opa.toNat 0#32⟩, sized := false }) := by
  rw [reallocFb, opU32, bufAlloc_of_range 0#32 (by omega) (by omega)]
  rfl

theorem reallocFb_out_of_range (h : s.opa.toNat = 0 ∨ Config.maxCapacity < s.opa.toNat) :
    reallocFb c s = raiseFault .capacity s.opa := by
  rw [reallocFb, opU32, bufAlloc_out_of_range 0#32 (by omega), sat32_toNat]
  rfl

theorem readFb_of_range (hj : s.opa.toNat < (s.chan c).fb.cap) (hwc : (s.chan c).fb.wc < (s.chan c).fb.cap) :
    readFb c s = .ok (s.setRes0 ((s.chan c).fb.lookback s.opa.toNat)) := by
  unfold readFb opU32
  rw [if_neg (by omega), checkCursor_of_lt hwc]
  rfl

theorem readFb_out_of_range (hj : (s.chan c).fb.cap ≤ s.opa.toNat) :
    readFb c s = raiseFault .fbRange s.opa :=
  if_pos hj

theorem pushFb_of_cursor (hwc : (s.chan c).fb.wc < (s.chan c).fb.cap) :
    pushFb c s = .ok (s.setChan c ((s.chan c).setFb ((s.chan c).fb.push s.opa))) := by
  unfold pushFb
  dsimp only
  rw [checkCursor_of_lt hwc]
  rfl

end

/-- Settles O37: the allocation of the feedback buffer, whose fill word is +0.0. -/
theorem fbResizeClears : Obligations.FbResizeClears := by
  intro c s hs
  refine ⟨rfl, fun h1 h2 => ?_, fun h =>
    exec_raiseFault (i := .fbResize c) hs (reallocFb_out_of_range c h)⟩
  exact ⟨_, exec_ok hs (reallocFb_of_range c h1 h2), rfl, rfl, fun i hi => Memory.read_filled 0#32 hi⟩

/-- Settles O38: the completing read looks back from the cursor, and a lookback past the buffer is raised. -/
theorem fbReadLooksBack : Obligations.FbReadLooksBack := by
  rintro c s _ hs rfl
  exact ⟨rfl, fun hj hwc => exec_ok (i := .fbRead c) hs (readFb_of_range c hj hwc),
    fun hj => exec_raiseFault (i := .fbRead c) hs (readFb_out_of_range c hj)⟩

/-- Settles O39: the command is one push of OPA, which writes at the cursor alone. -/
theorem fbPushStoresAtTheCursor : Obligations.FbPushStoresAtTheCursor := by
  rintro c s _ hs rfl
  refine ⟨rfl, fun hwc hwf => ?_⟩
  exact ⟨_, exec_ok hs (pushFb_of_cursor c hwc), rfl, rfl, fun i => Memory.read_write hwf _ i _⟩

/-! The lag of a read (43_feedback_buffer.md R95) -/

/-- A lookback of `j` reads the word pushed `j` pushes ago, and `cap` pushes ago with `j = 0`. -/
theorem Ring.Holds.lookback_of_back {r : Ring} {fill : Word} {history : List Word} {j back : Nat}
    (h : r.Holds fill history) (hj : j ≤ r.cap - 1) (hback : back = if j = 0 then r.cap else j) :
    r.lookback j = history.getD (back - 1) fill := by
  have hcap : 0 < r.cap := Nat.zero_lt_of_lt h.cursor
  have hrange : 1 ≤ back ∧ back ≤ r.cap := by split at hback <;> omega
  have hslot : r.lookback back = history.getD (back - 1) fill := by
    rw [← h.slots (back - 1) (by omega), Nat.sub_add_cancel hrange.1]
  rw [← hslot]
  split at hback
  · next h0 => rw [h0, hback, Nat.cast_zero, Ring.lookback_zero]
  · rw [hback]

/-- The element that is `back` places before the end of a list, the last one at `back = 1`. -/
theorem getD_reverse_pred_eq_ite {α : Type} (xs : List α) (fill : α) {back : Nat} (h : 1 ≤ back) :
    xs.reverse.getD (back - 1) fill =
      if back ≤ xs.length then xs.getD (xs.length - back) fill else fill := by
  split
  · rw [List.getD_reverse _ (by omega), show xs.length - 1 - (back - 1) = xs.length - back by omega]
  · exact List.getD_eq_default _ _ (by rw [List.length_reverse]; omega)

/-- Settles O40: the fresh buffer, the history its pushes leave, and the word that lies that far back. -/
theorem feedbackLag : Obligations.FeedbackLag := by
  intro maxCap cap f0 f ys j back hf0 hf hj hback
  have hpushes : f = ys.foldl Ring.push f0 := hf
  have hcap : f.cap = cap := by
    obtain ⟨-, -, rfl⟩ := bufAlloc_ok hf0
    rw [hpushes, Ring.foldl_push_cap]
    exact Int.toNat_natCast cap
  have hholds := (Ring.Holds.of_bufAlloc hf0).foldl_push ys
  rw [← hpushes, List.append_nil] at hholds
  rw [← hcap] at hj hback
  have hback1 : 1 ≤ back := by
    have hcursor := hholds.cursor
    split at hback <;> omega
  rw [fbRead, hholds.lookback_of_back hj hback, getD_reverse_pred_eq_ite ys _ hback1]

end Sys2Proof.Machine
end

section
/-! The tap offsets of 44_engine.md: the clamp of the depth (R104), the bound of an offset (R105, R111), and the
offsets with depth 0 (R112). -/

namespace Sys2Proof.Machine

/-! Magnitudes of quotients and products (00_scope.md R14, R15) -/

theorem not_isNaN_of_fle {a b : F32} (h : fle a b = true) : isNaN a = false ∧ isNaN b = false := by
  simp only [fle, Bool.and_eq_true, Bool.not_eq_true'] at h
  exact h.1

/-- A quotient by a finite value that is not zero is a NaN only where the dividend is one. -/
theorem not_isNaN_fdiv {a b : F32} (ha : isNaN a = false) (hb : isFinite b = true) (h0 : isZero b = false) :
    isNaN (fdiv a b) = false := by
  simp only [fdiv, ha, isFinite_not_isNaN hb, isFinite_not_isInf hb, h0]
  cases isInf a
  · exact isNaN_ofSignMag (roundMag_le_infMag _ _)
  · exact isNaN_ofSignMag le_rfl

/-- More units, more magnitude bits. -/
theorem scaledMag_le_iff {a b : F32} : scaledMag a ≤ scaledMag b ↔ f32Mag a ≤ f32Mag b :=
  magUnits_strictMono.le_iff_le

theorem isFinite_of_scaledMag_le {a b : F32} (hb : isFinite b = true) (h : scaledMag a ≤ scaledMag b) :
    isFinite a = true := by
  rw [isFinite_iff] at hb ⊢
  exact (scaledMag_le_iff.1 h).trans_lt hb

/-- A value is not below 0 exactly when it is a zero or has no sign. -/
theorem scaled_nonneg_iff {a : F32} : 0 ≤ scaled a ↔ f32Neg a = true → scaledMag a = 0 := by
  rw [scaled_eq_sign]
  split
  · next h => simp [h]
  · next h => simp [h]

theorem scaled_eq_scaledMag {a : F32} (h : 0 ≤ scaled a) : scaled a = scaledMag a := by
  rw [scaled_eq_sign] at h ⊢
  cases hneg : f32Neg a
  · rfl
  · simp only [hneg, if_true] at h ⊢
    omega

section

variable {a b q : F32} (ha : isFinite a = true) (hb : isFinite b = true)
include ha hb

/-- A bound of the exact quotient that is a value bounds the rounded quotient. -/
theorem scaledMag_fdiv_le (h0 : scaled b ≠ 0) (h : scaledMag a * unitsPerOne ≤ scaledMag q * scaledMag b) :
    scaledMag (fdiv a b) ≤ scaledMag q := by
  rw [scaledMag_le_iff, fdiv_finite ha hb h0, f32Mag_ofSignMag (roundMag_lt _ _)]
  exact roundMag_le (scaledMag_pos h0) h

/-- A bound of the exact product that is a value bounds the rounded product. -/
theorem scaledMag_fmul_le (h : scaledMag a * scaledMag b ≤ scaledMag q * unitsPerOne) :
    scaledMag (fmul a b) ≤ scaledMag q := by
  rw [scaledMag_le_iff, fmul_finite ha hb, f32Mag_ofSignMag (roundMag_lt _ _)]
  exact roundMag_le (by decide) h

/-- The quotient of a value that is not below 0 by a value above 0 is not below 0. -/
theorem scaled_fdiv_nonneg (h : 0 ≤ scaled a) (hpos : 0 < scaled b) : 0 ≤ scaled (fdiv a b) := by
  have hlt := roundMag_lt (scaledMag a * unitsPerOne) (scaledMag b)
  rw [scaled_nonneg_iff] at h ⊢
  rw [fdiv_finite ha hb hpos.ne', f32Neg_ofSignMag hlt, scaledMag_eq, f32Mag_ofSignMag hlt, f32Neg_of_pos hpos,
    Bool.bne_false]
  intro hneg
  rw [h hneg, zero_mul, roundMag_zero (scaledMag_pos hpos.ne'), magUnits_zero]

/-- The product of a value that is not below 0 and a value above 0 is not below 0. -/
theorem scaled_fmul_nonneg (h : 0 ≤ scaled a) (hpos : 0 < scaled b) : 0 ≤ scaled (fmul a b) := by
  have hlt := roundMag_lt (scaledMag a * scaledMag b) unitsPerOne
  rw [scaled_nonneg_iff] at h ⊢
  rw [fmul_finite ha hb, f32Neg_ofSignMag hlt, scaledMag_eq, f32Mag_ofSignMag hlt, f32Neg_of_pos hpos,
    Bool.bne_false]
  intro hneg
  rw [h hneg, zero_mul, roundMag_zero (by decide), magUnits_zero]

end

/-- The magnitude of `roundHA` is the magnitude of its argument, rounded (00_scope.md R16). -/
theorem abs_roundHA (a : F32) : |roundHA a| = ((2 * scaledMag a + unitsPerOne) / (2 * unitsPerOne) : Nat) := by
  unfold roundHA
  dsimp only
  split
  · rw [abs_neg, Nat.abs_cast]
  · rw [Nat.abs_cast]

/-- A larger magnitude is not rounded to a smaller one (00_scope.md R16). -/
theorem abs_roundHA_le {a b : F32} (h : scaledMag a ≤ scaledMag b) : |roundHA a| ≤ |roundHA b| := by
  rw [abs_roundHA, abs_roundHA]
  exact_mod_cast Nat.div_le_div_right (by omega)

theorem roundHA_nonneg {a : F32} (h : f32Neg a = false) : 0 ≤ roundHA a := by
  simp only [roundHA, h, Bool.false_eq_true, if_false]
  exact Int.natCast_nonneg _

/-! Half of the base delay (44_engine.md R104) -/

theorem not_isNaN_i2f (d : Int) : isNaN (i2f d) = false := isNaN_roundUnits _ _

theorem not_isNaN_halfDelay (d : Int) : isNaN (halfDelay d) = false :=
  not_isNaN_fdiv (not_isNaN_i2f d) (by decide) (by decide)

theorem f32Neg_i2f {d : Int} (h : 0 ≤ d) : f32Neg (i2f d) = false :=
  roundUnits_nonneg (Int.mul_nonneg h (Int.natCast_nonneg _))

theorem f32Neg_halfDelay {d : Int} (h : 0 ≤ d) : f32Neg (halfDelay d) = false := by
  rw [halfDelay, (fdiv_canonicalOrSigned _ _).sign (not_isNaN_halfDelay d), f32Neg_i2f h]
  decide

/-- A base delay of at most 2^24, divided by a small power of two, needs no rounding (44_engine.md R111). -/
theorem fdiv_i2f_exact {d : Int} (h0 : 0 ≤ d) (hd : d ≤ 2 ^ 24) {b : F32} {j : Nat} (hj : j ≤ 149)
    (hb : isFinite b = true) (hneg : f32Neg b = false) (hmag : scaledMag b = unitsPerOne * 2 ^ j) :
    isFinite (fdiv (i2f d) b) = true ∧ f32Neg (fdiv (i2f d) b) = false ∧
      (scaledMag (fdiv (i2f d) b) : Int) = d * 2 ^ (149 - j) := by
  obtain ⟨n, rfl⟩ := Int.eq_ofNat_of_zero_le h0
  have hunits : unitsPerOne = 2 ^ (149 - j) * 2 ^ j := by
    rw [← Nat.pow_add, Nat.sub_add_cancel hj]; rfl
  obtain ⟨hfin, hval⟩ := i2f_exact (n := n) (by rw [Nat.abs_cast]; exact hd)
  have hnum : scaledMag (i2f n) = n * unitsPerOne := by
    rw [scaled_eq_scaledMag (scaled_nonneg (f32Neg_i2f h0))] at hval
    exact_mod_cast hval
  obtain ⟨z, hz, hzmag⟩ : ∃ z < infMag, magUnits z = n * 2 ^ (149 - j) := by
    rcases (show n ≤ 2 ^ 24 by exact_mod_cast hd).lt_or_eq with hlt | rfl
    · exact exists_magUnits _ hlt (by omega)
    · obtain ⟨z, hz, he⟩ := exists_magUnits (m := 1) (24 + (149 - j)) (by decide) (by omega)
      exact ⟨z, hz, by rw [he, one_mul, Nat.pow_add]⟩
  have hb0 : scaled b ≠ 0 := by
    rw [scaled_eq_scaledMag (scaled_nonneg hneg), hmag]
    exact_mod_cast (Nat.mul_pos (by decide) (Nat.two_pow_pos j)).ne'
  have hquot : fdiv (i2f n) b = ofSignMag false z := by
    have hexact : n * unitsPerOne * unitsPerOne = magUnits z * (unitsPerOne * 2 ^ j) := by
      rw [hzmag]
      conv_lhs => rw [hunits]
      conv_rhs => rw [hunits]
      ring
    rw [fdiv_finite hfin hb hb0, f32Neg_i2f h0, hneg, hnum, hmag, hexact,
      roundMag_exact (Nat.mul_pos (by decide) (Nat.two_pow_pos j)) hz.le]
    rfl
  have hz31 : z < 2 ^ 31 := hz.trans (by decide)
  rw [hquot, isFinite_iff, f32Neg_ofSignMag hz31, scaledMag_eq, f32Mag_ofSignMag hz31, hzmag]
  exact ⟨hz, rfl, by push_cast; rfl⟩

/-! The clamp (44_engine.md R104) -/

theorem fle_refl {a : F32} (h : isNaN a = false) : fle a a = true := (fle_iff h h).2 le_rfl

/-- A minimum is at most its second operand, unless that one is a NaN (00_scope.md R15). -/
theorem fmin_le_right {a b : F32} (hb : isNaN b = false) : fle (fmin a b) b = true := by
  unfold fmin
  split
  · next h => exact h
  · exact fle_refl hb

theorem depthClamp_le_halfDelay (p : Snapshot) (sr : F32) (d : Int) :
    fle (depthClamp p sr d) (halfDelay d) = true :=
  fmin_le_right (not_isNaN_halfDelay d)

/-- Settles O47: the minimum by its definition, and its bound because a half is never a NaN. -/
theorem depthClampHolds : Obligations.DepthClampHolds :=
  fun p sr d => ⟨rfl, depthClamp_le_halfDelay p sr d⟩

section

variable {p : Snapshot} {sr : F32} {d : Int} (hsr : positiveFinite sr = true)
include hsr

/-- The depth in samples is not below 0, and a depth of 0 stays a zero (44_engine.md R104). -/
theorem depthProduct_bounds (hfin : isFinite p.depthMs = true) (h0 : 0 ≤ scaled p.depthMs) :
    isNaN (fmul (fdiv p.depthMs f32Thousand) sr) = false ∧
      0 ≤ scaled (fmul (fdiv p.depthMs f32Thousand) sr) ∧
      (scaledMag p.depthMs = 0 → scaledMag (fmul (fdiv p.depthMs f32Thousand) sr) = 0) := by
  obtain ⟨hsrFin, hsrPos⟩ := positiveFinite_iff.1 hsr
  obtain ⟨htFin, htPos, htOne⟩ : isFinite f32Thousand = true ∧ 0 < scaled f32Thousand ∧
      unitsPerOne ≤ scaledMag f32Thousand := by decide +kernel
  have hquot : scaledMag (fdiv p.depthMs f32Thousand) ≤ scaledMag p.depthMs :=
    scaledMag_fdiv_le hfin htFin htPos.ne' (Nat.mul_le_mul_left _ htOne)
  have hquotFin := isFinite_of_scaledMag_le hfin hquot
  refine ⟨?_, scaled_fmul_nonneg hquotFin hsrFin (scaled_fdiv_nonneg hfin htFin h0 htPos) hsrPos, fun hz => ?_⟩
  · rw [fmul_finite hquotFin hsrFin]
    exact isNaN_ofSignMag (roundMag_le_infMag _ _)
  · have hq0 : scaledMag (fdiv p.depthMs f32Thousand) = 0 := by omega
    have hle := scaledMag_fmul_le (q := f32Zero) hquotFin hsrFin (by rw [hq0, zero_mul]; exact Nat.zero_le _)
    exact Nat.le_zero.1 hle

/-- The clamped depth lies between 0 and half of the base delay (44_engine.md R104). -/
theorem scaledMag_depthClamp_le (hfin : isFinite p.depthMs = true) (h0 : 0 ≤ scaled p.depthMs) (hd : 0 ≤ d) :
    scaledMag (depthClamp p sr d) ≤ scaledMag (halfDelay d) := by
  obtain ⟨-, hprod, -⟩ := depthProduct_bounds (p := p) hsr hfin h0
  have hhalf := scaled_nonneg (f32Neg_halfDelay hd)
  have hclamp : 0 ≤ scaled (depthClamp p sr d) := by
    unfold depthClamp fmin
    split
    · exact hprod
    · exact hhalf
  have hle := depthClamp_le_halfDelay p sr d
  rw [fle_iff (not_isNaN_of_fle hle).1 (not_isNaN_halfDelay d), scaled_eq_scaledMag hclamp,
    scaled_eq_scaledMag hhalf] at hle
  exact_mod_cast hle

/-- With depth 0 the clamped depth is a zero (44_engine.md R112). -/
theorem scaledMag_depthClamp_of_zero (hz : scaledMag p.depthMs = 0) (hd : 0 ≤ d) :
    scaledMag (depthClamp p sr d) = 0 := by
  have hfin : isFinite p.depthMs = true :=
    isFinite_of_scaledMag_le (b := f32Zero) (by decide) (by rw [hz]; exact Nat.zero_le _)
  obtain ⟨hnum, hprod, hprodZero⟩ := depthProduct_bounds hsr hfin (scaled_nonneg_iff.2 fun _ => hz)
  have hle : fle (fmul (fdiv p.depthMs f32Thousand) sr) (halfDelay d) = true := by
    rw [fle_iff hnum (not_isNaN_halfDelay d), scaled_eq_scaledMag hprod, hprodZero hz]
    exact scaled_nonneg (f32Neg_halfDelay hd)
  rw [depthClamp, fmin, if_pos hle]
  exact hprodZero hz

end

/-! The offsets (44_engine.md R105, R111, R112) -/

/-- On a phase SIN2PI is a finite value of magnitude at most 1 (00_scope.md R10). -/
theorem lfoValue_bounds {l : Lfo} (h : Config.phaseAdmissible l.phase = true) :
    isFinite (lfoValue l) = true ∧ scaledMag (lfoValue l) ≤ unitsPerOne := by
  simp only [Config.phaseAdmissible, Bool.and_eq_true] at h
  obtain ⟨⟨hlow, hhigh⟩, -⟩ := h
  obtain ⟨hge, hle⟩ : Config.SinusoidBounded (lfoValue l) := Config.sin2pi_bounded hlow hhigh
  have hnum := (not_isNaN_of_fle hle).1
  obtain ⟨hpos, hneg, hmag⟩ : scaled f32One = unitsPerOne ∧ scaled 0xBF800000#32 = -(unitsPerOne : Int) ∧
      scaledMag f32One = unitsPerOne := by decide +kernel
  rw [fle_iff (by decide) hnum, hneg] at hge
  rw [fle_iff hnum (by decide), hpos] at hle
  have hbound : scaledMag (lfoValue l) ≤ unitsPerOne := by
    have habs : |scaled (lfoValue l)| ≤ unitsPerOne := abs_le.2 ⟨hge, hle⟩
    rw [Int.abs_eq_natAbs, natAbs_scaled] at habs
    exact_mod_cast habs
  exact ⟨isFinite_of_scaledMag_le (b := f32One) (by decide) (hmag ▸ hbound), hbound⟩

/-- An offset is at most the rounding of any value that is at least half of the clamped depth. -/
theorem abs_tapOffset_le {l : Lfo} {cd q : F32} (hphase : Config.phaseAdmissible l.phase = true)
    (hcd : isFinite cd = true) (hq : scaledMag cd ≤ 2 * scaledMag q) : |tapOffset l cd| ≤ |roundHA q| := by
  obtain ⟨hvFin, hv⟩ := lfoValue_bounds hphase
  have hprod : scaledMag (fmul (lfoValue l) cd) ≤ scaledMag cd :=
    scaledMag_fmul_le hvFin hcd (by rw [Nat.mul_comm]; exact Nat.mul_le_mul_left _ hv)
  obtain ⟨htwoFin, htwoNe, htwoMag⟩ : isFinite f32Two = true ∧ scaled f32Two ≠ 0 ∧
      scaledMag f32Two = 2 * unitsPerOne := by decide +kernel
  refine abs_roundHA_le (scaledMag_fdiv_le (isFinite_of_scaledMag_le hcd hprod) htwoFin htwoNe ?_)
  calc scaledMag (fmul (lfoValue l) cd) * unitsPerOne
      ≤ 2 * scaledMag q * unitsPerOne := Nat.mul_le_mul_right _ (hprod.trans hq)
    _ = scaledMag q * scaledMag f32Two := by rw [htwoMag]; ring

/-- A legal depth is a finite value that is not below 0 (10_state.md R29). -/
theorem paramLegal_depthMs {v : F32} (h : paramLegal .depthMs v = true) : isFinite v = true ∧ 0 ≤ scaled v := by
  obtain ⟨hfin, hle⟩ := Bool.and_eq_true_iff.1 h
  exact ⟨hfin, (fle_iff (by decide) (isFinite_not_isNaN hfin)).1 hle⟩

/-- A quarter of a whole number, rounded, is not above it. -/
theorem roundHA_quarter_le {a : F32} {d : Int} (h : (scaledMag a : Int) = d * 2 ^ 147) : |roundHA a| ≤ d := by
  have hunits : unitsPerOne = 2 ^ 149 := rfl
  rw [abs_roundHA, hunits]
  omega

/-- Settles O48: the clamped depth is at most half of `D`, the offset at most the rounding of half of that, and both
quotients of `D` are exact. -/
theorem tapOffsetsAreBounded : Obligations.TapOffsetsAreBounded := by
  intro p sr l d hdepth hsr hphase h0 hd
  obtain ⟨hfin, hnonneg⟩ := paramLegal_depthMs hdepth
  obtain ⟨hhalfFin, -, hhalf⟩ : isFinite (halfDelay d) = true ∧ f32Neg (halfDelay d) = false ∧
      (scaledMag (halfDelay d) : Int) = d * 2 ^ 148 :=
    fdiv_i2f_exact h0 hd (j := 1) (by decide) (by decide) (by decide) (by decide +kernel)
  obtain ⟨-, hneg, hquarter⟩ := fdiv_i2f_exact (b := 0x40800000#32) h0 hd (j := 2) (by decide) (by decide)
    (by decide) (by decide +kernel)
  have hclamp := scaledMag_depthClamp_le hsr hfin hnonneg h0
  have hoffset := abs_tapOffset_le (q := fdiv (i2f d) 0x40800000#32) hphase
    (isFinite_of_scaledMag_le hhalfFin hclamp) (by omega)
  have hle := roundHA_quarter_le hquarter
  rw [abs_of_nonneg (roundHA_nonneg hneg)] at hoffset hle
  have hlow := (abs_le.1 hoffset).1
  exact ⟨hoffset, hle, by omega⟩

/-- Settles O49: half of a zero is a zero, and so is its rounding. -/
theorem zeroDepthGivesEqualTaps : Obligations.ZeroDepthGivesEqualTaps := by
  intro p sr l d hdepth hsr hphase h0
  have hz : scaledMag p.depthMs = 0 := by rcases hdepth with h | h <;> rw [h] <;> decide
  have hclamp := scaledMag_depthClamp_of_zero (p := p) (d := d) hsr hz h0
  have hzero : |tapOffset l (depthClamp p sr d)| ≤ |roundHA f32Zero| :=
    abs_tapOffset_le hphase (isFinite_of_scaledMag_le (b := f32Zero) (by decide) (by omega)) (by omega)
  have hoffset : tapOffset l (depthClamp p sr d) = 0 :=
    abs_eq_zero.1 (le_antisymm (hzero.trans_eq (by decide +kernel)) (abs_nonneg _))
  exact ⟨hoffset, by rw [hoffset, add_zero]⟩

end Sys2Proof.Machine
end

section
/-! The channel engine of 44_engine.md: the sizes (R100), one sample and its faults in their order (R101 to R109), and
the stereo frame (R110, R114). -/

namespace Sys2Proof.Machine

/-! ENG_SET_SAMPLE_RATE (44_engine.md R100) -/

/-- The ceiling of a value above 0 is at least 1 (00_scope.md R18). -/
theorem one_le_ceilInt {v : F32} (h : positiveFinite v = true) : 1 ≤ ceilInt v := by
  obtain ⟨-, hpos⟩ := positiveFinite_iff.1 h
  by_contra hlt
  have hle := (ceilInt_le_iff v 0).1 (by omega)
  omega

section

variable (sel : ChSel) {s : State}

theorem setSampleRate_illegal (h : ¬ positiveFinite s.opa = true) :
    setSampleRate sel s = raiseFault .sampleRate s.opa := by
  simp [setSampleRate, opF32, h]

theorem setSampleRate_over_capacity (h : positiveFinite s.opa = true)
    (hcap : (Config.maxCapacity : Int) < ceilInt s.opa) :
    setSampleRate sel s = raiseFault .capacity (sat32 (ceilInt s.opa)) := by
  simp [setSampleRate, opF32, h, bufAlloc_out_of_range 0#32 (.inr hcap), raiseFault]

theorem setSampleRate_of_range (h : positiveFinite s.opa = true)
    (hcap : ceilInt s.opa ≤ (Config.maxCapacity : Int)) :
    setSampleRate sel s = .ok (s.onChannels sel (ChannelState.resize s.opa
      ⟨(ceilInt s.opa).toNat, 0, Memory.filled (ceilInt s.opa).toNat 0#32⟩)) := by
  simp [setSampleRate, opF32, h, bufAlloc_of_range 0#32 (one_le_ceilInt h) hcap]

variable (f : ChannelState → ChannelState)

theorem State.onChannels_chan_of_selects {c : Channel} (h : selects sel c = true) :
    (s.onChannels sel f).chan c = f (s.chan c) := by
  cases sel with
  | one d => rw [of_decide_eq_true h, onChannels_one, setChan_chan_self]
  | both => exact s.onChannels_both_chan c f

theorem State.onChannels_chan_of_not_selects {c : Channel} (h : selects sel c = false) :
    (s.onChannels sel f).chan c = s.chan c := by
  cases sel with
  | one d => exact s.setChan_chan_other d c _ (Ne.symm (of_decide_eq_false h))
  | both => cases h

/-- Only the two channels change. -/
theorem State.onChannels_eq :
    s.onChannels sel f =
      { s with left := (s.onChannels sel f).left, right := (s.onChannels sel f).right } := by
  rcases sel with (_ | _) | _ <;> rfl

end

/-- Every buffer of a resized channel is the same. -/
theorem peekRing_resize (ch : ChannelState) (sr : F32) (r : Ring) (u : PeekUnit) :
    peekRing (ch.resize sr r) u = r := by
  rcases u with (_ | _ | _) | _ <;> rfl

/-- Settles O41: the rate is checked, then the capacity, and then the addressed channels are resized. -/
theorem setSampleRateSizesTheBuffers : Obligations.SetSampleRateSizesTheBuffers := by
  rintro sel s _ hs rfl
  have hlegal := positiveFinite_iff_flt s.opa
  refine ⟨rfl, fun h => ?_, fun hfin hpos hcap => ?_, fun hfin hpos hcap => ?_⟩
  · exact exec_raiseFault (i := .engSetSampleRate sel) hs (setSampleRate_illegal sel (hlegal.not.2 h))
  · exact exec_raiseFault (i := .engSetSampleRate sel) hs
      (setSampleRate_over_capacity sel (hlegal.2 ⟨hfin, hpos⟩) hcap)
  have h := hlegal.2 ⟨hfin, hpos⟩
  refine ⟨_, exec_ok (i := .engSetSampleRate sel) hs (setSampleRate_of_range sel h hcap),
    State.onChannels_eq sel _, fun c hc => State.onChannels_chan_of_not_selects sel _ hc, fun c hc => ?_⟩
  have hceil : ((ceilInt s.opa).toNat : Int) = ceilInt s.opa :=
    Int.toNat_of_nonneg (by have := one_le_ceilInt h; omega)
  simp only [State.ring, State.word, State.onChannels_chan_of_selects sel _ hc, peekRing_resize]
  exact ⟨rfl, rfl, rfl, fun u => ⟨hceil, trivial, fun i hi => Memory.read_filled 0#32 hi⟩,
    fun k => Taps.get_map ..⟩

/-! A sample that completes (44_engine.md R101 to R109) -/

/-- Three units from a unit for each tap. -/
def Taps.ofFn {α : Type} (f : Tap → α) : Taps α := ⟨f .tap0, f .tap1, f .tap2⟩

@[simp] theorem Taps.get_ofFn {α : Type} (f : Tap → α) (k : Tap) : (Taps.ofFn f).get k = f k := by
  cases k <;> rfl

section

variable {ch : ChannelState} {p : Snapshot} {d : Int} {dk : Tap → Int} (h : EngRuns ch p d dk)
include h

/-- On a channel that passes every check the plan is the one that the rules name. -/
theorem EngRuns.engPlan (c : Channel) : engPlan c ch = .ok ⟨p, d, Taps.ofFn dk⟩ := by
  refine engPlan_ok.2 ⟨snapshotOf_some.2 h.params, h.sized, h.finite, h.base,
    Int.le_sub_one_iff.1 h.baseInside, fun k => tapDelay_ok.2 ?_, h.advance⟩
  have hinside := h.tapsInside k
  rw [Taps.get_ofFn]
  exact ⟨h.taps k, hinside.1, by omega⟩

theorem EngRuns.checkCursors : checkCursors ch = .ok () := checkCursors_ok.2 ⟨h.dlCursor, h.fbCursor⟩

/-- The commit of that plan is the one that the rules name. -/
theorem EngRuns.engCommits (xin : Word) :
    EngCommits ch xin p d dk (engCommit ch xin ⟨p, d, Taps.ofFn dk⟩).1
      (engCommit ch xin ⟨p, d, Taps.ofFn dk⟩).2 where
  out := by
    refine ⟨commitInput ch xin ⟨p, d, Taps.ofFn dk⟩,
      fun k => ((ch.dl.get k).push (commitInput ch xin ⟨p, d, Taps.ofFn dk⟩)).lookback (dk k),
      _, _, _, rfl, fun k => ?_, rfl, rfl, rfl, rfl⟩
    rw [engCommit_dl]
    exact ⟨rfl, rfl, fun i => Memory.read_write (h.dlCanonical k) _ i _, rfl⟩
  fb := ⟨rfl, rfl, fun i => Memory.read_write h.fbCanonical _ i _⟩
  lfo k := by
    rw [engCommit_lfo]
    exact ⟨rfl, rfl, rfl⟩
  rest := ⟨rfl, rfl, rfl⟩

end

/-- Settles O42: the plan passes, and its commit is stored. -/
theorem engProcessCommits : Obligations.EngProcessCommits := by
  intro c s p d dk hs h
  exact ⟨rfl, _, _, h.engCommits s.opa,
    exec_ok (i := .engProcess c) hs (processEng_ok.2 ⟨_, h.engPlan c, h.checkCursors, rfl⟩)⟩

/-- The single word of ST_PROCESS (44_engine.md R110). -/
theorem encode_stProcess : encode .stProcess = 0x00000C32#32 := by decide

/-- Settles O44: both plans pass, and both commits are stored. -/
theorem stProcessCommitsBoth : Obligations.StProcessCommitsBoth := by
  intro s pl pr dl dr kl kr hs hl hr
  exact ⟨encode_stProcess, _, _, _, _, hl.engCommits s.opa, hr.engCommits s.opb,
    exec_ok (i := .stProcess) hs (processStereo_ok.2
      ⟨_, _, hl.engPlan .left, hr.engPlan .right, hl.checkCursors, hr.checkCursors, rfl⟩)⟩

/-! A sample that faults (44_engine.md R101 to R105, R109, 60_exceptions.md R132) -/

/-- A raise is recorded with the channel and the unit it names, or with those of the command's own word. -/
theorem exec_raise_named {i : Instr} {s : State} {r : Raise} (hs : s.faultCause = 0#32)
    (h : commandBody i s = .error (.raise r)) :
    exec i s = .next (s.withFault (causeCode r.cause) r.info (encode i)
      (r.channel.getD (encodeFields i).ch) (r.unit.getD (encodeFields i).u)) := by
  rw [exec_raise hs h, ← fieldsOf_encode i]
  rfl

/-- ENG_PROCESS records the fault of its plan. -/
theorem exec_engProcess_raise {c : Channel} {s : State} {r : Raise} (hs : s.faultCause = 0#32)
    (h : engPlan c (s.chan c) = .error (.raise r)) :
    exec (.engProcess c) s = .next (s.withFault (causeCode r.cause) r.info (encode (.engProcess c))
      (r.channel.getD c.code) (r.unit.getD 0#2)) :=
  exec_raise_named (i := .engProcess c) hs (processEng_error.2 (.inl h))

/-- The mask of the unset parameters, written out as a sum (44_engine.md R101). -/
theorem paramUnsetWord_eq (ps : Params) : paramUnsetWord ps = BitVec.ofNat 32
    ((if ps.delayMs = none then 1 else 0) + (if ps.depthMs = none then 2 else 0) +
      (if ps.rateHz = none then 4 else 0) + (if ps.feedback = none then 8 else 0) +
      (if ps.wet = none then 16 else 0) + (if ps.dry = none then 32 else 0)) := by
  simp only [paramUnsetWord, paramList, List.map_cons, List.map_nil, maskOf, Option.isNone_iff_eq_none,
    Nat.mul_add, mul_ite, Nat.mul_zero, Nat.mul_one, Nat.add_zero, ← Nat.add_assoc, Nat.reduceMul]

section

variable {c : Channel} {ch : ChannelState}

theorem engPlan_unset (h : snapshotOf ch.params = none) :
    engPlan c ch = raiseOn c .unset (paramUnsetWord ch.params) := by
  rw [engPlan, h]

variable {p : Snapshot}

theorem engPlan_unsized (hp : snapshotOf ch.params = some p) (hsized : ch.sized = false) :
    engPlan c ch = raiseOn c .unsized 0#32 := by
  simp [engPlan, hp, hsized]

theorem engPlan_of_sized (hp : snapshotOf ch.params = some p) (hsized : ch.sized = true) :
    engPlan c ch = engChecks c ch p := by
  simp [engPlan, hp, hsized]

/-- The first tap whose delay is out of range decides the outcome of the three (44_engine.md R105). -/
theorem tapDelays_error {d : Int} {cd : F32} {k : Tap} {e : Abort} (hk : tapDelay c ch d cd k = .error e)
    (hbefore : ∀ j, j.code < k.code → ∃ dj, tapDelay c ch d cd j = .ok dj) :
    tapDelays c ch d cd = .error e := by
  cases k with
  | tap0 => exact bind_error_iff.2 (.inl hk)
  | tap1 =>
    obtain ⟨d0, h0⟩ := hbefore .tap0 (by decide)
    exact bind_error_iff.2 (.inr ⟨d0, h0, bind_error_iff.2 (.inl hk)⟩)
  | tap2 =>
    obtain ⟨d0, h0⟩ := hbefore .tap0 (by decide)
    obtain ⟨d1, h1⟩ := hbefore .tap1 (by decide)
    exact bind_error_iff.2 (.inr ⟨d0, h0, bind_error_iff.2 (.inr ⟨d1, h1, bind_error_iff.2 (.inl hk)⟩)⟩)

/-- The first tap whose advance is not finite decides the outcome of the three (44_engine.md R109). -/
theorem checkAdvance_error {rate : F32} {k : Tap} {e : Abort} (hk : checkAdvanceTap c ch rate k = .error e)
    (hbefore : ∀ j, j.code < k.code → checkAdvanceTap c ch rate j = .ok ()) :
    checkAdvance c ch rate = .error e := by
  cases k with
  | tap0 => exact bind_error_iff.2 (.inl hk)
  | tap1 => exact bind_error_iff.2 (.inr ⟨(), hbefore .tap0 (by decide), bind_error_iff.2 (.inl hk)⟩)
  | tap2 =>
    exact bind_error_iff.2 (.inr ⟨(), hbefore .tap0 (by decide),
      bind_error_iff.2 (.inr ⟨(), hbefore .tap1 (by decide), hk⟩)⟩)

theorem engChecks_product_not_finite (h : isFinite (baseProduct p ch.sampleRate) = false) :
    engChecks c ch p = raiseOn c .delayRange 0xFFFFFFFF#32 :=
  bind_error_iff.2 (.inl (by simp [baseDelay, h, raiseOn]))

section

variable (hfin : isFinite (baseProduct p ch.sampleRate) = true) {d : Int}
  (hd : d = roundHA (baseProduct p ch.sampleRate))
include hfin hd

theorem engChecks_base_outside (h : (ch.fb.cap : Int) ≤ d) :
    engChecks c ch p = raiseOn c .delayRange (sat32 d) :=
  bind_error_iff.2 (.inr ⟨d, baseDelay_ok.2 ⟨hfin, hd⟩, bind_error_iff.2 (.inl (if_pos h))⟩)

variable (hinside : d < (ch.fb.cap : Int)) {dk : Tap → Int}
  (hdk : ∀ k, dk k = d + tapOffset (ch.lfo.get k) (depthClamp p ch.sampleRate d))
include hinside hdk

theorem engChecks_tap_outside {k : Tap} (h : dk k < 0 ∨ ((ch.dl.get k).cap : Int) ≤ dk k)
    (hbefore : ∀ j, j.code < k.code → 0 ≤ dk j ∧ dk j < ((ch.dl.get j).cap : Int)) :
    engChecks c ch p = raiseOnTap c k .tapRange (BitVec.ofInt 32 (dk k)) := by
  have htap : tapDelay c ch d (depthClamp p ch.sampleRate d) k =
      raiseOnTap c k .tapRange (BitVec.ofInt 32 (dk k)) := by
    rw [hdk k] at h ⊢
    exact if_pos h
  exact bind_error_iff.2 (.inr ⟨d, baseDelay_ok.2 ⟨hfin, hd⟩, bind_error_iff.2 (.inr
    ⟨(), checkBase_ok.2 hinside, bind_error_iff.2 (.inl (tapDelays_error htap fun j hj =>
      ⟨dk j, tapDelay_ok.2 ⟨hdk j, hbefore j hj⟩⟩))⟩)⟩)

theorem engChecks_advance_not_finite (htaps : ∀ k, 0 ≤ dk k ∧ dk k < ((ch.dl.get k).cap : Int)) {k : Tap}
    (h : isFinite (advancedPhase (ch.lfo.get k) p.rate) = false)
    (hbefore : ∀ j, j.code < k.code → isFinite (advancedPhase (ch.lfo.get j) p.rate) = true) :
    engChecks c ch p = raiseOnTap c k .paramRange p.rate := by
  have htap : checkAdvanceTap c ch p.rate k = raiseOnTap c k .paramRange p.rate := by
    simp [checkAdvanceTap, h]
  have hdelays : tapDelays c ch d (depthClamp p ch.sampleRate d) = .ok (Taps.ofFn dk) :=
    tapDelays_ok.2 fun j => tapDelay_ok.2 (by rw [Taps.get_ofFn]; exact ⟨hdk j, htaps j⟩)
  exact bind_error_iff.2 (.inr ⟨d, baseDelay_ok.2 ⟨hfin, hd⟩, bind_error_iff.2 (.inr
    ⟨(), checkBase_ok.2 hinside, bind_error_iff.2 (.inr ⟨_, hdelays, bind_error_iff.2 (.inl
      (checkAdvance_error htap fun j hj => checkAdvanceTap_ok.2 (hbefore j hj)))⟩)⟩)⟩)

end

end

/-- Settles O43: each outcome is that of the first check that fails. -/
theorem engProcessFaultsInOrder : Obligations.EngProcessFaultsInOrder := by
  rintro c s _ _ hs rfl rfl
  refine ⟨fun hunset => ?_, fun p hparams => ⟨fun hsized => ?_, fun hsized _ hprod => ?_⟩⟩
  · rw [← paramUnsetWord_eq]
    exact exec_engProcess_raise hs (engPlan_unset (snapshotOf_none.2 hunset))
  · exact exec_engProcess_raise hs (engPlan_unsized (snapshotOf_some.2 hparams) hsized)
  subst hprod
  have hplan := engPlan_of_sized (c := c) (snapshotOf_some.2 hparams) hsized
  refine ⟨fun hfin => ?_, fun hfin d hd => ⟨fun hout => ?_, fun hin dk hdk => ?_⟩⟩
  · exact exec_engProcess_raise hs (hplan.trans (engChecks_product_not_finite hfin))
  · exact exec_engProcess_raise hs (hplan.trans (engChecks_base_outside hfin hd (by omega)))
  have hbase := Int.le_sub_one_iff.1 hin
  simp only [Int.le_sub_one_iff, Int.sub_one_lt_iff]
  refine ⟨fun k hk hbefore => ?_, fun htaps k hk hbefore => ?_⟩
  · exact exec_engProcess_raise hs (hplan.trans (engChecks_tap_outside hfin hd hbase hdk hk hbefore))
  · exact exec_engProcess_raise hs
      (hplan.trans (engChecks_advance_not_finite hfin hd hbase hdk htaps hk hbefore))

/-! The stereo frame (44_engine.md R110, R114) -/

/-- If ENG_PROCESS answers a next state: its commit was stored, or the fault of its plan was recorded. -/
theorem exec_engProcess_next {c : Channel} {s t : State} (hs : s.faultCause = 0#32)
    (h : exec (.engProcess c) s = .next t) :
    (∃ plan, engPlan c (s.chan c) = .ok plan ∧ checkCursors (s.chan c) = .ok () ∧ t.faultCause = 0#32 ∧
      t = (s.setChan c (engCommit (s.chan c) s.opa plan).1).setRes0 (engCommit (s.chan c) s.opa plan).2) ∨
    ∃ r, engPlan c (s.chan c) = .error (.raise r) ∧ t.faultCause ≠ 0#32 ∧ r.channel = some c.code ∧
      t = s.withFault (causeCode r.cause) r.info (encode (.engProcess c)) c.code (r.unit.getD 0#2) := by
  rcases exec_next h with ⟨hbody, -⟩ | ⟨r, hbody, -, rfl⟩ | ⟨hhalted, -⟩
  · obtain ⟨plan, hplan, hcursors, rfl⟩ := processEng_ok.1 hbody
    exact .inl ⟨plan, hplan, hcursors, by simpa using hs, rfl⟩
  · rcases processEng_error.1 hbody with hplan | ⟨-, -, hcursors⟩
    · obtain ⟨cause, info, unit, hr⟩ := engPlan_error hplan
      cases hr
      rw [exec_engProcess_raise hs hplan] at h
      exact .inr ⟨_, hplan, causeCode_ne_zero _, rfl, (Host.Outcome.next.inj h).symm⟩
    · cases checkCursors_error hcursors
  · exact absurd hs hhalted

/-- Settles O45: the two commands plan and commit each channel in the same way. -/
theorem stereoFrameIsLeftThenRight : Obligations.StereoFrameIsLeftThenRight := by
  intro s a b hs ha hb
  rcases exec_engProcess_next hs ha with ⟨planL, hplanL, hcursL, haOk, rfl⟩ | ⟨r, hplanL, haBad, hch, rfl⟩
  · rcases exec_engProcess_next (by exact haOk) hb with
      ⟨planR, hplanR, hcursR, hbOk, rfl⟩ | ⟨r, hplanR, hbBad, hch, rfl⟩
    · refine ⟨fun _ _ => ?_, fun h => absurd haOk h, fun _ h => absurd hbOk h⟩
      exact exec_ok (i := .stProcess) hs
        (processStereo_ok.2 ⟨planL, planR, hplanL, hplanR, hcursL, hcursR, rfl⟩)
    · refine ⟨fun _ h => absurd h hbBad, fun h => absurd haOk h, fun _ _ => ?_⟩
      rw [exec_raise_named (i := .stProcess) hs (processStereo_error.2 (.inr ⟨planL, hplanL, .inl hplanR⟩)),
        hch, encode_stProcess]
      rfl
  · refine ⟨fun h => absurd h haBad, fun _ => ?_, fun h => absurd h haBad⟩
    rw [exec_raise_named (i := .stProcess) hs (processStereo_error.2 (.inl hplanL)), hch, encode_stProcess]
    rfl

/-- A plan that passes does not depend on which channel it is made for (44_engine.md R114). -/
theorem engPlan_ok_congr (c d : Channel) {ch : ChannelState} {plan : Plan} :
    engPlan c ch = .ok plan ↔ engPlan d ch = .ok plan := by
  simp only [engPlan_ok, tapDelay_ok]

/-- Settles O46: a frame that completes makes the same plan and the same commit twice, and a fault leaves both
channels as they were. -/
theorem equalChannelsStayEqual : Obligations.EqualChannelsStayEqual := by
  intro s t hs hchan hop h
  rcases exec_next h with ⟨hbody, -⟩ | ⟨r, -, -, rfl⟩ | ⟨hhalted, -⟩
  · obtain ⟨planL, planR, hL, hR, -, -, rfl⟩ := processStereo_ok.1 hbody
    have hsame : planL = planR := by
      rw [hchan, engPlan_ok_congr .left .right, hR] at hL
      exact (Except.ok.inj hL).symm
    simp only [hsame, hchan, hop]
    exact ⟨trivial, fun _ => trivial⟩
  · exact ⟨hchan, fun h0 => absurd h0 (causeCode_ne_zero _)⟩
  · exact absurd hs hhalted

end Sys2Proof.Machine
end

section
/-! The control commands of 45_control.md: NOP (R120), the register numbers of 10_state.md R27 and R28 with CSR_READ
(R121) and CSR_WRITE (R122), and MEM_PEEK (R123). -/

namespace Sys2Proof.Machine

/-- Settles O51: the body of NOP is the state itself, and NOP runs while halted. -/
theorem nopChangesNothing : Obligations.NopChangesNothing :=
  fun sel _ => ⟨rfl, exec_of_commandBody_ok (i := .nop sel) rfl fun _ => rfl⟩

/-! Register numbers (10_state.md R27, R28) -/

/-- The per-channel registers in the order of their numbers, the read-write ones among the read-only ones
(10_state.md R28); `channelCsrTable_sound` ties it to `channelCsr`. -/
def channelCsrTable : List (Nat × ChannelCsr) :=
  channelRoCsrTable.take 4 ++ paramCsrTable.map (fun row => (row.1, .param row.2)) ++ channelRoCsrTable.drop 4

theorem globalCsrTable_sound : ∀ row ∈ globalCsrTable,
    opCsr (BitVec.ofNat 32 row.1) = some row.1 ∧ globalCsr row.1 = some row.2 := by decide

theorem channelCsrTable_sound : ∀ row ∈ channelCsrTable,
    opCsr (BitVec.ofNat 32 row.1) = some row.1 ∧ globalCsr row.1 = none ∧ channelCsr row.1 = some row.2 := by
  decide

theorem paramCsrTable_sound : ∀ row ∈ paramCsrTable,
    opCsr (BitVec.ofNat 32 row.1) = some row.1 ∧ paramCsr row.1 = some row.2 := by decide

/-- A csr operand that names a number is that number, with no bit above it set (30_encoding.md R58). -/
theorem opCsr_eq_some {w : Word} {n : Nat} (h : opCsr w = some n) : n = w.toNat := by
  unfold opCsr at h
  split at h
  · next hhigh =>
    obtain rfl := Option.some.inj h
    have hzero := congrArg BitVec.toNat hhigh
    have hw := w.isLt
    simp only [BitVec.extractLsb'_toNat, BitVec.toNat_ofNat, Nat.shiftRight_eq_div_pow] at hzero ⊢
    omega
  · cases h

theorem lookup_eq_none_of_not_mem {α : Type} {table : List (Nat × α)} {n : Nat}
    (h : n ∉ table.map Prod.fst) : table.lookup n = none :=
  List.lookup_eq_none_iff.2 fun _ hrow => bne_iff_ne.2 fun hn => h (hn ▸ List.mem_map_of_mem hrow)

theorem channelCsr_eq_none {n : Nat} (h : n ∉ channelCsrTable.map Prod.fst) : channelCsr n = none := by
  have hrw : paramCsrTable.map Prod.fst ⊆ channelCsrTable.map Prod.fst := by decide
  have hro : channelRoCsrTable.map Prod.fst ⊆ channelCsrTable.map Prod.fst := by decide
  have hparam : paramCsr n = none := lookup_eq_none_of_not_mem fun hn => h (hrw hn)
  rw [channelCsr, hparam]
  exact lookup_eq_none_of_not_mem fun hn => h (hro hn)

/-! CSR_READ (45_control.md R121) -/

section

variable (sel : ChSel) {s : State}

theorem readCsr_global {n : Nat} {g : GlobalCsr} (hrow : (n, g) ∈ globalCsrTable)
    (hopa : BitVec.ofNat 32 n = s.opa) : readCsr sel s = .ok (s.setRes0 (globalValue s g)) := by
  obtain ⟨hnumber, hglobal⟩ := globalCsrTable_sound _ hrow
  rw [hopa] at hnumber
  simp only [readCsr, hnumber, hglobal]

theorem readCsr_channel {n : Nat} {r : ChannelCsr} (hrow : (n, r) ∈ channelCsrTable)
    (hopa : BitVec.ofNat 32 n = s.opa) : readCsr sel s = readChannelCsr sel r s := by
  obtain ⟨hnumber, hglobal, hchannel⟩ := channelCsrTable_sound _ hrow
  rw [hopa] at hnumber
  simp only [readCsr, hnumber, hglobal, hchannel]

theorem readCsr_unlisted (hglobal : s.opa.toNat ∉ globalCsrTable.map Prod.fst)
    (hchannel : s.opa.toNat ∉ channelCsrTable.map Prod.fst) : readCsr sel s = raiseFault .illegalCsr s.opa := by
  unfold readCsr
  split
  · rfl
  · next n hn =>
    rw [opCsr_eq_some hn, globalCsr, lookup_eq_none_of_not_mem hglobal, channelCsr_eq_none hchannel]

variable {c : Channel} {r : ChannelCsr}

theorem readChannelCsr_value {v : Word} (h : channelValue (s.chan c) r = some v) :
    readChannelCsr (.one c) r s = .ok (s.setRes0 v) := by
  rw [readChannelCsr, h]

theorem readChannelCsr_unset (h : channelValue (s.chan c) r = none) :
    readChannelCsr (.one c) r s = raiseFault .unset s.opa := by
  rw [readChannelCsr, h]

end

/-- Settles O52: each row is a row of the global registers with its value. -/
theorem csrReadGivesGlobalRegisters : Obligations.CsrReadGivesGlobalRegisters := by
  intro sel s v hrow
  rw [← statusWord_eq] at hrow
  obtain ⟨⟨n, g⟩, hmem, heq⟩ :=
    List.mem_map (f := fun row => (BitVec.ofNat 32 row.1, globalValue s row.2)) (l := globalCsrTable) |>.1 hrow
  obtain ⟨hopa, rfl⟩ := Prod.mk.inj heq
  exact ⟨rfl, exec_of_commandBody_ok (i := .csrRead sel) (readCsr_global sel hmem hopa) fun _ => rfl⟩

/-- PARAM_VALID, written out as a sum (10_state.md R28). -/
theorem paramValidWord_eq (p : Params) : paramValidWord p = BitVec.ofNat 32
    ((if p.delayMs = none then 0 else 1) + (if p.depthMs = none then 0 else 2) +
      (if p.rateHz = none then 0 else 4) + (if p.feedback = none then 0 else 8) +
      (if p.wet = none then 0 else 16) + (if p.dry = none then 0 else 32)) := by
  simp only [paramValidWord, paramList, List.map_cons, List.map_nil, maskOf, Option.isSome_iff_ne_none, ne_eq,
    ite_not, Nat.mul_add, mul_ite, Nat.mul_zero, Nat.mul_one, Nat.add_zero, ← Nat.add_assoc, Nat.reduceMul]

/-- LFO_RATE_VALID, written out as a sum (10_state.md R28). -/
theorem lfoRateValidWord_eq (l : Taps Lfo) : lfoRateValidWord l = BitVec.ofNat 32
    ((if l.tap0.rate = none then 0 else 1) + (if l.tap1.rate = none then 0 else 2) +
      (if l.tap2.rate = none then 0 else 4)) := by
  simp only [lfoRateValidWord, maskOf, Option.isSome_iff_ne_none, ne_eq,
    ite_not, Nat.mul_add, mul_ite, Nat.mul_zero, Nat.mul_one, Nat.add_zero, ← Nat.add_assoc, Nat.reduceMul]

/-- The number of a per-channel register beside its value, none where it is unset (10_state.md R28, R30). -/
def channelCsrRow (ch : ChannelState) (row : Nat × ChannelCsr) : Word × Option Word :=
  (BitVec.ofNat 32 row.1, channelValue ch row.2)

/-- Settles O53: each row is a row of the per-channel registers with its value. -/
theorem csrReadGivesChannelRegisters : Obligations.CsrReadGivesChannelRegisters := by
  rintro c s _ v rfl hrow
  rw [← paramValidWord_eq, ← lfoRateValidWord_eq] at hrow
  obtain ⟨⟨n, r⟩, hmem, heq⟩ :=
    List.mem_map (f := channelCsrRow (s.chan c)) (l := channelCsrTable) |>.1 hrow
  obtain ⟨hopa, hvalue⟩ := Prod.mk.inj heq
  exact exec_of_commandBody_ok (i := .csrRead (.one c))
    ((readCsr_channel _ hmem hopa).trans (readChannelCsr_value hvalue)) fun _ => rfl

/-- The per-channel registers that can be unset (10_state.md R30), in the order of their numbers. -/
def optionalCsrTable : List (Nat × ChannelCsr) :=
  paramCsrTable.map (fun row => (row.1, .param row.2)) ++
    [(0x034, .lfoRate .tap0), (0x035, .lfoRate .tap1), (0x036, .lfoRate .tap2)]

theorem optionalCsrTable_subset : optionalCsrTable ⊆ channelCsrTable := by decide

/-- The per-channel numbers are the ranges of 10_state.md R28. -/
theorem channelCsrTable_numbers : channelCsrTable.map Prod.fst =
    List.range' 0x010 10 ++ List.range' 0x020 8 ++ List.range' 0x030 3 ++ List.range' 0x034 3 ++
      List.range' 0x038 3 := by decide

/-- All numbers that 10_state.md R27 and R28 list. -/
theorem csrTables_numbers : globalCsrTable.map Prod.fst ++ channelCsrTable.map Prod.fst =
    List.range' 0x000 8 ++ List.range' 0x010 10 ++ List.range' 0x020 8 ++ List.range' 0x030 3 ++
      List.range' 0x034 3 ++ List.range' 0x038 3 := by decide

/-- Settles O54: a number outside both tables, a per-channel register of both channels, and one without a value. -/
theorem csrReadFaults : Obligations.CsrReadFaults := by
  intro sel s hs
  rw [← csrTables_numbers, ← channelCsrTable_numbers, List.mem_append, not_or]
  refine ⟨fun ⟨hglobal, hchannel⟩ => ?_, fun h => ?_, ?_⟩
  · exact exec_raiseFault (i := .csrRead sel) hs (readCsr_unlisted sel hglobal hchannel)
  · obtain ⟨⟨n, r⟩, hmem, rfl⟩ := List.mem_map.1 h
    exact exec_raiseFault (i := .csrRead .both) hs
      (readCsr_channel .both hmem (by rw [BitVec.ofNat_toNat, BitVec.setWidth_eq]))
  · rintro c _ rfl hrow
    obtain ⟨⟨n, r⟩, hmem, heq⟩ :=
      List.mem_map (f := channelCsrRow (s.chan c)) (l := optionalCsrTable) |>.1 hrow
    obtain ⟨hopa, hunset⟩ := Prod.mk.inj heq
    exact exec_raiseFault (i := .csrRead (.one c)) hs
      ((readCsr_channel _ (optionalCsrTable_subset hmem) hopa).trans (readChannelCsr_unset hunset))

/-! CSR_WRITE (45_control.md R122) -/

section

variable (sel : ChSel) {s : State}

theorem writeCsr_unlisted (h : s.opa.toNat ∉ paramCsrTable.map Prod.fst) :
    writeCsr sel s = raiseFault .illegalCsr s.opa := by
  unfold writeCsr
  split
  · rfl
  · next n hn => rw [opCsr_eq_some hn, paramCsr, lookup_eq_none_of_not_mem h]

section

variable {n : Nat} {p : Param} (hrow : (n, p) ∈ paramCsrTable) (hopa : BitVec.ofNat 32 n = s.opa)
include hrow hopa

theorem writeCsr_eq : writeCsr sel s =
    if paramLegal p s.opb = true then .ok (s.onChannels sel (·.setParam p s.opb))
    else raiseFault .paramRange s.opb := by
  obtain ⟨hnumber, hparam⟩ := paramCsrTable_sound _ hrow
  rw [hopa] at hnumber
  unfold writeCsr opF32
  simp only [hnumber, hparam]

theorem writeCsr_legal (h : paramLegal p s.opb = true) :
    writeCsr sel s = .ok (s.onChannels sel (·.setParam p s.opb)) :=
  (writeCsr_eq sel hrow hopa).trans (if_pos h)

theorem writeCsr_illegal (h : ¬ paramLegal p s.opb = true) : writeCsr sel s = raiseFault .paramRange s.opb :=
  (writeCsr_eq sel hrow hopa).trans (if_neg h)

end

end

/-- Setting a parameter of the selected channels leaves the rest of each channel as it was. -/
theorem State.onChannels_setParam_chan (s : State) (sel : ChSel) (p : Param) (v : F32) (c : Channel) :
    (s.onChannels sel (·.setParam p v)).chan c = { s.chan c with
      params := if selects sel c = true then (s.chan c).params.set p v else (s.chan c).params } := by
  split
  · next h => exact s.onChannels_chan_of_selects sel _ h
  · next h => exact s.onChannels_chan_of_not_selects sel _ (Bool.not_eq_true _ ▸ h)

/-- Settles O55: each row is a row of the parameters with its legal values. -/
theorem csrWriteSetsParameters : Obligations.CsrWriteSetsParameters := by
  intro sel s hs
  refine ⟨rfl, fun p legal hrow => ?_, fun h =>
    exec_raiseFault (i := .csrWrite sel) hs (writeCsr_unlisted sel h)⟩
  simp only [← Bool.and_eq_true] at hrow
  obtain ⟨⟨n, q⟩, hmem, heq⟩ :=
    List.mem_map (f := fun row => (BitVec.ofNat 32 row.1, row.2, paramLegal row.2 s.opb = true))
      (l := paramCsrTable) |>.1 hrow
  simp only [Prod.mk.injEq] at heq
  obtain ⟨hopa, rfl, rfl⟩ := heq
  refine ⟨fun hlegal => ?_, fun hillegal =>
    exec_raiseFault (i := .csrWrite sel) hs (writeCsr_illegal sel hmem hopa hillegal)⟩
  refine ⟨_, exec_ok (i := .csrWrite sel) hs (writeCsr_legal sel hmem hopa hlegal),
    State.onChannels_eq sel _, fun c => ?_⟩
  rw [State.onChannels_setParam_chan]
  refine ⟨rfl, fun r => ?_⟩
  by_cases hsel : selects sel c = true
  · simp [hsel, Params.get_set]
  · simp [hsel]

/-! MEM_PEEK (45_control.md R123) -/

section

variable (c : Channel) (u : PeekUnit) {s : State}

theorem peekMem_of_range (h : s.opa.toNat < (s.ring c u).cap) :
    peekMem c u s = .ok (s.setRes0 (s.word c u s.opa.toNat)) :=
  if_neg (Nat.not_le.2 h)

theorem peekMem_out_of_range (h : (s.ring c u).cap ≤ s.opa.toNat) :
    peekMem c u s = raiseFault .indexRange s.opa :=
  if_pos h

end

/-- Settles O56: the index is inside the buffer or it is raised; MEM_PEEK runs while halted. -/
theorem memPeekReadsAWord : Obligations.MemPeekReadsAWord :=
  fun c u _ => ⟨rfl,
    fun hi => exec_of_commandBody_ok (i := .memPeek c u) (peekMem_of_range c u hi) fun _ => rfl,
    fun hi hs => exec_raiseFault (i := .memPeek c u) hs (peekMem_out_of_range c u hi)⟩

end Sys2Proof.Machine
end

section
/-! The faults of 60_exceptions.md: the command cycle (R134), what a command that raises changes (R132, R133), what a
halted block still does (R135, R136), and what every step does to the fault registers (R131, R132, R137). -/

namespace Sys2Proof.Machine

/-! Commands and their faults (60_exceptions.md R132 to R135) -/

/-- Settles O4: the write stores the word in CMD and runs the decoded command. -/
theorem stepRunsDecodedCommand : Obligations.StepRunsDecodedCommand :=
  fun _ _ _ _ hpending hdecode => (step_regWrite .cmd hpending).trans (writeCmd_of_decode_ok hdecode _)

/-- Settles O19: a body that completes keeps FAULT_CAUSE at 0, and a fault is recorded by `takeFault` alone. -/
theorem faultsArePrecise : Obligations.FaultsArePrecise := by
  intro i s t h hs ht
  rcases exec_next h with ⟨hbody, -⟩ | ⟨r, -, -, rfl⟩ | ⟨hhalted, -⟩
  · obtain ⟨-, -, -, -, hcause, -⟩ := commandBody_ok_frame hbody
    exact absurd (hcause.trans hs) ht
  · rfl
  · exact absurd hs hhalted

/-- Settles O20. -/
theorem haltedBlockDropsCommands : Obligations.HaltedBlockDropsCommands := by
  intro i s hs hi
  rw [exec_halted i hs, hi]
  rfl

/-! Inspection of a halted block (60_exceptions.md R135, R136) -/

/-- What runs while the block is halted changes no state except RES0 (20_memory.md R46). -/
theorem changesOnlyRes0_of_runsHalted {i : Instr} (hi : runsHalted i = true) : changesOnlyRes0 i = true := by
  cases i
  case nop => rfl
  case csrRead => rfl
  case memPeek => rfl
  all_goals cases hi

/-- The three commands that run while the block is halted complete or raise: none of them checks a cursor, so none
stops the model (log 12). -/
theorem commandBody_of_runsHalted {i : Instr} (hi : runsHalted i = true) (s : State) :
    (∃ w, commandBody i s = .ok (s.setRes0 w)) ∨ ∃ r, commandBody i s = .error (.raise r) := by
  rcases hbody : commandBody i s with (r | f) | t
  · exact .inr ⟨r, rfl⟩
  · cases i <;> simp only [commandBody] at hbody
    case nop => cases hbody
    case csrRead => exact (readCsr_not_stop hbody).elim
    case memPeek => exact (peekMem_not_stop hbody).elim
    all_goals cases hi
  · obtain ⟨⟨w, rfl⟩, -⟩ := commandBody_ok_repeat (changesOnlyRes0_of_runsHalted hi) hbody
    exact .inl ⟨w, rfl⟩

/-- The same block not halted: FAULT_CAUSE holds 0 (10_state.md R32). -/
def State.unhalted (s : State) : State := { s with faultCause := 0#32 }

section

variable (s : State)

@[simp] theorem State.unhalted_opa : s.unhalted.opa = s.opa := rfl
@[simp] theorem State.unhalted_chan (c : Channel) : s.unhalted.chan c = s.chan c := by cases c <;> rfl

/-- STATUS and FAULT_CAUSE are the only global registers that read FAULT_CAUSE (10_state.md R27, R32). -/
theorem globalValue_unhalted {g : GlobalCsr} (hstatus : g ≠ .status) (hcause : g ≠ .faultCause) :
    globalValue s.unhalted g = globalValue s g := by
  cases g
  case status => exact absurd rfl hstatus
  case faultCause => exact absurd rfl hcause
  all_goals rfl

theorem readChannelCsr_unhalted (sel : ChSel) (r : ChannelCsr) :
    readChannelCsr sel r s.unhalted = (readChannelCsr sel r s).map State.unhalted := by
  cases sel with
  | both => rfl
  | one c =>
    cases hvalue : channelValue (s.chan c) r with
    | none => rw [readChannelCsr_unset hvalue, readChannelCsr_unset (by simpa using hvalue)]; rfl
    | some v => rw [readChannelCsr_value hvalue, readChannelCsr_value (by simpa using hvalue)]; rfl

end

/-- The numbers of STATUS and FAULT_CAUSE (10_state.md R27). -/
theorem globalCsrTable_cause_numbers : ∀ row ∈ globalCsrTable,
    (row.2 = .status → BitVec.ofNat 32 row.1 = 0x001#32) ∧
      (row.2 = .faultCause → BitVec.ofNat 32 row.1 = 0x002#32) := by decide

section

variable {s : State}

/-- CSR_READ of a number other than those of STATUS and FAULT_CAUSE does not read FAULT_CAUSE. -/
theorem readCsr_unhalted (sel : ChSel) (hstatus : s.opa ≠ 0x001#32) (hcause : s.opa ≠ 0x002#32) :
    readCsr sel s.unhalted = (readCsr sel s).map State.unhalted := by
  have hself : BitVec.ofNat 32 s.opa.toNat = s.opa := by rw [BitVec.ofNat_toNat, BitVec.setWidth_eq]
  by_cases hglobal : s.opa.toNat ∈ globalCsrTable.map Prod.fst
  · obtain ⟨⟨n, g⟩, hrow, rfl⟩ := List.mem_map.1 hglobal
    obtain ⟨hone, htwo⟩ := globalCsrTable_cause_numbers _ hrow
    rw [readCsr_global sel hrow hself, readCsr_global sel (s := s.unhalted) hrow hself, globalValue_unhalted]
    · rfl
    · exact fun hg => hstatus (hself.symm.trans (hone hg))
    · exact fun hg => hcause (hself.symm.trans (htwo hg))
  · by_cases hchannel : s.opa.toNat ∈ channelCsrTable.map Prod.fst
    · obtain ⟨⟨n, r⟩, hrow, rfl⟩ := List.mem_map.1 hchannel
      rw [readCsr_channel sel hrow hself, readCsr_channel sel (s := s.unhalted) hrow hself,
        readChannelCsr_unhalted]
    · rw [readCsr_unlisted sel hglobal hchannel, readCsr_unlisted sel (s := s.unhalted) hglobal hchannel]
      rfl

/-- CSR_READ of STATUS and of FAULT_CAUSE completes on every block (45_control.md R121). -/
theorem readCsr_status_or_cause (sel : ChSel) (h : s.opa = 0x001#32 ∨ s.opa = 0x002#32) :
    ∃ w, readCsr sel s = .ok (s.setRes0 w) := by
  rcases h with h | h
  · exact ⟨_, readCsr_global (n := 0x001) (g := .status) sel (by decide) h.symm⟩
  · exact ⟨_, readCsr_global (n := 0x002) (g := .faultCause) sel (by decide) h.symm⟩

theorem peekMem_unhalted (c : Channel) (u : PeekUnit) :
    peekMem c u s.unhalted = (peekMem c u s).map State.unhalted := by
  simp only [peekMem, State.unhalted_opa, State.unhalted_chan]
  split <;> rfl

/-- The command is no CSR_READ of STATUS or FAULT_CAUSE, whose values differ on a block that is not halted. -/
def ReadsNoCause (i : Instr) (s : State) : Prop :=
  ∀ sel, i = .csrRead sel → s.opa ≠ 0x001#32 ∧ s.opa ≠ 0x002#32

variable {i : Instr}

theorem commandBody_of_readsCause (h : ¬ ReadsNoCause i s) : ∃ w, commandBody i s = .ok (s.setRes0 w) := by
  simp only [ReadsNoCause, not_forall, not_and_or, not_not] at h
  obtain ⟨sel, rfl, hopa⟩ := h
  exact readCsr_status_or_cause sel hopa

variable (hi : runsHalted i = true)
include hi

/-- The three commands that run while the block is halted do the same on the same block not halted. -/
theorem commandBody_unhalted (hread : ReadsNoCause i s) :
    commandBody i s.unhalted = (commandBody i s).map State.unhalted := by
  cases i
  case nop => rfl
  case csrRead sel =>
    obtain ⟨hstatus, hcause⟩ := hread sel rfl
    exact readCsr_unhalted sel hstatus hcause
  case memPeek c u => exact peekMem_unhalted c u
  all_goals cases hi

/-- What completes on a block completes on the same block not halted, with the same value unless that is of STATUS
or FAULT_CAUSE. -/
theorem commandBody_unhalted_ok {w : Word} (h : commandBody i s = .ok (s.setRes0 w)) :
    ∃ v, commandBody i s.unhalted = .ok (s.unhalted.setRes0 v) ∧ (ReadsNoCause i s → w = v) := by
  by_cases hread : ReadsNoCause i s
  · exact ⟨w, by rw [commandBody_unhalted hi hread, h]; rfl, fun _ => rfl⟩
  · obtain ⟨v, hv⟩ := commandBody_of_readsCause (s := s.unhalted) hread
    exact ⟨v, hv, fun hn => absurd hn hread⟩

/-- What raises on a block raises on the same block not halted. -/
theorem commandBody_unhalted_raise {r : Raise} (h : commandBody i s = .error (.raise r)) :
    commandBody i s.unhalted = .error (.raise r) := by
  by_cases hread : ReadsNoCause i s
  · rw [commandBody_unhalted hi hread, h]; rfl
  · obtain ⟨w, hw⟩ := commandBody_of_readsCause hread
    cases h.symm.trans hw

end

/-- Settles O21: the body completes on both blocks, or it raises on both and the halted block drops the raise. -/
theorem haltedInspectionNeverRecords : Obligations.HaltedInspectionNeverRecords := by
  intro i s hs hi
  rcases commandBody_of_runsHalted hi s with ⟨w, hw⟩ | ⟨r, hr⟩
  · obtain ⟨v, hv, hsame⟩ := commandBody_unhalted_ok hi hw
    refine ⟨w, exec_of_commandBody_ok hw fun _ => hi, fun u hu => ?_⟩
    obtain rfl : s.unhalted.setRes0 v = u := Host.Outcome.next.inj ((exec_ok rfl hv).symm.trans hu)
    exact ⟨absurd rfl, fun _ => hsame⟩
  · refine ⟨s.res0, ?_, fun u hu => ?_⟩
    · rw [exec_halted i hs, if_pos hi, hr, settle_raise, if_pos ((halted_iff s).2 hs)]
    · have hraise := exec_raise rfl (commandBody_unhalted_raise hi hr)
      obtain rfl : takeFault (encode i) r s.unhalted = u := Host.Outcome.next.inj (hraise.symm.trans hu)
      exact ⟨fun _ => rfl, fun hclear => absurd hclear (causeCode_ne_zero r.cause)⟩

/-! The fault registers over a step (60_exceptions.md R131, R132, R137) -/

/-- The five fault registers stay, and on a halted block so do both channels. -/
def State.KeepsFault (s t : State) : Prop :=
  (t.faultCause = s.faultCause ∧ t.faultInfo = s.faultInfo ∧ t.faultCmd = s.faultCmd ∧
      t.faultCh = s.faultCh ∧ t.faultUnit = s.faultUnit) ∧
    (s.faultCause ≠ 0#32 → t.left = s.left ∧ t.right = s.right)

/-- A block that is not halted records a fault of the word in CMD, and changes no channel and no result. -/
def State.RecordsFault (s t : State) : Prop :=
  s.faultCause = 0#32 ∧ (∃ cause, t.faultCause = causeCode cause) ∧ t.faultCmd = t.cmd ∧
    t.left = s.left ∧ t.right = s.right ∧ t.res0 = s.res0 ∧ t.res1 = s.res1

section

variable {s t : State}

theorem State.keepsFault_refl (s : State) : s.KeepsFault s :=
  ⟨⟨rfl, rfl, rfl, rfl, rfl⟩, fun _ => ⟨rfl, rfl⟩⟩

theorem State.recordsFault_takeFault (hs : s.faultCause = 0#32) (r : Raise) :
    s.RecordsFault (takeFault s.cmd r s) :=
  ⟨hs, ⟨r.cause, rfl⟩, rfl, rfl, rfl, rfl, rfl⟩

/-- A body that completes keeps the fault registers; the three commands that complete on a halted block change RES0
alone. -/
theorem commandBody_ok_keepsFault {i : Instr} (h : commandBody i s = .ok t)
    (hruns : s.faultCause ≠ 0#32 → runsHalted i = true) : s.KeepsFault t := by
  obtain ⟨-, -, -, -, hcause, hinfo, hcmd, hch, hunit, -⟩ := commandBody_ok_frame h
  refine ⟨⟨hcause, hinfo, hcmd, hch, hunit⟩, fun hs => ?_⟩
  obtain ⟨⟨w, rfl⟩, -⟩ := commandBody_ok_repeat (changesOnlyRes0_of_runsHalted (hruns hs)) h
  exact ⟨rfl, rfl⟩

/-- The command whose own word stands in CMD keeps the fault registers or records a first fault. -/
theorem exec_next_fault {i : Instr} (hcmd : s.cmd = encode i) (h : exec i s = .next t) :
    s.KeepsFault t ∨ s.RecordsFault t := by
  rcases exec_next h with ⟨hbody, hruns⟩ | ⟨r, -, hs, rfl⟩ | ⟨-, rfl⟩
  · exact .inl (commandBody_ok_keepsFault hbody hruns)
  · rw [← hcmd]; exact .inr (State.recordsFault_takeFault hs r)
  · exact .inl t.keepsFault_refl

/-- A write to CMD changes no register that the two cases name before its word runs (60_exceptions.md R134). -/
theorem writeCmd_next_fault {w : Word} (h : writeCmd w s = .next t) : s.KeepsFault t ∨ s.RecordsFault t := by
  rcases writeCmd_next h with ⟨i, hi, hexec⟩ | ⟨-, rfl⟩ | ⟨hs, rfl⟩
  · exact exec_next_fault (s := s.setCmd w) ((decodeEncodeAgree w i).1 hi) hexec
  · exact .inl s.keepsFault_refl
  · exact .inr (State.recordsFault_takeFault (s := s.setCmd w) hs _)

/-- A step is a reset, or it keeps the fault registers, or it records a first fault. -/
theorem step_next_fault (h : step s = .next t) :
    (s.host.pending.head? = some .reset ∧ ∃ n host, t = State.resetWith (Config.phaseInit n) host) ∨
      (s.host.pending.head? ≠ some .reset ∧ (s.KeepsFault t ∨ s.RecordsFault t)) := by
  rcases step_next h with ⟨hp, rfl⟩ | ⟨e, rest, u, hp, rfl, hu⟩
  · rw [hp]; exact .inr ⟨nofun, .inl t.keepsFault_refl⟩
  rw [hp, List.head?_cons, ne_eq, Option.some_inj]
  rcases hu with ⟨w, he, rfl | rfl | rfl⟩ | ⟨w, rfl, hw⟩ | ⟨data, he, rfl⟩ | ⟨rfl, rfl⟩
  · exact .inr ⟨he, .inl s.keepsFault_refl⟩
  · exact .inr ⟨he, .inl s.keepsFault_refl⟩
  · exact .inr ⟨he, .inl s.keepsFault_refl⟩
  · exact .inr ⟨nofun, writeCmd_next_fault (s := s.setPending rest) hw⟩
  · exact .inr ⟨he, .inl s.keepsFault_refl⟩
  · exact .inl ⟨rfl, _, _, rfl⟩

end

/-- Settles O22: the two kinds of step that `step_next_fault` tells apart. -/
theorem onlyResetClearsAFault : Obligations.OnlyResetClearsAFault := by
  intro s t h
  rcases step_next_fault h with ⟨hreset, n, host, rfl⟩ | ⟨hreset, hfault⟩
  · exact ⟨fun _ => ⟨⟨rfl, rfl, rfl, rfl, rfl, rfl⟩, fun c => ⟨Config.phaseInit n c,
      Config.phaseInit_admissible n c, State.resetWith_chan _ _ c⟩⟩, absurd hreset⟩
  · refine ⟨fun hr => absurd hr hreset, fun _ => ?_⟩
    rcases hfault with ⟨hregs, hchannels⟩ | ⟨hs, ⟨cause, hcause⟩, hcmd, hleft, hright, hres⟩
    · exact ⟨.inl hregs, hchannels⟩
    · have hnonzero : t.faultCause ≠ 0#32 := hcause ▸ causeCode_ne_zero cause
      exact ⟨.inr ⟨hs, hnonzero, hcmd, hleft, hright, hres⟩, fun _ => ⟨hleft, hright⟩⟩

/-- Settles O18: reset clears the five registers, and a recorded fault has a code from 1 to 11. -/
theorem stepKeepsFaultRegisters : Obligations.StepKeepsFaultRegisters := by
  intro s t hs h
  rcases step_next_fault h with ⟨-, n, host, rfl⟩ | ⟨-, hkeep | hrecord⟩
  · exact ⟨Nat.zero_le _, fun _ => ⟨rfl, rfl, rfl, rfl⟩⟩
  · obtain ⟨⟨hcause, hinfo, hcmd, hch, hunit⟩, -⟩ := hkeep
    unfold State.FaultRegsOk
    rw [hcause, hinfo, hcmd, hch, hunit]
    exact hs
  · obtain ⟨-, ⟨cause, hcause⟩, -⟩ := hrecord
    rw [State.FaultRegsOk, hcause]
    exact ⟨causeCode_le cause, fun hzero => absurd hzero (causeCode_ne_zero cause)⟩

end Sys2Proof.Machine
end

section
/-! Reset and the hazards of 70_reset_and_hazards.md: the reset input (R150, R151), and the range in which ENG_PROCESS
completes (R154). -/

namespace Sys2Proof.Machine

/-- Settles O9: the access is the reset, and its result is by definition the reset state with the next samples. -/
theorem resetInputRestoresResetState : Obligations.ResetInputRestoresResetState :=
  fun _ _ hpending => step_of_pending hpending

/-! An advance that is always finite (44_engine.md R109) -/

/-- No finite value is past the largest one. -/
theorem abs_scaled_le {a : F32} (h : isFinite a = true) : |scaled a| ≤ 33554430 * 2 ^ 252 := by
  have hlargest : magUnits (infMag - 1) = 33554430 * 2 ^ 252 := by decide +kernel
  have hle : magUnits (f32Mag a) ≤ magUnits (infMag - 1) :=
    magUnits_strictMono.monotone (Nat.le_sub_one_of_lt ((isFinite_iff a).1 h))
  rw [Int.abs_eq_natAbs, natAbs_scaled]
  exact_mod_cast hle.trans_eq hlargest

/-- A phase is too small to carry a finite increment past the largest finite value. -/
theorem isFinite_fadd_phase {phase inc : F32} (hphase : Config.phaseAdmissible phase = true)
    (hinc : isFinite inc = true) : isFinite (fadd phase inc) = true := by
  obtain ⟨hfin, hsign, hlt⟩ := phaseAdmissible_iff.1 hphase
  have hbelow : |scaled phase + scaled inc| < 33554431 * 2 ^ 252 * 1 :=
    calc |scaled phase + scaled inc|
        ≤ |scaled phase| + |scaled inc| := abs_add_le _ _
      _ < 2 ^ 149 + 33554430 * 2 ^ 252 :=
        add_lt_add_of_lt_of_le (by rwa [abs_of_nonneg (scaled_nonneg hsign)]) (abs_scaled_le hinc)
      _ ≤ 33554431 * 2 ^ 252 * 1 := by norm_num
  rw [fadd_finite hfin hinc]
  exact ((roundsTo_roundUnits _ _).2 hbelow).1

/-- A quotient by at least 1.0 is no larger than its dividend. -/
theorem isFinite_fdiv_of_one_le {a b : F32} (ha : isFinite a = true) (hb : positiveFinite b = true)
    (hone : fle f32One b = true) : isFinite (fdiv a b) = true := by
  obtain ⟨hbFin, hpos⟩ := positiveFinite_iff.1 hb
  have hunits : scaled f32One = unitsPerOne := by decide +kernel
  rw [fle_iff (by decide) (isFinite_not_isNaN hbFin), hunits, scaled_eq_scaledMag hpos.le, Nat.cast_le] at hone
  exact isFinite_of_scaledMag_le ha (scaledMag_fdiv_le ha hbFin hpos.ne' (Nat.mul_le_mul_left _ hone))

/-- At a sample rate of at least 1.0 every finite rate advances a good LFO (70_reset_and_hazards.md R154). -/
theorem Lfo.Wf.isFinite_advancedPhase {l : Lfo} {rate : F32} (hl : l.Wf) (hone : fle f32One l.sr = true)
    (hrate : isFinite rate = true) : isFinite (advancedPhase l rate) = true :=
  isFinite_fadd_phase hl.phase (isFinite_fdiv_of_one_le hrate hl.sr hone)

/-! A sample that completes (44_engine.md R101 to R105, R109) -/

/-- The base delay of a legal parameter at a legal sample rate is not below 0 (44_engine.md R102). -/
theorem roundHA_baseProduct_nonneg {p : Snapshot} {sr : F32} (hdelay : paramLegal .delayMs p.delayMs = true)
    (hsr : positiveFinite sr = true) (hfin : isFinite (baseProduct p sr) = true) :
    0 ≤ roundHA (baseProduct p sr) := by
  have hquot : f32Neg (fdiv p.delayMs f32Thousand) = false := f32Neg_fdiv_of_pos hdelay (by decide)
  refine roundHA_nonneg ?_
  rw [baseProduct] at hfin ⊢
  rw [(fmul_canonicalOrSigned _ _).sign (isFinite_not_isNaN hfin), hquot,
    f32Neg_of_pos (positiveFinite_iff.1 hsr).2]
  rfl

/-- With the cursors inside, ENG_PROCESS completes exactly when its plan passes. -/
theorem exec_engProcess_completes_iff {c : Channel} {s : State} (hs : s.faultCause = 0#32)
    (hcursors : checkCursors (s.chan c) = .ok ()) :
    (∃ t, exec (.engProcess c) s = .next t ∧ t.faultCause = 0#32) ↔
      ∃ plan, engPlan c (s.chan c) = .ok plan := by
  constructor
  · rintro ⟨t, hexec, ht⟩
    rcases exec_engProcess_next hs hexec with ⟨plan, hplan, -⟩ | ⟨-, -, hfault, -⟩
    · exact ⟨plan, hplan⟩
    · exact absurd ht hfault
  · rintro ⟨plan, hplan⟩
    exact ⟨_, exec_ok (i := .engProcess c) hs (processEng_ok.2 ⟨plan, hplan, hcursors, rfl⟩), by simpa using hs⟩

/-- Where the product and the advances are finite and no tap delay is below 0, only the capacities are left to
check. -/
theorem exists_engPlan_iff {c : Channel} {ch : ChannelState} {p : Snapshot} {d : Int}
    (hparams : snapshotOf ch.params = some p) (hsized : ch.sized = true)
    (hfin : isFinite (baseProduct p ch.sampleRate) = true) (hd : d = roundHA (baseProduct p ch.sampleRate))
    (hadvance : ∀ k, isFinite (advancedPhase (ch.lfo.get k) p.rate) = true)
    (hnonneg : ∀ k, 0 ≤ d + tapOffset (ch.lfo.get k) (depthClamp p ch.sampleRate d)) :
    (∃ plan, engPlan c ch = .ok plan) ↔ d < (ch.fb.cap : Int) ∧
      ∀ k, d + tapOffset (ch.lfo.get k) (depthClamp p ch.sampleRate d) < ((ch.dl.get k).cap : Int) := by
  constructor
  · rintro ⟨⟨snap, base, taps⟩, hplan⟩
    obtain ⟨hsnap, -, -, hbase, hinside, htaps, -⟩ := engPlan_ok.1 hplan
    obtain rfl : p = snap := Option.some.inj (hparams.symm.trans hsnap)
    obtain rfl : base = d := hbase.trans hd.symm
    refine ⟨hinside, fun k => ?_⟩
    obtain ⟨htap, -, hlt⟩ := tapDelay_ok.1 (htaps k)
    exact htap ▸ hlt
  · rintro ⟨hinside, htaps⟩
    refine ⟨⟨p, d, Taps.ofFn fun k => d + tapOffset (ch.lfo.get k) (depthClamp p ch.sampleRate d)⟩,
      engPlan_ok.2 ⟨hparams, hsized, hfin, hd, hinside, fun k => tapDelay_ok.2 ?_, hadvance⟩⟩
    rw [Taps.get_ofFn]
    exact ⟨rfl, hnonneg k, htaps k⟩

/-- Settles O50: the invariants leave only the capacity checks of the plan, and the offsets are bounded by R111 and
are 0 with depth 0. -/
theorem legalParametersCompleteInRange : Obligations.LegalParametersCompleteInRange := by
  rintro c s _ p _ d hs rfl hwf hsizes hsized hlfo hone hparams rfl hfin hbase hd
  obtain ⟨hdlCap, hfbCap⟩ := hsizes hsized
  have hlegal : ∀ q v, (s.chan c).params.get q = some v → paramLegal q v = true := hwf.params
  rw [hparams] at hlegal
  have hd0 : 0 ≤ d := hbase ▸ roundHA_baseProduct_nonneg (hlegal .delayMs _ rfl) hwf.sampleRate hfin
  have hoffset k := tapOffsetsAreBounded p (s.chan c).sampleRate ((s.chan c).lfo.get k) d
    (hlegal .depthMs _ rfl) hwf.sampleRate (hwf.lfo k).phase hd0 hd
  have hrate : isFinite p.rate = true := (positiveFinite_iff.1 (hlegal .rateHz _ rfl)).1
  have hcompletes := (exec_engProcess_completes_iff hs
    (checkCursors_ok.2 ⟨fun k => (hwf.dl k).cursor, hwf.fb.cursor⟩)).trans
    (exists_engPlan_iff (snapshotOf_some.2 hparams) hsized hfin hbase
      (fun k => (hwf.lfo k).isFinite_advancedPhase (hlfo k ▸ hone) hrate) fun k => (hoffset k).2.2)
  simp only [hdlCap, hfbCap, ← Int.le_sub_one_iff] at hcompletes
  refine ⟨hcompletes, ?_⟩
  rintro (hrange | ⟨hdepth, hrange⟩)
  · refine hcompletes.2 ⟨?_, fun k => ?_⟩
    · have hquarter := (abs_nonneg _).trans (hoffset .tap0).1
      omega
    · have htap := (le_abs_self _).trans (hoffset k).1
      omega
  · refine hcompletes.2 ⟨hrange, fun k => ?_⟩
    rwa [(zeroDepthGivesEqualTaps p _ _ d hdepth hwf.sampleRate (hwf.lfo k).phase hd0).2]

end Sys2Proof.Machine
end
